-- ==== Sys2Proof/Word.lean ====
section
/-! DEFINITION. The value types of the framer: bytes, byte sequences and the accumulator word
(spec/00_scope.md rule R13, spec/10_state.md rule R26). -/

namespace Sys2Proof

/-- A byte: an unsigned integer 0 to 255, bit 7 the most significant (rule R13). -/
abbrev Byte := BitVec 8

/-- A sequence of bytes; indices and lengths are unbounded naturals (rule R13). -/
abbrev Bytes := List Byte

/-- The CRC accumulator word, 16 bits of working space (rule R26, decision D6). -/
abbrev Acc := BitVec 16

end Sys2Proof
end

