-- ==== Sys2Proof/Config.lean ====
section
/-! DEFINITION. The fixed configuration record of the framer (spec/00_scope.md rules R3, R9, R10,
R12; spec/10_state.md rule R21).  Every parameter the spec leaves OPEN is a field: claims quantify
over it.  The two test configurations T0C and T0P are the spec's own example values. -/

namespace Sys2Proof

/-- The two variants of the framer (rule R3).  Rule R21 numbers them, by the spec's own choice,
CRC = 0 and PARITY = 1. -/
inductive Mode where
  | crc
  | parity
deriving DecidableEq, Repr

/-- The error-detection scheme with the fields its mode has: in CRC mode the sentinel fields are
absent, in PARITY mode the generator fields are absent (rule R21). -/
inductive Scheme where
  /-- `GEN_POLY` and `GEN_LEN`: the generator and its bit length. -/
  | crc (genPoly genLen : Nat)
  /-- `EVEN_SENTINEL` and `ODD_SENTINEL`. -/
  | parity (evenSentinel oddSentinel : Byte)
deriving DecidableEq, Repr

/-- `MODE` of a scheme (rules R3, R10). -/
def Scheme.mode : Scheme → Mode
  | .crc _ _ => .crc
  | .parity _ _ => .parity

/-- The default generator `1_1101_0101` over 9 bits (rule R10). -/
def Scheme.crcDefault : Scheme := .crc 0x1D5 9

/-- `CFG`, the configuration record (rules R9, R10, R21).  No operation writes it (decision D4). -/
structure Cfg where
  /-- `START_TAG`, OPEN (decision D2). -/
  startTag : Byte
  /-- `STOP_TAG`, OPEN (decision D2). -/
  stopTag : Byte
  /-- `ESCAPE_TAG`, OPEN (decision D2). -/
  escapeTag : Byte
  /-- `MODE` with the fields of the mode: generator or sentinels. -/
  scheme : Scheme
  /-- `MAX_CHUNK`, reference value 8. -/
  maxChunk : Nat
  /-- `BUF_CAP`: `none` is `unbounded`, the source's behaviour (decision D14). -/
  bufCap : Option Nat
  /-- `DIAG_EN`: whether the optional diagnostic channel exists (decision D17). -/
  diagEn : Bool
deriving DecidableEq, Repr

/-- Test configuration `T0C` of rule R12 (`DIAG_EN` is not given there and is taken as true, as the
vectors of 95_test_vectors.md that show DIAG need it). -/
def Cfg.t0c : Cfg where
  startTag := 0x7B
  stopTag := 0x7D
  escapeTag := 0x5C
  scheme := Scheme.crcDefault
  maxChunk := 8
  bufCap := none
  diagEn := true

/-- Test configuration `T0P` of rule R12. -/
def Cfg.t0p : Cfg := { Cfg.t0c with scheme := .parity 0x30 0x31 }

/-- A FREE VALUE: what `crcBit(a, bit)` is for an accumulator operand `a` outside the range of rule
R90, where the spec states no result (DESIGN CHOICE, log entry 14).  It has no body, so nothing can be
proved of it. -/
opaque Config.freeCrcBit (genPoly genLen : Nat) (a : Acc) (bit : Bool) : Acc

end Sys2Proof
end

