-- ==== Sys2Proof/Syntax.lean ====
section
/-! DEFINITION. The operations of the framer: one constructor per row of spec/opcode_table.json
(spec/30_encoding.md rules R68, R69, R75).  A row that consumes a byte carries that byte as its
operand; a host operation or function carries its arguments. -/

namespace Sys2Proof

/-- The 29 rows of the operation map. -/
inductive Instr where
  -- RX_SCAN: the micro-steps of one decode attempt (rule R68)
  /-- `SEEK.END`, rule R123. -/
  | seekEnd
  /-- `SEEK.START`, rule R121. -/
  | seekStart
  /-- `SEEK.SKIP`, rule R122; `b` is the byte looked at, any value but `START_TAG`. -/
  | seekSkip (b : Byte)
  /-- `ACC.END`, rule R129. -/
  | accEnd
  /-- `ACC.ESC_PAIR`, rule R124; `x` is the byte after the escape, any value (rule R66). -/
  | accEscPair (x : Byte)
  /-- `ACC.ESC_DANGLE`, rule R125. -/
  | accEscDangle
  /-- `ACC.STOP`, rule R126. -/
  | accStop
  /-- `ACC.START`, rule R127. -/
  | accStart
  /-- `ACC.DATA`, rule R128; `b` is the byte looked at, of class OTHER. -/
  | accData (b : Byte)
  /-- `DONE.VALIDATE`, rule R130. -/
  | doneValidate
  /-- `DONE.EMPTY`, rule R131. -/
  | doneEmpty
  -- TX_STEP: the byte steps of one ENCODE (rule R69)
  /-- `ENC.OPEN`, rule R110. -/
  | encOpen
  /-- `ENC.STUFF`, rule R111; `b` is the payload byte, a tag value. -/
  | encStuff (b : Byte)
  /-- `ENC.PLAIN`, rule R112; `b` is the payload byte, no tag value. -/
  | encPlain (b : Byte)
  /-- `ENC.TRAILER`, rule R113. -/
  | encTrailer
  /-- `ENC.CLOSE`, rule R110. -/
  | encClose
  -- HOST_OP: the six host operations (rule R6)
  /-- `ENCODE(chunk)`, rule R110. -/
  | encode (chunk : Bytes)
  /-- `ENCODE_CHUNKS(P)`, rule R150. -/
  | encodeChunks (payload : Bytes)
  /-- `APPEND(s)`, rule R140. -/
  | append (fragment : Bytes)
  /-- `EXTRACT()`, rule R141. -/
  | extract
  /-- `FEED(s)`, rule R142. -/
  | feed (fragment : Bytes)
  /-- `RESET()`, rule R143. -/
  | reset
  -- FUNCTION: the pure functions (rule R75)
  /-- `CRC.BIT`, rule R90: `a` is an accumulator value; rule R90 gives the result for `a` below
  `2^(GEN_LEN-1)`. -/
  | crcBit (a : Acc) (bit : Bool)
  /-- `CRC.REMAINDER`, rule R91. -/
  | crcRemainder (s : Bytes)
  /-- `PARITY.OF`, rule R94. -/
  | parityOf (s : Bytes)
  /-- `TRAILER.COMPUTE`, rule R95. -/
  | trailerCompute (p : Bytes)
  /-- `TRAILER.ISVALID`, rule R96. -/
  | trailerIsValid (p : Bytes) (t : Byte)
  /-- `CHUNKS`, rule R151. -/
  | chunks (payload : Bytes)
  /-- `ATTEMPT`, rule R132: the decode attempt as a function of a buffer content. -/
  | attempt (buf : Bytes)
deriving DecidableEq, Repr

/-- The mnemonic of the row of spec/opcode_table.json, letter for letter. -/
def Instr.mnemonic : Instr → String
  | .seekEnd => "SEEK.END"
  | .seekStart => "SEEK.START"
  | .seekSkip _ => "SEEK.SKIP"
  | .accEnd => "ACC.END"
  | .accEscPair _ => "ACC.ESC_PAIR"
  | .accEscDangle => "ACC.ESC_DANGLE"
  | .accStop => "ACC.STOP"
  | .accStart => "ACC.START"
  | .accData _ => "ACC.DATA"
  | .doneValidate => "DONE.VALIDATE"
  | .doneEmpty => "DONE.EMPTY"
  | .encOpen => "ENC.OPEN"
  | .encStuff _ => "ENC.STUFF"
  | .encPlain _ => "ENC.PLAIN"
  | .encTrailer => "ENC.TRAILER"
  | .encClose => "ENC.CLOSE"
  | .encode _ => "ENCODE"
  | .encodeChunks _ => "ENCODE_CHUNKS"
  | .append _ => "APPEND"
  | .extract => "EXTRACT"
  | .feed _ => "FEED"
  | .reset => "RESET"
  | .crcBit _ _ => "CRC.BIT"
  | .crcRemainder _ => "CRC.REMAINDER"
  | .parityOf _ => "PARITY.OF"
  | .trailerCompute _ => "TRAILER.COMPUTE"
  | .trailerIsValid _ _ => "TRAILER.ISVALID"
  | .chunks _ => "CHUNKS"
  | .attempt _ => "ATTEMPT"

end Sys2Proof
end

