-- ==== Sys2Proof/WellFormed.lean ====
section
/-! DEFINITION. Well-formed configurations, `WF(cfg)` of spec/00_scope.md rule R11, one check per
clause, and well-formed instructions: the operand bytes a row of the operation map admits
(spec/30_encoding.md rules R68, R69). -/

namespace Sys2Proof

/-- `WF(cfg)` clause 1: the three tags are pairwise different. -/
def Cfg.tagsDistinct (c : Cfg) : Bool :=
  c.startTag != c.stopTag && c.startTag != c.escapeTag && c.stopTag != c.escapeTag

/-- `b` equals none of the three tag parameters. -/
def Cfg.notTag (c : Cfg) (b : Byte) : Bool :=
  b != c.startTag && b != c.stopTag && b != c.escapeTag

/-- `WF(cfg)` clause 2: in PARITY mode no sentinel is a tag. -/
def Cfg.sentinelsNoTags (c : Cfg) : Bool :=
  match c.scheme with
  | .crc _ _ => true
  | .parity even odd => c.notTag even && c.notTag odd

/-- `WF(cfg)` clause 3: in PARITY mode the sentinels differ. -/
def Cfg.sentinelsDiffer (c : Cfg) : Bool :=
  match c.scheme with
  | .crc _ _ => true
  | .parity even odd => even != odd

/-- `WF(cfg)` clause 4: in CRC mode `2 ≤ GEN_LEN ≤ 9` and bit `GEN_LEN-1` is the highest set bit of
`GEN_POLY`. -/
def Cfg.generatorFits (c : Cfg) : Bool :=
  match c.scheme with
  | .crc poly len =>
      decide (2 ≤ len) && decide (len ≤ 9) && decide (2 ^ (len - 1) ≤ poly) && decide (poly < 2 ^ len)
  | .parity _ _ => true

/-- `WF(cfg)` clause 5: `MAX_CHUNK ≥ 1`. -/
def Cfg.chunkPositive (c : Cfg) : Bool := decide (1 ≤ c.maxChunk)

/-- `WF(cfg)` (rule R11). -/
def Cfg.wf (c : Cfg) : Bool :=
  c.tagsDistinct && c.sentinelsNoTags && c.sentinelsDiffer && c.generatorFits && c.chunkPositive

/-- The range of an accumulator value, below `2^(GEN_LEN-1)` (rules R90, R92); without a generator
there is no bound. -/
def Cfg.accInRange (c : Cfg) (a : Acc) : Bool :=
  match c.scheme with
  | .crc _ len => decide (a.toNat < 2 ^ (len - 1))
  | .parity _ _ => true

/-- The operand values a row admits under a configuration (rules R68, R69); every other operand is
free: arguments are byte sequences of any length and content (rule R70), and CRC.BIT runs on every
accumulator value (log entry 14). -/
def Instr.wf (c : Cfg) : Instr → Bool
  | .seekSkip b => b != c.startTag
  | .accData b => c.notTag b
  | .encStuff b => !c.notTag b
  | .encPlain b => c.notTag b
  | .seekEnd | .seekStart | .accEnd | .accEscPair _ | .accEscDangle | .accStop | .accStart
  | .doneValidate | .doneEmpty | .encOpen | .encTrailer | .encClose | .encode _ | .encodeChunks _
  | .append _ | .extract | .feed _ | .reset | .crcBit _ _ | .crcRemainder _ | .parityOf _
  | .trailerCompute _ | .trailerIsValid _ _ | .chunks _ | .attempt _ => true

end Sys2Proof
end

