-- ==== Sys2Proof/Decode.lean ====
section
/-! DEFINITION. Byte classes, the ways an operation of the framer is selected, the decoder that
reads them and the encoder that writes them (spec/00_scope.md rule R15; spec/30_encoding.md
rules R68, R69, R73, R75).  A receive micro-step is selected by the scan state and the byte under
the scan pointer; an encoder step by the encoder's position and the payload byte; a bit step
of a CRC evaluation by the accumulator and the bit; a host operation or a function by its NAME, because the spec gives it no bit encoding (log entries 8 and 9). -/

namespace Sys2Proof

/-- The four byte classes of rule R15. -/
inductive ByteClass where
  | start
  | stop
  | escape
  | other
deriving DecidableEq, Repr

/-- `class(b)`, decided by equality with the tag parameters (rule R15). -/
def Cfg.classOf (c : Cfg) (b : Byte) : ByteClass :=
  if b = c.startTag then .start
  else if b = c.stopTag then .stop
  else if b = c.escapeTag then .escape
  else .other

/-- `isTag(b)` is `class(b) ≠ OTHER` (rule R15). -/
def Cfg.isTag (c : Cfg) (b : Byte) : Bool := c.classOf b != .other

/-- `st`, the state of the receive state machine (rule R23). -/
inductive RxState where
  | seekingStart
  | accumulating
  | done
deriving DecidableEq, Repr

/-- Where one ENCODE stands in its walk (rules R69, R110): before the first payload byte, in the
payload (its end included), or after the trailer. -/
inductive TxPhase where
  | opening
  | body
  | closing
deriving DecidableEq, Repr

/-- What the decoder is given. -/
inductive Fetched where
  /-- A receive micro-step: `st`, whether `cand` is empty, and the bytes of RXBUF from `sp` on. -/
  | scan (st : RxState) (candEmpty : Bool) (rest : Bytes)
  /-- An encoder step: the phase and the payload bytes not yet walked. -/
  | tx (phase : TxPhase) (rest : Bytes)
  /-- A bit step of a CRC evaluation: the accumulator and the bit that enters it (rules R90, R91). -/
  | div (acc : Acc) (bit : Bool)
  /-- A host operation or function: its name and its argument byte sequences (rules R73, R75). -/
  | op (name : String) (args : List Bytes)
deriving DecidableEq, Repr

/-- Why a fetched item is no operation. -/
inductive DecodeError where
  /-- No host operation and no function has this name. -/
  | unknownName (name : String)
  /-- The operation has this name, and these are not arguments of its shape. -/
  | badArguments (name : String)
deriving DecidableEq, Repr

/-- The decoder's answer. -/
inductive Decoded where
  | ok (i : Instr)
  | rejected (e : DecodeError)
deriving DecidableEq, Repr

/-- The receive side of the operation map, complete: for every combination exactly one row applies
(rule R68).  End of buffer is tested before any byte is looked at, and a byte after an escape in
force is never classified (rule R186). -/
def decodeScan (c : Cfg) (st : RxState) (candEmpty : Bool) (rest : Bytes) : Instr :=
  match st, rest with
  | .seekingStart, [] => .seekEnd
  | .seekingStart, b :: _ => if b = c.startTag then .seekStart else .seekSkip b
  | .accumulating, [] => .accEnd
  | .accumulating, b :: rest' =>
    match c.classOf b with
    | .escape =>
      match rest' with
      | [] => .accEscDangle
      | x :: _ => .accEscPair x
    | .stop => .accStop
    | .start => .accStart
    | .other => .accData b
  | .done, _ => if candEmpty then .doneEmpty else .doneValidate

/-- The transmit side of the operation map (rule R69). -/
def decodeTx (c : Cfg) (phase : TxPhase) (rest : Bytes) : Instr :=
  match phase, rest with
  | .opening, _ => .encOpen
  | .body, [] => .encTrailer
  | .body, b :: _ => if c.isTag b then .encStuff b else .encPlain b
  | .closing, _ => .encClose

/-- The names of the host operations and functions (rule R75). -/
def opNames : List String :=
  ["ENCODE", "ENCODE_CHUNKS", "APPEND", "EXTRACT", "FEED", "RESET", "CRC.BIT", "CRC.REMAINDER",
   "PARITY.OF", "TRAILER.COMPUTE", "TRAILER.ISVALID", "CHUNKS", "ATTEMPT"]

/-- A bit written as the byte 0 or 1, and read as bit 0 of a byte (log entry 8). -/
def bitByte (bit : Bool) : Byte := if bit then 1 else 0

/-- An accumulator value written as two bytes, the high one first (log entry 8). -/
def accBytes (a : Acc) : Bytes := [a.extractLsb' 8 8, a.extractLsb' 0 8]

/-- Host operations and functions are selected by name (rule R75), with argument bytes after the
name as in the script notation of rule R73. -/
def decodeOp (name : String) (args : List Bytes) : Decoded :=
  match name, args with
  | "ENCODE", [chunk] => .ok (.encode chunk)
  | "ENCODE_CHUNKS", [payload] => .ok (.encodeChunks payload)
  | "APPEND", [fragment] => .ok (.append fragment)
  | "EXTRACT", [] => .ok .extract
  | "FEED", [fragment] => .ok (.feed fragment)
  | "RESET", [] => .ok .reset
  | "CRC.BIT", [[hi, lo], [b]] => .ok (.crcBit (hi ++ lo) (b.getLsbD 0))
  | "CRC.REMAINDER", [s] => .ok (.crcRemainder s)
  | "PARITY.OF", [s] => .ok (.parityOf s)
  | "TRAILER.COMPUTE", [p] => .ok (.trailerCompute p)
  | "TRAILER.ISVALID", [p, [t]] => .ok (.trailerIsValid p t)
  | "CHUNKS", [payload] => .ok (.chunks payload)
  | "ATTEMPT", [buf] => .ok (.attempt buf)
  | _, _ => .rejected (if opNames.contains name then .badArguments name else .unknownName name)

/-- The decoder: total; what it rejects it rejects by name. -/
def decode (c : Cfg) : Fetched → Decoded
  | .scan st candEmpty rest => .ok (decodeScan c st candEmpty rest)
  | .tx phase rest => .ok (decodeTx c phase rest)
  | .div acc bit => .ok (.crcBit acc bit)
  | .op name args => decodeOp name args

/-- The encoder, from the same maps: the shortest item that selects the instruction. -/
def encode (c : Cfg) : Instr → Fetched
  | .seekEnd => .scan .seekingStart true []
  | .seekStart => .scan .seekingStart true [c.startTag]
  | .seekSkip b => .scan .seekingStart true [b]
  | .accEnd => .scan .accumulating true []
  | .accEscPair x => .scan .accumulating true [c.escapeTag, x]
  | .accEscDangle => .scan .accumulating true [c.escapeTag]
  | .accStop => .scan .accumulating true [c.stopTag]
  | .accStart => .scan .accumulating true [c.startTag]
  | .accData b => .scan .accumulating true [b]
  | .doneValidate => .scan .done false []
  | .doneEmpty => .scan .done true []
  | .encOpen => .tx .opening []
  | .encStuff b => .tx .body [b]
  | .encPlain b => .tx .body [b]
  | .encTrailer => .tx .body []
  | .encClose => .tx .closing []
  | .encode chunk => .op "ENCODE" [chunk]
  | .encodeChunks payload => .op "ENCODE_CHUNKS" [payload]
  | .append fragment => .op "APPEND" [fragment]
  | .extract => .op "EXTRACT" []
  | .feed fragment => .op "FEED" [fragment]
  | .reset => .op "RESET" []
  | .crcBit a bit => .op "CRC.BIT" [accBytes a, [bitByte bit]]
  | .crcRemainder s => .op "CRC.REMAINDER" [s]
  | .parityOf s => .op "PARITY.OF" [s]
  | .trailerCompute p => .op "TRAILER.COMPUTE" [p]
  | .trailerIsValid p t => .op "TRAILER.ISVALID" [p, [t]]
  | .chunks payload => .op "CHUNKS" [payload]
  | .attempt buf => .op "ATTEMPT" [buf]

/-- `n` bytes of a number, the least significant first: byte 0 is the first byte on the wire. -/
def bytesOfNat : Nat → Nat → Bytes
  | 0, _ => []
  | n + 1, w => BitVec.ofNat 8 w :: bytesOfNat n (w / 256)

/-- The instruction the decoder reads from a table word.  The only words the operation map matches
are bytes on the wire (rule R68); they are read as the scan reads them first after reset, in state
`SEEKING_START`, under the configuration of `State.reset` (log entry 9). -/
def decodeTableWord (nbits w : Nat) : Option Instr :=
  match decode Cfg.t0c (.scan .seekingStart true (bytesOfNat (nbits / 8) w)) with
  | .ok i => some i
  | .rejected _ => none

end Sys2Proof
end

