-- ==== Sys2Proof/Machine/State.lean ====
section
/-! DEFINITION. The state of the framer as plain data, the reasons a step can stop, and the state
after reset (spec/10_state.md). -/

namespace Sys2Proof.Machine

/-- The receive buffer RXBUF as memory: the whole address space of the framer is the indices
`0 .. length-1`, index 0 the oldest byte (rules R22, R40).  A dense sequence has one form only, so
equal memories are equal data (log entry 17). -/
abbrev Memory := Bytes

/-- The informational reason of a `NO_FRAME` outcome (rule R29). -/
inductive Reason where
  | noStart
  | incomplete
  | danglingEscape
deriving DecidableEq, Repr

/-- The outcome of one attempt (rule R29). -/
inductive RxOutcome where
  | noFrame (r : Reason)
  | payload (p : Bytes)
  | corrupt
deriving DecidableEq, Repr

/-- An element of FEED's result: never a `NO_FRAME` (rules R6, R142). -/
inductive DecodeOutcome where
  | payload (p : Bytes)
  | corruptFrame
deriving DecidableEq, Repr

/-- What channel `RX_OUT` carries (rule R30): one outcome per EXTRACT, a sequence per FEED. -/
inductive RxResult where
  | outcome (o : RxOutcome)
  | outcomes (os : List DecodeOutcome)
deriving DecidableEq, Repr

/-- The value a pure function returns to its caller (rules R90, R91, R94 to R96, R132, R151). -/
inductive FnResult where
  | acc (a : Acc)
  | byte (b : Byte)
  | bool (b : Bool)
  | chunks (cs : List Bytes)
  | attempt (o : RxOutcome) (buf : Memory)
deriving DecidableEq, Repr

/-- The values the last transition put on the output channels (rules R30, R31); nothing of them is
kept by the next transition (log entry 7). -/
structure Outputs where
  /-- `TX_OUT`. -/
  txOut : Option Bytes := none
  /-- `RX_OUT`. -/
  rxOut : Option RxResult := none
  /-- `DIAG`: the events of this transition, in order. -/
  diag : List Bytes := []
  /-- The value returned by a pure function (the model's own field, log entry 7). -/
  ret : Option FnResult := none
deriving DecidableEq, Repr

/-- What the framer is in the middle of (the model's own field, log entry 5): `st`, `sp` and `cand`
live inside one attempt only, the encoder's registers inside one ENCODE only, `acc` inside one CRC
evaluation only (rules R20, R23, R26). -/
inductive Activity where
  | idle
  | scanning
  | encoding
  | dividing
deriving DecidableEq, Repr

/-- A request the owner or the sender has issued and the framer has not taken yet (rule R8; the
model's own field, log entries 1 and 5). -/
inductive Request where
  /-- A host operation or function by name, done as one atomic transition (rule R7). -/
  | line (name : String) (args : List Bytes)
  /-- One EXTRACT attempt, to be shown micro-step by micro-step (rule R120). -/
  | startAttempt
  /-- One ENCODE, to be shown byte step by byte step (rule R69). -/
  | startEncode (chunk : Bytes)
  /-- One `crcRemainder` evaluation, to be shown bit step by bit step (rule R91). -/
  | startCrc (s : Bytes)
deriving DecidableEq, Repr

/-- The state of one framer instance (rule R20). -/
structure State where
  /-- `CFG`, read-only (rule R21). -/
  cfg : Cfg
  /-- `RXBUF` (rule R22). -/
  rxbuf : Memory
  /-- What is in progress. -/
  act : Activity
  /-- `st` (rule R23). -/
  st : RxState
  /-- `sp`, index in RXBUF of the next byte to look at (rule R24). -/
  sp : Nat
  /-- `cand`, the un-escaped bytes gathered since START (rule R25). -/
  cand : Bytes
  /-- `acc`, the CRC accumulator (rule R26). -/
  acc : Acc
  /-- The bits of the CRC evaluation in progress that have not entered `acc` yet (rule R91; log entry
  6). -/
  crcBits : List Bool
  /-- The chunk being encoded (rule R110; log entry 6). -/
  txChunk : Bytes
  /-- How many of its bytes have been walked. -/
  txPos : Nat
  /-- Where the walk stands (rule R69). -/
  txPhase : TxPhase
  /-- `out` of rule R110: the frame bytes built so far. -/
  txBuf : Bytes
  /-- The output channels (rule R30). -/
  out : Outputs
  /-- The requests not yet taken, oldest first. -/
  ops : List Request
deriving DecidableEq, Repr

/-- Why the machine stops with no next state. -/
inductive Fault where
  /-- APPEND or FEED whose bytes do not fit a finite `BUF_CAP`: the operation has no step (rules
  R27, R140, R142, R208).  Raised by their meanings, and by
  `step` when the owner waits on it (log entry 26).  Safe: nothing is stepped past. -/
  | bufferFull
  /-- A micro-step that the operation map does not select in this state (rules R68, R69).  Raised
  by the meanings of the RX_SCAN and TX_STEP rows, never through `step`.  Safe. -/
  | rowNotSelected
  /-- An attempt in progress whose `sp` is out of the range of rule R24.  Raised by `step`; no state
  that meets `State.Inv` raises it.  Safe. -/
  | scanOutOfRange
  /-- CRC.BIT, CRC.REMAINDER or a CRC evaluation on an instance whose configuration has no generator (rule R21: in
  PARITY mode `GEN_POLY` and `GEN_LEN` are absent).  Raised by their meanings and by `step`.  Safe. -/
  | noGenerator
deriving DecidableEq, Repr

/-- Why an operation is given no meaning. -/
inductive Refusal where
  /-- An arm of `exec` without a meaning yet.  Safe. -/
  | notModelled (mnemonic : String)
  /-- The configuration is not well-formed: the framer is not defined (rule R11, decision D5).
  Raised by every meaning.  Safe. -/
  | illFormedConfig
  /-- The issued line is no operation of the framer.  Raised by `step`.  Safe. -/
  | undecodable (e : DecodeError)
deriving DecidableEq, Repr

/-- A new instance with a given configuration, right after reset (rules R32, R200): RXBUF is empty
and nothing is pending.  The working registers are unspecified there; their values here are log
entries 3 and 6. -/
def State.resetOf (cfg : Cfg) : State where
  cfg := cfg
  rxbuf := []
  act := .idle
  st := .seekingStart
  sp := 0
  cand := []
  acc := 0
  crcBits := []
  txChunk := []
  txPos := 0
  txPhase := .opening
  txBuf := []
  out := {}
  ops := []

/-- The machine right after reset.  The spec leaves the configuration OPEN; this one state takes the
test configuration T0C (log entry 2), and claims about reset are stated of `State.resetOf`. -/
def State.reset : State := State.resetOf Cfg.t0c

end Sys2Proof.Machine
end

