-- ==== Sys2Proof/Machine/Operands.lean ====
section
/-! DEFINITION. The operands of the framer's operations: reading, appending to and consuming the
receive buffer (spec/00_scope.md rule R14, spec/20_memory.md), the bits of a byte, byte stuffing
and un-stuffing and the trailer split (spec/30_encoding.md rules R61, R66, R67), and chunks
(spec/44_chunking.md rule R151). -/

namespace Sys2Proof.Machine

/-- The form every receive buffer has under a capacity: at most `BUF_CAP` bytes (rules R20, R27). -/
def Memory.wf (cap : Option Nat) (m : Memory) : Bool :=
  match cap with
  | none => true
  | some n => decide (m.length ≤ n)

/-- The buffer as addressed cells, address 0 the oldest byte (rules R22, R40). -/
def Memory.cells (m : Memory) : List Host.Cell := m.zipIdx.map fun e => (e.2, e.1)

/-- `RXBUF[i]`: one byte; an index at or past the end does not exist (rules R14, R40, R44). -/
def Memory.read? (m : Memory) (i : Nat) : Option Byte := m[i]?

/-- `MemRead(addr, n)`, defined only when `addr + n ≤ len(RXBUF)` (rule R14). -/
def Memory.readBytes? (m : Memory) (addr n : Nat) : Option Bytes :=
  if addr + n ≤ m.length then some ((m.drop addr).take n) else none

/-- `Append(s)` at the tail (rules R14, R22). -/
def Memory.append (m : Memory) (s : Bytes) : Memory := m ++ s

/-- `Consume(n)` at the head, used only where `n ≤ len(RXBUF)` (rules R14, R22). -/
def Memory.consume (m : Memory) (n : Nat) : Memory := m.drop n

/-- Whether `s` more bytes fit: always without a bound, else `len(RXBUF) + len(s) ≤ BUF_CAP`
(rules R27, R140). -/
def Memory.fits (cap : Option Nat) (m : Memory) (s : Bytes) : Bool :=
  match cap with
  | none => true
  | some n => decide (m.length + s.length ≤ n)

/-- The bits of a byte, most significant first (rule R42). -/
def bitsMsb (b : Byte) : List Bool :=
  [b.getLsbD 7, b.getLsbD 6, b.getLsbD 5, b.getLsbD 4,
   b.getLsbD 3, b.getLsbD 2, b.getLsbD 1, b.getLsbD 0]

/-- The bits of a byte sequence, in the order the CRC takes them (rules R42, R91). -/
def bitsOf (s : Bytes) : List Bool := s.flatMap bitsMsb

/-- `popcount(b)`: how many bits of the byte are 1 (rule R13). -/
def popcount (b : Byte) : Nat := (bitsMsb b).count true

/-- `stuffed(b)`: an escape before a tag-valued byte, the byte itself unchanged (rule R61). -/
def stuffed (c : Cfg) (b : Byte) : Bytes := if c.isTag b then [c.escapeTag, b] else [b]

/-- The stuffed payload region of a frame (rule R60). -/
def stuffAll (c : Cfg) (p : Bytes) : Bytes := p.flatMap (stuffed c)

/-- Un-stuffing of a region that parses into OTHER bytes and escape pairs; none where it holds an
unescaped START or STOP or ends inside an escape pair (rules R66, R134). -/
def unstuff (c : Cfg) : Bytes → Option Bytes
  | [] => some []
  | b :: rest =>
    match c.classOf b with
    | .escape =>
      match rest with
      | [] => none
      | x :: rest' => (unstuff c rest').map (x :: ·)
    | .other => (unstuff c rest).map (b :: ·)
    | .start => none
    | .stop => none

/-- The split of a candidate into payload and trailer, by position; impossible for the empty
candidate (rule R67). -/
def splitCandidate (cand : Bytes) : Option (Bytes × Byte) :=
  match cand.getLast? with
  | none => none
  | some t => some (cand.dropLast, t)

/-- `chunks(P)` on `fuel` pieces at most (rule R151). -/
def chunksFuel (size : Nat) : Nat → Bytes → List Bytes
  | 0, _ => []
  | _ + 1, [] => []
  | fuel + 1, b :: rest =>
    (b :: rest).take size :: chunksFuel size fuel ((b :: rest).drop size)

/-- `chunks(P)`: pieces of `MAX_CHUNK` bytes, the last one what is left (rule R151).  Every piece
takes at least one byte when `MAX_CHUNK ≥ 1`, so `len(P)` pieces are enough. -/
def chunksOf (c : Cfg) (payload : Bytes) : List Bytes :=
  chunksFuel c.maxChunk payload.length payload

end Sys2Proof.Machine
end

