-- ==== Sys2Proof/Machine/Trailer.lean ====
section
/-! DEFINITION. Trailer arithmetic: CRC remainder, parity and the strategy interface
(spec/40_trailer_arithmetic.md rules R90 to R96). -/

namespace Sys2Proof.Machine

/-- `crcBit(a, bit)`: shift left, OR the bit in, and XOR the whole generator when bit `GEN_LEN-1`
of the shifted value is set (rule R90). -/
def crcBit (genPoly genLen : Nat) (a : Acc) (bit : Bool) : Acc :=
  let a1 : Acc := (a <<< 1) ||| (if bit then 1 else 0)
  if a1.getLsbD (genLen - 1) then a1 ^^^ BitVec.ofNat 16 genPoly else a1

/-- The value of CRC.BIT on any operands: `crcBit(a, bit)` in the range of rule R90, a free value out
of it (log entry 14). -/
def crcBitValue (genPoly genLen : Nat) (a : Acc) (bit : Bool) : Acc :=
  if a.toNat < 2 ^ (genLen - 1) then crcBit genPoly genLen a bit
  else Config.freeCrcBit genPoly genLen a bit

/-- The eight bit steps of one byte, most significant bit first (rule R91). -/
def crcByte (genPoly genLen : Nat) (a : Acc) (b : Byte) : Acc :=
  (bitsMsb b).foldl (crcBit genPoly genLen) a

/-- `polyRem(s)`: the division loop from a zero accumulator over `s` alone (rule R91). -/
def polyRem (genPoly genLen : Nat) (s : Bytes) : Acc := s.foldl (crcByte genPoly genLen) 0

/-- The accumulator at the end of `crcRemainder(s)`: `s` and one zero byte (rule R91). -/
def crcAcc (genPoly genLen : Nat) (s : Bytes) : Acc := polyRem genPoly genLen (s ++ [0])

/-- `crcRemainder(s) = acc[7:0]` (rule R91). -/
def crcRemainder (genPoly genLen : Nat) (s : Bytes) : Byte := (crcAcc genPoly genLen s).setWidth 8

/-- `parityOf(s)`: the sum of the population counts is odd (rule R94). -/
def parityOf (s : Bytes) : Bool := (s.map popcount).sum % 2 == 1

/-- `computeTrailer(p)` (rule R95). -/
def computeTrailer (c : Cfg) (p : Bytes) : Byte :=
  match c.scheme with
  | .crc genPoly genLen => crcRemainder genPoly genLen p
  | .parity evenSentinel oddSentinel => if parityOf p then oddSentinel else evenSentinel

/-- `isValid(p, T)`: recompute and compare (rule R96, decision D7). -/
def isValid (c : Cfg) (p : Bytes) (t : Byte) : Bool := t == computeTrailer c p

end Sys2Proof.Machine
end

