-- ==== Sys2Proof/Machine/Flags.lean ====
section
/-! DEFINITION. The framer's status: the outcome of an attempt, and the four conditions with what
each one reports (spec/10_state.md rules R29, R31; spec/60_exceptions.md rules R180 to R184). -/

namespace Sys2Proof.Machine

/-- The four conditions of rule R180, with the information `raise` is given. -/
inductive Condition where
  /-- `E1 Incomplete`; its reason is INCOMPLETE or DANGLING_ESCAPE (rule R181). -/
  | incomplete (r : Reason)
  /-- `E2 Garbage`, once per byte (rule R182). -/
  | garbage (b : Byte)
  /-- `E3 Superseded`, with the discarded bytes (rule R183). -/
  | superseded (discarded : Bytes)
  /-- `E4 Corrupt`, with the candidate less its last byte (rule R184). -/
  | corrupt (p : Bytes)
deriving DecidableEq, Repr

/-- What a condition records on DIAG: the stripped content of a corrupt frame, and nothing else
(rules R180, R184). -/
def Condition.record? : Condition → Option Bytes
  | .corrupt p => some p
  | .incomplete _ | .garbage _ | .superseded _ => none

/-- How a condition is reported as an outcome: garbage and superseded frames are not (R180). -/
def Condition.outcome? : Condition → Option RxOutcome
  | .incomplete r => some (.noFrame r)
  | .corrupt _ => some .corrupt
  | .garbage _ | .superseded _ => none

/-- The DIAG events of a list of conditions, none when the channel is absent (rule R31). -/
def diagEvents (c : Cfg) (raised : List Condition) : List Bytes :=
  if c.diagEn then raised.filterMap Condition.record? else []

/-- The outcome of a delimited candidate and the condition it raises: an empty candidate is corrupt
(rule R131, decision D11), any other is split and its trailer checked (rule R130). -/
def verdict (c : Cfg) (cand : Bytes) : RxOutcome × List Condition :=
  match splitCandidate cand with
  | none => (.corrupt, [.corrupt []])
  | some (p, t) => if isValid c p t then (.payload p, []) else (.corrupt, [.corrupt p])

/-- The element of FEED's result an outcome gives: none for `NO_FRAME` (rules R6, R142). -/
def RxOutcome.decoded? : RxOutcome → Option DecodeOutcome
  | .noFrame _ => none
  | .payload p => some (.payload p)
  | .corrupt => some .corruptFrame

/-- Outcome codes, for reference only (rule R180). -/
def RxOutcome.code : RxOutcome → Nat
  | .noFrame _ => 0
  | .payload _ => 1
  | .corrupt => 2

/-- Reason codes, for reference only (rule R180). -/
def Reason.code : Reason → Nat
  | .noStart => 0
  | .incomplete => 1
  | .danglingEscape => 2

end Sys2Proof.Machine
end

