-- ==== Sys2Proof/Machine/Ops.lean ====
section
/-! DEFINITION. Shared operations over the state: the check of the configuration, the channels, the
selection of a micro-step, RAISING A CONDITION and ending an attempt (this hardware's counterpart of
taking an exception and returning from it), and starting an attempt or a frame
(spec/00_scope.md rules R11, R14; spec/42_decode.md rule R120; spec/60_exceptions.md). -/

namespace Sys2Proof.Machine

/-- What a meaning answers. -/
abbrev Result := Host.Outcome State Fault Refusal

/-- No rule applies to an ill-formed configuration: it is refused (rule R11, decision D5). -/
def underWF (s : State) (r : Result) : Result :=
  if s.cfg.wf then r else .refused .illFormedConfig

/-- The state with its channels empty: outcomes are returned and then forgotten (rule R29). -/
def State.quiet (s : State) : State := { s with out := {} }

/-- `emit(TX_OUT, v)` (rule R14). -/
def State.emitTx (s : State) (v : Bytes) : State := { s with out := { s.out with txOut := some v } }

/-- `emit(RX_OUT, v)` (rule R14). -/
def State.emitRx (s : State) (v : RxResult) : State :=
  { s with out := { s.out with rxOut := some v } }

/-- `emit(DIAG, p)` for each event given (rules R14, R31). -/
def State.emitDiag (s : State) (events : List Bytes) : State :=
  { s with out := { s.out with diag := s.out.diag ++ events } }

/-- The value a pure function returns to its caller. -/
def State.giveBack (s : State) (v : FnResult) : State :=
  { s with out := { s.out with ret := some v } }

/-- `Consume(n)` on RXBUF (rule R14). -/
def State.consume (s : State) (n : Nat) : State := { s with rxbuf := s.rxbuf.consume n }

/-- `Append(bytes)` on RXBUF (rule R14). -/
def State.append (s : State) (bytes : Bytes) : State := { s with rxbuf := s.rxbuf.append bytes }

/-- `raise <Condition>(info)`: every condition through this one operation.  It is reported as its
outcome on RX_OUT where it has one, and its record goes to DIAG where it has one and the channel
exists; garbage and superseded frames leave no trace.  No mode changes, nothing is saved and no
handler is entered (rules R14, R180 to R184, R188). -/
def State.raise (s : State) (k : Condition) : State :=
  let reported :=
    match k.outcome? with
    | none => s
    | some o => s.emitRx (.outcome o)
  reported.emitDiag (diagEvents s.cfg [k])

/-- The end of an attempt: control returns to the owner, and nothing is restored, as the next attempt
starts afresh (rule R190).  The candidate is thrown away and nothing of the frame remains (rules R28,
R129, R130, R188).  That `st`, `sp` and `cand` then hold the values of reset is DESIGN CHOICE, log
entry 25: the spec says any value (93_implementation_defined.md U10). -/
def State.endAttempt (s : State) : State :=
  { s with act := .idle, st := .seekingStart, sp := 0, cand := [] }

/-- Start of an attempt: `st <- SEEKING_START; sp <- 0; cand <- []` (rule R120). -/
def State.enterAttempt (s : State) : State :=
  { s with act := .scanning, st := .seekingStart, sp := 0, cand := [] }

/-- Start of one ENCODE: nothing walked, `out` empty (rule R110). -/
def State.enterEncode (s : State) (chunk : Bytes) : State :=
  { s with act := .encoding, txChunk := chunk, txPos := 0, txPhase := .opening, txBuf := [] }

/-- The end of one ENCODE: no copy is kept of the chunk or of the frame (rule R49).  That the
encoder's registers then hold the values of reset is DESIGN CHOICE, log entry 25. -/
def State.endEncode (s : State) : State :=
  { s with act := .idle, txChunk := [], txPos := 0, txPhase := .opening, txBuf := [] }

/-- Start of one `crcRemainder` evaluation over `bits`: `acc <- 0` (rule R91). -/
def State.enterCrc (s : State) (bits : List Bool) : State :=
  { s with act := .dividing, acc := 0, crcBits := bits }

/-- End of that evaluation: `acc[7:0]` is returned (rule R91).  That `acc` then holds the value of
reset is DESIGN CHOICE, log entry 25: the spec says any value (U10). -/
def State.endCrc (s : State) : State :=
  { s.giveBack (.byte (s.acc.setWidth 8)) with act := .idle, acc := 0, crcBits := [] }

/-- The scan pointer is in its range: 0 while seeking, at most the buffer's length while
accumulating; in `DONE` it is not read (rule R24, log entry 13). -/
def State.scanInRange (s : State) : Bool :=
  match s.st with
  | .seekingStart => s.sp == 0
  | .accumulating => decide (s.sp ≤ s.rxbuf.length)
  | .done => true

/-- What selects the next receive micro-step (rule R68). -/
def State.scanWord (s : State) : Fetched := .scan s.st s.cand.isEmpty (s.rxbuf.drop s.sp)

/-- What selects the next encoder step (rule R69). -/
def State.txWord (s : State) : Fetched := .tx s.txPhase (s.txChunk.drop s.txPos)

/-- What selects the next bit step, none when every bit has entered (rules R90, R91). -/
def State.divWord? (s : State) : Option Fetched := s.crcBits.head?.map (.div s.acc)

/-- The operation map selects row `i` in this state (rules R68, R69, R91). -/
def State.selects (s : State) (i : Instr) : Bool :=
  match s.act with
  | .idle => false
  | .scanning => s.scanInRange && decide (decode s.cfg s.scanWord = .ok i)
  | .encoding => decide (decode s.cfg s.txWord = .ok i)
  | .dividing => decide (s.divWord?.map (decode s.cfg) = some (.ok i))

/-- One micro-step: row `i` has its effect in a state the operation map selects it in, and does not
apply in any other (rules R68, R69). -/
def microStep (i : Instr) (s : State) (effect : State → State) : Result :=
  underWF s (if s.selects i then .next (effect s.quiet) else .fault .rowNotSelected)

/-- An operation done as one atomic transition (rule R7). -/
def atomically (s : State) (effect : State → State) : Result := underWF s (.next (effect s.quiet))

/-- An operation that needs the generator: in PARITY mode there is none (rule R21). -/
def withGenerator (s : State) (effect : Nat → Nat → State → State) : Result :=
  underWF s
    (match s.cfg.scheme with
     | .crc genPoly genLen => .next (effect genPoly genLen s.quiet)
     | .parity _ _ => .fault .noGenerator)

/-- An operation that appends bytes first: enabled only when they fit, never done in part (rules
R27, R140, R142). -/
def whenFits (bytes : Bytes) (s : State) (effect : State → State) : Result :=
  underWF s
    (if Memory.fits s.cfg.bufCap s.rxbuf bytes then .next (effect s.quiet) else .fault .bufferFull)

/-- The two operations that touch no state and may be issued at any time by any agent (rule R47). -/
def sends : Instr → Bool
  | .encode _ | .encodeChunks _ => true
  | _ => false

/-- A request for one of them, as one transition or shown byte step by byte step. -/
def Request.isSend : Request → Bool
  | .line name args =>
    match decodeOp name args with
    | .ok i => sends i
    | .rejected _ => false
  | .startEncode _ => true
  | .startAttempt | .startCrc _ => false

/-- The oldest such request of a list, and the list without it. -/
def takeSend : List Request → Option (Request × List Request)
  | [] => none
  | r :: rest =>
    if r.isSend then some (r, rest) else (takeSend rest).map fun p => (p.1, r :: p.2)

end Sys2Proof.Machine
end

