-- ==== Sys2Proof/Machine/Attempt.lean ====
section
/-! DEFINITION. One decode attempt as one function of the buffer content (spec/42_decode.md rule
R132), with the conditions it raises in order, and the drain loop of FEED (spec/43_receive_buffer.md
rule R142). -/

namespace Sys2Proof.Machine

/-- What an attempt yields: its outcome, the buffer content after it (rule R132), and the conditions
it raised, in order (rules R180, R187), which say what DIAG carries. -/
structure Attempt where
  outcome : RxOutcome
  buf : Memory
  raised : List Condition
deriving DecidableEq, Repr

/-- An attempt that raised `k` before the rest of it. -/
def Attempt.after (k : Condition) (a : Attempt) : Attempt := { a with raised := k :: a.raised }

/-- Step 3 of rule R132: the candidate of a delimited frame, `rest` being what followed its STOP. -/
def conclude (c : Cfg) (cand : Bytes) (rest : Memory) : Attempt :=
  ⟨(verdict c cand).1, rest, (verdict c cand).2⟩

/-- Step 2 of rule R132.  The buffer is `raw ++ rest`: `raw` runs from the frame's START to the scan
pointer (`sp = raw.length`) and `rest` is not looked at yet. -/
def accumulate (c : Cfg) (raw cand : Bytes) : Bytes → Attempt
  | [] => ⟨.noFrame .incomplete, raw, [.incomplete .incomplete]⟩
  | b :: rest =>
    match c.classOf b with
    | .escape =>
      match rest with
      | [] => ⟨.noFrame .danglingEscape, raw ++ [b], [.incomplete .danglingEscape]⟩
      | x :: rest' => accumulate c (raw ++ [b, x]) (cand ++ [x]) rest'
    | .stop => conclude c cand rest
    | .start => (accumulate c [b] [] rest).after (.superseded raw)
    | .other => accumulate c (raw ++ [b]) (cand ++ [b]) rest

/-- `attempt(B)` (rule R132); its step 1 drops garbage up to the first START. -/
def attempt (c : Cfg) : Memory → Attempt
  | [] => ⟨.noFrame .noStart, [], []⟩
  | b :: rest =>
    if b = c.startTag then accumulate c [b] [] rest else (attempt c rest).after (.garbage b)

/-- What the drain loop of FEED yields (rule R142). -/
structure Drained where
  outs : List DecodeOutcome
  buf : Memory
  raised : List Condition
deriving DecidableEq, Repr

/-- The drain loop of rule R142, for at most `fuel` attempts. -/
def drainFuel (c : Cfg) : Nat → Memory → Drained
  | 0, buf => ⟨[], buf, []⟩
  | fuel + 1, buf =>
    let a := attempt c buf
    match a.outcome.decoded? with
    | none => ⟨[], a.buf, a.raised⟩
    | some o =>
      let d := drainFuel c fuel a.buf
      ⟨o :: d.outs, d.buf, a.raised ++ d.raised⟩

/-- The drain loop; every pass that does not leave it shortens the buffer (rule R144), so one
attempt more than there are bytes is enough. -/
def drain (c : Cfg) (buf : Memory) : Drained := drainFuel c (buf.length + 1) buf

end Sys2Proof.Machine
end

