-- ==== Sys2Proof/Machine/Encoder.lean ====
section
/-! DEFINITION. The frame (spec/30_encoding.md rule R60) and the TX_STEP family: the byte steps of
one ENCODE (spec/41_encode.md rules R110 to R113). -/

namespace Sys2Proof.Machine

/-- The frame of a chunk: START, the stuffed payload, the unstuffed trailer, STOP (rules R60 to
R62, R110). -/
def frameOf (c : Cfg) (chunk : Bytes) : Bytes :=
  [c.startTag] ++ stuffAll c chunk ++ [computeTrailer c chunk] ++ [c.stopTag]

/-- The frames of a payload of any length, back to back (rule R150). -/
def framesOf (c : Cfg) (payload : Bytes) : Bytes := (chunksOf c payload).flatMap (frameOf c)

/-- `ENC.OPEN` (rule R110). -/
def execEncOpen (s : State) : Result :=
  microStep .encOpen s fun s => { s with txBuf := [s.cfg.startTag], txPhase := .body }

/-- `ENC.STUFF` (rule R111): the escape, then the byte itself. -/
def execEncStuff (b : Byte) (s : State) : Result :=
  microStep (.encStuff b) s fun s =>
    { s with txBuf := s.txBuf ++ [s.cfg.escapeTag, b], txPos := s.txPos + 1 }

/-- `ENC.PLAIN` (rule R112). -/
def execEncPlain (b : Byte) (s : State) : Result :=
  microStep (.encPlain b) s fun s => { s with txBuf := s.txBuf ++ [b], txPos := s.txPos + 1 }

/-- `ENC.TRAILER` (rule R113): never stuffed, in either mode (decision D8). -/
def execEncTrailer (s : State) : Result :=
  microStep .encTrailer s fun s =>
    { s with txBuf := s.txBuf ++ [computeTrailer s.cfg s.txChunk], txPhase := .closing }

/-- `ENC.CLOSE` (rule R110): the STOP, and the frame goes out on TX_OUT; no copy of it is kept (rule
R49). -/
def execEncClose (s : State) : Result :=
  microStep .encClose s fun s => (s.emitTx (s.txBuf ++ [s.cfg.stopTag])).endEncode

end Sys2Proof.Machine
end

