-- ==== Sys2Proof/Machine/Functions.lean ====
section
/-! DEFINITION. The FUNCTION family: the pure functions as operations that return a value to their
caller (spec/40_trailer_arithmetic.md rules R90, R91, R94 to R96; spec/44_chunking.md rule R151;
spec/42_decode.md rule R132).  Only CRC.BIT touches a register, the accumulator `acc`
of an evaluation in progress (spec/10_state.md rules R26, R35). -/

namespace Sys2Proof.Machine

/-- `CRC.BIT` (rule R90): `crcBit(a, bit)` is returned, a free value for an accumulator operand out of
the range of rule R90 (log entry 14).  As the bit step of the CRC evaluation in
progress it also does `acc <- crcBit(acc, bit)` and uses the bit up (rules R26, R91). -/
def execCrcBit (a : Acc) (bit : Bool) (s : State) : Result :=
  withGenerator s fun genPoly genLen q =>
    let r := crcBitValue genPoly genLen a bit
    if s.selects (.crcBit a bit) then
      { q.giveBack (.acc r) with acc := r, crcBits := s.crcBits.tail }
    else q.giveBack (.acc r)

/-- `CRC.REMAINDER` (rule R91): the whole evaluation, in an accumulator of its own (rule R20, log
entry 4). -/
def execCrcRemainder (bytes : Bytes) (s : State) : Result :=
  withGenerator s fun genPoly genLen q => q.giveBack (.byte (crcRemainder genPoly genLen bytes))

/-- `PARITY.OF` (rule R94). -/
def execParityOf (bytes : Bytes) (s : State) : Result :=
  atomically s fun s => s.giveBack (.bool (parityOf bytes))

/-- `TRAILER.COMPUTE` (rule R95). -/
def execTrailerCompute (p : Bytes) (s : State) : Result :=
  atomically s fun s => s.giveBack (.byte (computeTrailer s.cfg p))

/-- `TRAILER.ISVALID` (rule R96). -/
def execTrailerIsValid (p : Bytes) (t : Byte) (s : State) : Result :=
  atomically s fun s => s.giveBack (.bool (isValid s.cfg p t))

/-- `CHUNKS` (rule R151). -/
def execChunks (payload : Bytes) (s : State) : Result :=
  atomically s fun s => s.giveBack (.chunks (chunksOf s.cfg payload))

/-- `ATTEMPT` (rule R132): the pair of the outcome and the buffer content after; RXBUF itself is not
read or written. -/
def execAttempt (buf : Bytes) (s : State) : Result :=
  atomically s fun s =>
    s.giveBack (.attempt (attempt s.cfg buf).outcome (attempt s.cfg buf).buf)

end Sys2Proof.Machine
end

