-- ==== Sys2Proof/Machine/HostOps.lean ====
section
/-! DEFINITION. The HOST_OP family: the six host operations, each one atomic transition
(spec/00_scope.md rules R6, R7; spec/41_encode.md, 43_receive_buffer.md, 44_chunking.md).  Their
working registers are local to the operation, as rule R20 allows (log entry 4). -/

namespace Sys2Proof.Machine

/-- `ENCODE(chunk)` (rule R110): of any length (rule R114); no state is written. -/
def execEncode (chunk : Bytes) (s : State) : Result :=
  atomically s fun s => s.emitTx (frameOf s.cfg chunk)

/-- `ENCODE_CHUNKS(P)` (rule R150). -/
def execEncodeChunks (payload : Bytes) (s : State) : Result :=
  atomically s fun s => s.emitTx (framesOf s.cfg payload)

/-- `APPEND(s)` (rule R140): no byte is looked at. -/
def execAppend (fragment : Bytes) (s : State) : Result :=
  whenFits fragment s fun s => s.append fragment

/-- `EXTRACT()` (rule R141): one attempt; its outcome goes to RX_OUT and the content of a corrupt
frame to DIAG. -/
def execExtract (s : State) : Result :=
  atomically s fun s =>
    let a := attempt s.cfg s.rxbuf
    ({ s with rxbuf := a.buf }.emitDiag (diagEvents s.cfg a.raised)).emitRx (.outcome a.outcome)

/-- `FEED(s)` (rule R142): append, then drain every complete frame. -/
def execFeed (fragment : Bytes) (s : State) : Result :=
  whenFits fragment s fun s =>
    let d := drain s.cfg (s.rxbuf.append fragment)
    ({ s with rxbuf := d.buf }.emitDiag (diagEvents s.cfg d.raised)).emitRx (.outcomes d.outs)

/-- `RESET()` (rule R143): RXBUF becomes empty; the configuration stays. -/
def execReset (s : State) : Result :=
  atomically s fun s => { s with rxbuf := [] }

end Sys2Proof.Machine
end

