-- ==== Sys2Proof/Machine/Scan.lean ====
section
/-! DEFINITION. The RX_SCAN family: the micro-steps of one decode attempt (spec/42_decode.md rules
R121 to R131). -/

namespace Sys2Proof.Machine

/-- `SEEK.END` (rule R123): the attempt ends with `NO_FRAME(NO_START)`, no condition raised. -/
def execSeekEnd (s : State) : Result :=
  microStep .seekEnd s fun s => (s.emitRx (.outcome (.noFrame .noStart))).endAttempt

/-- `SEEK.START` (rule R121): RXBUF keeps the START at index 0. -/
def execSeekStart (s : State) : Result :=
  microStep .seekStart s fun s => { s with st := .accumulating, sp := 1, cand := [] }

/-- `SEEK.SKIP` (rule R122): the byte is garbage and is consumed at once. -/
def execSeekSkip (b : Byte) (s : State) : Result :=
  microStep (.seekSkip b) s fun s => (s.raise (.garbage b)).consume 1

/-- `ACC.END` (rule R129): the frame in progress stays in RXBUF. -/
def execAccEnd (s : State) : Result :=
  microStep .accEnd s fun s => (s.raise (.incomplete .incomplete)).endAttempt

/-- `ACC.ESC_PAIR` (rule R124): the byte after the escape is data, whatever it is. -/
def execAccEscPair (x : Byte) (s : State) : Result :=
  microStep (.accEscPair x) s fun s => { s with cand := s.cand ++ [x], sp := s.sp + 2 }

/-- `ACC.ESC_DANGLE` (rule R125): RXBUF is left as it is. -/
def execAccEscDangle (s : State) : Result :=
  microStep .accEscDangle s fun s => (s.raise (.incomplete .danglingEscape)).endAttempt

/-- `ACC.STOP` (rule R126): everything up to and including the STOP is consumed for good. -/
def execAccStop (s : State) : Result :=
  microStep .accStop s fun s => { s.consume (s.sp + 1) with st := .done }

/-- `ACC.START` (rule R127): discard and restart; the new START comes to index 0. -/
def execAccStart (s : State) : Result :=
  microStep .accStart s fun s =>
    { (s.raise (.superseded (s.rxbuf.take s.sp))).consume s.sp with sp := 1, cand := [] }

/-- `ACC.DATA` (rule R128). -/
def execAccData (b : Byte) (s : State) : Result :=
  microStep (.accData b) s fun s => { s with cand := s.cand ++ [b], sp := s.sp + 1 }

/-- What `DONE.VALIDATE` does with the split candidate (rule R130). -/
def validateCandidate (s : State) (p : Bytes) (t : Byte) : State :=
  if isValid s.cfg p t then (s.emitRx (.outcome (.payload p))).endAttempt
  else (s.raise (.corrupt p)).endAttempt

/-- `DONE.VALIDATE` (rule R130).  The row is selected only with a non-empty candidate, whose split
exists (rule R67). -/
def execDoneValidate (s : State) : Result :=
  microStep .doneValidate s fun s =>
    match splitCandidate s.cand with
    | some (p, t) => validateCandidate s p t
    | none => s

/-- `DONE.EMPTY` (rule R131, decision D11): a frame with nothing between its delimiters is corrupt. -/
def execDoneEmpty (s : State) : Result :=
  microStep .doneEmpty s fun s => (s.raise (.corrupt [])).endAttempt

end Sys2Proof.Machine
end

