-- ==== Sys2Proof/Machine/Dispatch.lean ====
section
/-! DEFINITION. The dispatcher: one arm per row of spec/opcode_table.json. -/

namespace Sys2Proof.Machine

def exec (i : Instr) (s : State) : Host.Outcome State Fault Refusal :=
  match i with
  -- RX_SCAN
  | .seekEnd => Sys2Proof.Machine.execSeekEnd s
  | .seekStart => Sys2Proof.Machine.execSeekStart s
  | .seekSkip b => Sys2Proof.Machine.execSeekSkip b s
  | .accEnd => Sys2Proof.Machine.execAccEnd s
  | .accEscPair x => Sys2Proof.Machine.execAccEscPair x s
  | .accEscDangle => Sys2Proof.Machine.execAccEscDangle s
  | .accStop => Sys2Proof.Machine.execAccStop s
  | .accStart => Sys2Proof.Machine.execAccStart s
  | .accData b => Sys2Proof.Machine.execAccData b s
  | .doneValidate => Sys2Proof.Machine.execDoneValidate s
  | .doneEmpty => Sys2Proof.Machine.execDoneEmpty s
  -- TX_STEP
  | .encOpen => Sys2Proof.Machine.execEncOpen s
  | .encStuff b => Sys2Proof.Machine.execEncStuff b s
  | .encPlain b => Sys2Proof.Machine.execEncPlain b s
  | .encTrailer => Sys2Proof.Machine.execEncTrailer s
  | .encClose => Sys2Proof.Machine.execEncClose s
  -- HOST_OP
  | .encode chunk => Sys2Proof.Machine.execEncode chunk s
  | .encodeChunks payload => Sys2Proof.Machine.execEncodeChunks payload s
  | .append fragment => Sys2Proof.Machine.execAppend fragment s
  | .extract => Sys2Proof.Machine.execExtract s
  | .feed fragment => Sys2Proof.Machine.execFeed fragment s
  | .reset => Sys2Proof.Machine.execReset s
  -- FUNCTION
  | .crcBit a bit => Sys2Proof.Machine.execCrcBit a bit s
  | .crcRemainder bytes => Sys2Proof.Machine.execCrcRemainder bytes s
  | .parityOf bytes => Sys2Proof.Machine.execParityOf bytes s
  | .trailerCompute p => Sys2Proof.Machine.execTrailerCompute p s
  | .trailerIsValid p t => Sys2Proof.Machine.execTrailerIsValid p t s
  | .chunks payload => Sys2Proof.Machine.execChunks payload s
  | .attempt buf => Sys2Proof.Machine.execAttempt buf s

end Sys2Proof.Machine
end

