-- ==== Sys2Proof/Machine/Requests.lean ====
section
/-! DEFINITION. Taking a request: which of the requests waiting is taken, and what taking it does
(spec/00_scope.md rule R8; spec/20_memory.md rules R46, R47; spec/10_state.md rule R27). -/

namespace Sys2Proof.Machine

/-- Run what the decoder read. -/
def runDecoded (d : Decoded) (s : State) : Result :=
  match d with
  | .ok i => exec i s
  | .rejected e => .refused (.undecodable e)

/-- What taking a request does. -/
def runRequest (r : Request) (s : State) : Result :=
  match r with
  | .line name args => runDecoded (decode s.cfg (.op name args)) s
  | .startAttempt => atomically s State.enterAttempt
  | .startEncode chunk => atomically s fun s => s.enterEncode chunk
  | .startCrc bytes => withGenerator s fun _ _ s => s.enterCrc (bitsOf (bytes ++ [0]))

/-- Taking a request from a list, oldest first.  The oldest is taken.  When it has no step, the oldest
ENCODE or ENCODE_CHUNKS behind it is taken and it stays, for the sender is never held (rule R47).
When it is an APPEND or FEED that does not fit, with requests of the owner behind it, the owner has
given it up and the next is taken; with none behind it the owner is held (rules R27, R208; log entry
26). -/
def takeRequest : List Request → State → Result
  | [], s => .next s
  | r :: rest, s =>
    match runRequest r { s with ops := rest } with
    | .next t => .next t
    | .refused e =>
      match takeSend rest with
      | some (send, others) => runRequest send { s with ops := r :: others }
      | none => .refused e
    | .fault f =>
      match takeSend rest with
      | some (send, others) => runRequest send { s with ops := r :: others }
      | none => if f = .bufferFull ∧ rest ≠ [] then takeRequest rest s else .fault f

end Sys2Proof.Machine
end

