-- ==== Sys2Proof/Machine/Step.lean ====
section
/-! DEFINITION. One step of the machine: what is in progress goes on to its end; otherwise the oldest
request is taken (spec/00_scope.md rules R7, R8; spec/20_memory.md rules R45 to R47). -/

namespace Sys2Proof.Machine

/-- One step.  An attempt, an ENCODE or a CRC evaluation in progress runs the row the operation map
selects, and no request is taken before it ends (rules R7, R45); with nothing in progress a request is
taken, the oldest first (rule R46; which one when that has no step is log entry 26), and with none
issued the framer waits (rules R8, R194).  A CRC evaluation needs its generator to the end (rule R21;
log entry 15). -/
def step (s : State) : Host.Outcome State Fault Refusal :=
  match s.act with
  | .scanning =>
    if s.scanInRange then runDecoded (decode s.cfg s.scanWord) s else .fault .scanOutOfRange
  | .encoding => runDecoded (decode s.cfg s.txWord) s
  | .dividing =>
    match s.divWord? with
    | some w => runDecoded (decode s.cfg w) s
    | none => withGenerator s fun _ _ s => s.endCrc
  | .idle => takeRequest s.ops s

/-- The state with the bytes of a table word in RXBUF and an attempt started on them (rule R120), so
that the very next step runs the micro-step they select (log entry 9). -/
def State.withFetchWord (s : State) (nbits w : Nat) : State :=
  { s with
    act := .scanning
    st := .seekingStart
    sp := 0
    cand := []
    rxbuf := bytesOfNat (nbits / 8) w }

end Sys2Proof.Machine
end

