-- ==== Sys2Proof/Machine/Streaming.lean ====
section
/-! DEFINITION. The streaming view of the receive side: a machine that looks at each byte once, as it
arrives (spec/45_properties_and_streaming_view.md rules R162, R163).  It is a derived view; `exec`
and `step` do not use it. -/

namespace Sys2Proof.Machine

/-- The mode `m` of the streaming machine (rule R162). -/
inductive StreamMode where
  | seek
  | acc
  | esc
deriving DecidableEq, Repr

/-- The streaming state: mode, candidate and retained raw bytes (rule R162). -/
structure Stream where
  m : StreamMode
  c : Bytes
  h : Bytes
deriving DecidableEq, Repr

/-- The initial streaming state (rule R162). -/
def Stream.initial : Stream := ⟨.seek, [], []⟩

/-- What an unescaped STOP makes the machine emit (rule R163). -/
def streamVerdict (cfg : Cfg) (cand : Bytes) : DecodeOutcome :=
  match splitCandidate cand with
  | none => .corruptFrame
  | some (p, t) => if isValid cfg p t then .payload p else .corruptFrame

/-- The stripped content an unescaped STOP reports on DIAG, if the frame is corrupt (rule R164). -/
def streamRecord (cfg : Cfg) (cand : Bytes) : Option Bytes :=
  match splitCandidate cand with
  | none => some []
  | some (p, t) => if isValid cfg p t then none else some p

/-- One streaming step on one arriving byte: the next state and the outcome emitted, if any (rule
R163). -/
def Stream.step (cfg : Cfg) (s : Stream) (b : Byte) : Stream × Option DecodeOutcome :=
  match s.m, cfg.classOf b with
  | .seek, .start => (⟨.acc, [], [b]⟩, none)
  | .seek, .stop | .seek, .escape | .seek, .other => (⟨.seek, [], []⟩, none)
  | .acc, .escape => (⟨.esc, s.c, s.h ++ [b]⟩, none)
  | .acc, .start => (⟨.acc, [], [b]⟩, none)
  | .acc, .stop => (⟨.seek, [], []⟩, some (streamVerdict cfg s.c))
  | .acc, .other => (⟨.acc, s.c ++ [b], s.h ++ [b]⟩, none)
  | .esc, _ => (⟨.acc, s.c ++ [b], s.h ++ [b]⟩, none)

/-- The DIAG event of that step, if any, when the channel exists (rules R31, R164). -/
def Stream.diagOf (cfg : Cfg) (s : Stream) (b : Byte) : Option Bytes :=
  match s.m, cfg.classOf b with
  | .acc, .stop => if cfg.diagEn then streamRecord cfg s.c else none
  | _, _ => none

/-- What the machine has done after some bytes. -/
structure StreamRun where
  stream : Stream
  outs : List DecodeOutcome
  diag : List Bytes
deriving DecidableEq, Repr

/-- The streaming machine over a byte sequence. -/
def Stream.run (cfg : Cfg) (s : Stream) : Bytes → StreamRun
  | [] => ⟨s, [], []⟩
  | b :: rest =>
    let r := Stream.run cfg (s.step cfg b).1 rest
    ⟨r.stream, (s.step cfg b).2.toList ++ r.outs, (s.diagOf cfg b).toList ++ r.diag⟩

end Sys2Proof.Machine
end

