-- ==== Sys2Proof/Safety.lean ====
section
/-! DEFINITION. The terms claims are made in: the invariant of the framer's state, what a history of
owner operations delivers, and the order of conditions (spec/10_state.md rules R24 to R27;
spec/42_decode.md rule R134; spec/43_receive_buffer.md rule R145; spec/60_exceptions.md rule R187). -/

namespace Sys2Proof

/-- The bytes an operation appends to RXBUF. -/
def Instr.appends : Instr → Bytes
  | .append s => s
  | .feed s => s
  | _ => []

/-- The rows of the operation map that are micro-steps: RX_SCAN and TX_STEP (rules R68, R69). -/
def Instr.isMicroStep : Instr → Bool
  | .seekEnd | .seekStart | .seekSkip _ | .accEnd | .accEscPair _ | .accEscDangle | .accStop
  | .accStart | .accData _ | .doneValidate | .doneEmpty
  | .encOpen | .encStuff _ | .encPlain _ | .encTrailer | .encClose => true
  | _ => false

/-- The RX_SCAN rows (rule R68). -/
def Instr.isScanRow : Instr → Bool
  | .seekEnd | .seekStart | .seekSkip _ | .accEnd | .accEscPair _ | .accEscDangle | .accStop
  | .accStart | .accData _ | .doneValidate | .doneEmpty => true
  | _ => false

/-- The TX_STEP rows (rule R69). -/
def Instr.isEncoderRow : Instr → Bool
  | .encOpen | .encStuff _ | .encPlain _ | .encTrailer | .encClose => true
  | _ => false

/-- The operations that write no state at all: the transmit operations and the pure functions (rules
R35, R75); CRC.BIT is one of them outside a CRC evaluation. -/
def Instr.writesNothing : Instr → Bool
  | .encode _ | .encodeChunks _ | .crcRemainder _ | .parityOf _ | .trailerCompute _
  | .trailerIsValid _ _ | .chunks _ | .attempt _ => true
  | _ => false

/-- The operations of the owner that carry reception on (rule R145). -/
def Instr.receives : Instr → Bool
  | .append _ | .extract | .feed _ => true
  | _ => false

/-- The configurations in which every single-bit error of payload or trailer is detected (rules R98,
R157): PARITY mode, and CRC mode with a 9-bit generator of at least two bits. -/
def Cfg.detectsSingleBit (c : Cfg) : Bool :=
  match c.scheme with
  | .crc genPoly genLen => decide (genLen = 9) && decide (genPoly ≠ 0x100)
  | .parity _ _ => true

end Sys2Proof

namespace Sys2Proof.Machine

/-- The scan registers inside an attempt.  While seeking, `sp` is 0 and nothing is gathered (rules
R24, R120); while accumulating, rule R134 (a) to (e) holds: RXBUF begins with the frame's START,
`1 ≤ sp ≤ len(RXBUF)`, and `RXBUF[1 .. sp)` un-stuffs completely to `cand`. -/
def State.scanInv (s : State) : Bool :=
  match s.st with
  | .seekingStart => decide (s.sp = 0) && decide (s.cand = [])
  | .accumulating =>
    decide (s.rxbuf.head? = some s.cfg.startTag) && decide (1 ≤ s.sp)
      && decide (s.sp ≤ s.rxbuf.length)
      && decide (unstuff s.cfg ((s.rxbuf.take s.sp).drop 1) = some s.cand)
      && decide (s.cand.length ≤ s.sp - 1)
  | .done => true

/-- The encoder's registers inside one ENCODE: `out` holds the frame of what has been walked (rule
R110). -/
def State.encInv (s : State) : Bool :=
  match s.txPhase with
  | .opening => decide (s.txPos = 0) && decide (s.txBuf = [])
  | .body =>
    decide (s.txPos ≤ s.txChunk.length)
      && decide (s.txBuf = s.cfg.startTag :: stuffAll s.cfg (s.txChunk.take s.txPos))
  | .closing =>
    decide (s.txBuf = s.cfg.startTag :: stuffAll s.cfg s.txChunk ++ [computeTrailer s.cfg s.txChunk])

/-- The accumulator inside a CRC evaluation is below `2^(GEN_LEN-1)` (rule R92), and there is a
generator. -/
def State.divInv (s : State) : Bool :=
  decide (s.cfg.scheme.mode = .crc) && s.cfg.accInRange s.acc

/-- The invariant of the whole state: the configuration is well-formed (rule R201), RXBUF is within
its capacity (rule R27), and the registers of what is in progress are as its rules leave them. -/
def State.inv (s : State) : Bool :=
  s.cfg.wf && Memory.wf s.cfg.bufCap s.rxbuf &&
    match s.act with
    | .idle => true
    | .scanning => s.scanInv
    | .encoding => s.encInv
    | .dividing => s.divInv

/-- What a transition delivered to the owner, `NO_FRAME` left out (rules R6, R142). -/
def Outputs.delivered (o : Outputs) : List DecodeOutcome :=
  match o.rxOut with
  | none => []
  | some (.outcome r) => r.decoded?.toList
  | some (.outcomes os) => os

/-- What a history of operations gave: the outcomes delivered and the DIAG events, in order, and the
state it left. -/
structure History where
  outs : List DecodeOutcome
  diag : List Bytes
  final : State
deriving DecidableEq, Repr

/-- The operations one after another, each seeing the state left by the one before (rule R46); none
when one of them has no step. -/
def history : List Instr → State → Option History
  | [], s => some ⟨[], [], s⟩
  | i :: rest, s =>
    match exec i s with
    | .next t => (history rest t).map fun h =>
        ⟨t.out.delivered ++ h.outs, t.out.diag ++ h.diag, h.final⟩
    | .fault _ => none
    | .refused _ => none

/-- How many bytes at the head a row consumes, for the rows that consume (rules R122, R126, R127). -/
def State.rowConsumes (s : State) : Instr → Nat
  | .seekSkip _ => 1
  | .accStop => s.sp + 1
  | .accStart => s.sp
  | _ => 0

/-- One bit step of rule R90 on unbounded naturals: the reference the claims compare with. -/
def crcStepNat (genPoly genLen a bit : Nat) : Nat :=
  if (2 * a + bit) / 2 ^ (genLen - 1) % 2 = 1 then (2 * a + bit) ^^^ genPoly else 2 * a + bit

/-- The division loop of rule R91 on unbounded naturals, each byte from bit 7 down to bit 0. -/
def divideNat (genPoly genLen : Nat) (s : Bytes) : Nat :=
  s.foldl (fun a b => [7, 6, 5, 4, 3, 2, 1, 0].foldl
    (fun a i => crcStepNat genPoly genLen a (b.toNat / 2 ^ i % 2)) a) 0

/-- The number of one bits of a byte, by its value (rule R13). -/
def onesOf (b : Byte) : Nat := ((List.range 8).map fun i => b.toNat / 2 ^ i % 2).sum

/-- One bit of a byte inverted. -/
def flipBit (b : Byte) (k : Nat) : Byte := b ^^^ BitVec.ofNat 8 (2 ^ k)

/-- The conditions of one attempt stand in the order of rule R187: garbage, then superseded frames,
then at most one of Incomplete and Corrupt. -/
def conditionsInOrder (raised : List Condition) : Bool :=
  let afterGarbage := raised.dropWhile fun k => match k with | .garbage _ => true | _ => false
  let afterSuperseded :=
    afterGarbage.dropWhile fun k => match k with | .superseded _ => true | _ => false
  match afterSuperseded with
  | [] => true
  | [.incomplete _] => true
  | [.corrupt _] => true
  | _ => false

end Sys2Proof.Machine
end

