-- ==== Sys2Proof/Certificates/Slice0/Obligations.lean ====
section
/-! DEFINITION. The statements for the provers, from the numbered rules of spec/.  Every statement that
needs it has `WF(cfg)` as a premise, as rule R11 asks.  "From reset" is `s.rxbuf = []`.  The required
properties R155 to R161 and R164 name no capacity: here the bytes they speak of fit `BUF_CAP`, which
all do when it is unbounded (log entry 27). -/

open Sys2Proof Sys2Proof.Machine

/-! ### The operation map -/

/-- Rule R68: the receive side of the operation map, row by row and complete. -/
def Obligations.ReceiveRowsFollowTheOperationMap : Prop :=
  ∀ (c : Cfg) (st : RxState) (candEmpty : Bool) (rest : Bytes) (i : Instr), c.wf = true →
    (decode c (.scan st candEmpty rest) = .ok i ↔
      (i = .seekEnd ∧ st = .seekingStart ∧ rest = [])
      ∨ (i = .seekStart ∧ st = .seekingStart ∧ rest.head? = some c.startTag)
      ∨ (∃ b, i = .seekSkip b ∧ st = .seekingStart ∧ rest.head? = some b ∧ b ≠ c.startTag)
      ∨ (i = .accEnd ∧ st = .accumulating ∧ rest = [])
      ∨ (∃ x r, i = .accEscPair x ∧ st = .accumulating ∧ rest = c.escapeTag :: x :: r)
      ∨ (i = .accEscDangle ∧ st = .accumulating ∧ rest = [c.escapeTag])
      ∨ (i = .accStop ∧ st = .accumulating ∧ rest.head? = some c.stopTag)
      ∨ (i = .accStart ∧ st = .accumulating ∧ rest.head? = some c.startTag)
      ∨ (∃ b, i = .accData b ∧ st = .accumulating ∧ rest.head? = some b
          ∧ b ≠ c.startTag ∧ b ≠ c.stopTag ∧ b ≠ c.escapeTag)
      ∨ (i = .doneValidate ∧ st = .done ∧ candEmpty = false)
      ∨ (i = .doneEmpty ∧ st = .done ∧ candEmpty = true))

/-- Rule R69: the transmit side of the operation map. -/
def Obligations.EncoderRowsFollowTheOperationMap : Prop :=
  ∀ (c : Cfg) (phase : TxPhase) (rest : Bytes) (i : Instr), c.wf = true →
    (decode c (.tx phase rest) = .ok i ↔
      (i = .encOpen ∧ phase = .opening)
      ∨ (∃ b, i = .encStuff b ∧ phase = .body ∧ rest.head? = some b
          ∧ (b = c.startTag ∨ b = c.stopTag ∨ b = c.escapeTag))
      ∨ (∃ b, i = .encPlain b ∧ phase = .body ∧ rest.head? = some b
          ∧ b ≠ c.startTag ∧ b ≠ c.stopTag ∧ b ≠ c.escapeTag)
      ∨ (i = .encTrailer ∧ phase = .body ∧ rest = [])
      ∨ (i = .encClose ∧ phase = .closing))

/-- Decoding the encoding of any well-formed instruction gives it back, with every operand.  That
host operations and functions are encoded by name is log entry 8. -/
def Obligations.DecodeOfEncodeIsIdentity : Prop :=
  ∀ (c : Cfg) (i : Instr), c.wf = true → i.wf c = true → decode c (encode c i) = .ok i

/-- What the decoder reads is well-formed; a name that is no operation is rejected by name, and no
micro-step can be issued by its name (rules R68, R75; log entry 8). -/
def Obligations.DecodedOperationsAreWellFormed : Prop :=
  ∀ (c : Cfg), c.wf = true →
    (∀ st candEmpty rest i, decode c (.scan st candEmpty rest) = .ok i → i.wf c = true) ∧
    (∀ phase rest i, decode c (.tx phase rest) = .ok i → i.wf c = true) ∧
    (∀ name args i, decode c (.op name args) = .ok i →
      i.wf c = true ∧ i.mnemonic = name ∧ i.isMicroStep = false) ∧
    (∀ name args, name ∉ opNames → decode c (.op name args) = .rejected (.unknownName name))

/-- A few words written out from the operation map under the test configurations. -/
def Obligations.SampleWordsDecodeAsTheTableSays : Prop :=
  decode Cfg.t0c (.scan .seekingStart true [0x7B, 0x41]) = .ok .seekStart ∧
  decode Cfg.t0c (.scan .seekingStart true [0x7D]) = .ok (.seekSkip 0x7D) ∧
  decode Cfg.t0c (.scan .seekingStart true [0x5C, 0x7B]) = .ok (.seekSkip 0x5C) ∧
  decode Cfg.t0c (.scan .accumulating false [0x5C, 0x7D]) = .ok (.accEscPair 0x7D) ∧
  decode Cfg.t0c (.scan .accumulating false [0x5C]) = .ok .accEscDangle ∧
  decode Cfg.t0c (.scan .accumulating true [0x7D, 0x7B]) = .ok .accStop ∧
  decode Cfg.t0c (.scan .accumulating true [0x7B]) = .ok .accStart ∧
  decode Cfg.t0p (.scan .accumulating true [0x31]) = .ok (.accData 0x31) ∧
  decode Cfg.t0c (.tx .body [0x7B, 0x43]) = .ok (.encStuff 0x7B) ∧
  decode Cfg.t0p (.tx .body [0x30]) = .ok (.encPlain 0x30) ∧
  decode Cfg.t0c (.op "ENCODE" [[0x43, 0x53]]) = .ok (.encode [0x43, 0x53])

/-! ### The step -/

/-- A step runs the decoded instruction: the row the operation map selects for what is in progress,
or, with nothing in progress, the operation of the oldest request, which is taken.  When that one has
no step and an ENCODE or ENCODE_CHUNKS waits behind it, the oldest such is taken in its place; when it
is an APPEND or FEED that does not fit, with requests of the owner only behind it, the step is the one
without it (rules R27, R47; log entry 26). -/
def Obligations.StepRunsTheDecodedInstruction : Prop :=
  ∀ (s : State) (i : Instr),
    (s.act = .scanning → s.scanInRange = true →
      decode s.cfg (.scan s.st s.cand.isEmpty (s.rxbuf.drop s.sp)) = .ok i → step s = exec i s) ∧
    (s.act = .encoding →
      decode s.cfg (.tx s.txPhase (s.txChunk.drop s.txPos)) = .ok i → step s = exec i s) ∧
    (∀ bit rest, s.act = .dividing → s.crcBits = bit :: rest →
      decode s.cfg (.div s.acc bit) = .ok i → step s = exec i s) ∧
    (∀ name args rest, s.act = .idle → s.ops = .line name args :: rest →
      decode s.cfg (.op name args) = .ok i →
      ((∃ t, exec i { s with ops := rest } = .next t)
        ∨ ((∀ r ∈ rest, r.isSend = false)
          ∧ (rest = [] ∨ exec i { s with ops := rest } ≠ .fault .bufferFull))) →
        step s = exec i { s with ops := rest }) ∧
    (∀ name args rest, s.act = .idle → s.ops = .line name args :: rest →
      decode s.cfg (.op name args) = .ok i → exec i { s with ops := rest } = .fault .bufferFull →
      (∀ r ∈ rest, r.isSend = false) → rest ≠ [] → step s = step { s with ops := rest }) ∧
    (∀ held before name args behind, s.act = .idle →
      s.ops = held :: before ++ .line name args :: behind →
      (∀ t, runRequest held { s with ops := before ++ .line name args :: behind } ≠ .next t) →
      (∀ r ∈ before, r.isSend = false) → decode s.cfg (.op name args) = .ok i →
      ((∃ chunk, i = .encode chunk) ∨ (∃ payload, i = .encodeChunks payload)) →
        step s = exec i { s with ops := held :: before ++ behind })

/-- With nothing in progress: an attempt is started as rule R120 says, an ENCODE and a CRC evaluation
at their beginnings, an ENCODE also from behind an operation that has no step (rule R47, log entry
26), and with no request the framer waits (log entries 5 and 16). -/
def Obligations.StartRequestsAndWaiting : Prop :=
  ∀ (s : State) (rest : List Request), s.cfg.wf = true → s.act = .idle →
    (s.ops = .startAttempt :: rest →
      step s = .next { s with
        act := .scanning, st := .seekingStart, sp := 0, cand := [], out := {}, ops := rest }) ∧
    (∀ chunk, s.ops = .startEncode chunk :: rest →
      step s = .next { s with
        act := .encoding, txChunk := chunk, txPos := 0, txPhase := .opening, txBuf := [],
        out := {}, ops := rest }) ∧
    (∀ held before chunk, s.ops = held :: before ++ .startEncode chunk :: rest →
      (∀ t, runRequest held { s with ops := before ++ .startEncode chunk :: rest } ≠ .next t) →
      (∀ r ∈ before, r.isSend = false) →
        step s = .next { s with
          act := .encoding, txChunk := chunk, txPos := 0, txPhase := .opening, txBuf := [],
          out := {}, ops := held :: before ++ rest }) ∧
    (∀ bytes genPoly genLen, s.ops = .startCrc bytes :: rest → s.cfg.scheme = .crc genPoly genLen →
      step s = .next { s with
        act := .dividing, acc := 0, crcBits := (bytes ++ [0]).flatMap bitsMsb,
        out := {}, ops := rest }) ∧
    (s.ops = [] → step s = .next s)

/-- Rule R45 on the model's queue of requests: inside an attempt, an ENCODE or a CRC evaluation no
request is taken, and what happens does not depend on what is waiting. -/
def Obligations.NoRequestIsTakenInsideAnOperation : Prop :=
  ∀ (s t : State) (waiting : List Request), s.act ≠ .idle → step s = .next t →
    t.ops = s.ops ∧ step { s with ops := waiting } = .next { t with ops := waiting }

/-- Rule R11 and decision D5: under an ill-formed configuration every operation is refused. -/
def Obligations.IllFormedConfigurationIsRefused : Prop :=
  ∀ (s : State) (i : Instr), s.cfg.wf = false → exec i s = .refused .illFormedConfig

/-- Where an operation has no step: a micro-step the operation map does not select, and the CRC
functions where there is no generator (rules R21, R68, R69; log entries 12 and 15). -/
def Obligations.WhereRowsAndCrcFunctionsStop : Prop :=
  ∀ (s : State), s.cfg.wf = true →
    (∀ i : Instr, i.isMicroStep = true → s.selects i = false → exec i s = .fault .rowNotSelected) ∧
    (∀ even odd, s.cfg.scheme = .parity even odd →
      (∀ a bit, exec (.crcBit a bit) s = .fault .noGenerator) ∧
      (∀ bytes, exec (.crcRemainder bytes) s = .fault .noGenerator))

/-! ### The receive micro-steps -/

/-- Rule R123.  That `st`, `sp` and `cand` hold the values of reset after an attempt is the model's
choice (log entry 25), here and in the other statements on rows that end an attempt. -/
def Obligations.SeekEndReportsNoStart : Prop :=
  ∀ s : State, s.cfg.wf = true → s.act = .scanning → s.st = .seekingStart → s.sp = 0 →
    s.rxbuf = [] →
      exec .seekEnd s = .next { s with
        act := .idle, st := .seekingStart, sp := 0, cand := [],
        out := { rxOut := some (.outcome (.noFrame .noStart)) } }

/-- Rules R121 and R122 with decisions D9 and D10: every START met while seeking begins a frame and
stays in RXBUF; every other byte is dropped at once and silently. -/
def Obligations.SeekingStartsAtStartAndDropsGarbage : Prop :=
  ∀ (s : State) (b : Byte), s.cfg.wf = true → s.act = .scanning → s.st = .seekingStart →
    s.sp = 0 → s.rxbuf.read? 0 = some b →
      (b = s.cfg.startTag →
        exec .seekStart s = .next { s with
          st := .accumulating, sp := 1, cand := [], out := {} }) ∧
      (b ≠ s.cfg.startTag →
        exec (.seekSkip b) s = .next { s with rxbuf := s.rxbuf.drop 1, out := {} })

/-- Rules R124, R125, R126, R128, R129: what each byte met while accumulating does.  What `sp` holds
in state `DONE`, where no rule reads it, is left open (log entry 13); the registers after the attempt
are log entry 25. -/
def Obligations.AccumulatingRowsGatherStopAndWait : Prop :=
  ∀ s : State, s.cfg.wf = true → s.act = .scanning → s.st = .accumulating →
    (∀ x, s.rxbuf.read? s.sp = some s.cfg.escapeTag → s.rxbuf.read? (s.sp + 1) = some x →
      exec (.accEscPair x) s = .next { s with cand := s.cand ++ [x], sp := s.sp + 2, out := {} }) ∧
    (s.rxbuf.read? s.sp = some s.cfg.escapeTag → s.sp + 1 = s.rxbuf.length →
      exec .accEscDangle s = .next { s with
        act := .idle, st := .seekingStart, sp := 0, cand := [],
        out := { rxOut := some (.outcome (.noFrame .danglingEscape)) } }) ∧
    (s.rxbuf.read? s.sp = some s.cfg.stopTag →
      ∃ n, exec .accStop s = .next { s with
        rxbuf := s.rxbuf.drop (s.sp + 1), st := .done, sp := n, out := {} }) ∧
    (∀ b, s.rxbuf.read? s.sp = some b →
      b ≠ s.cfg.startTag → b ≠ s.cfg.stopTag → b ≠ s.cfg.escapeTag →
      exec (.accData b) s = .next { s with cand := s.cand ++ [b], sp := s.sp + 1, out := {} }) ∧
    (s.sp = s.rxbuf.length →
      exec .accEnd s = .next { s with
        act := .idle, st := .seekingStart, sp := 0, cand := [],
        out := { rxOut := some (.outcome (.noFrame .incomplete)) } })

/-- Rule R127 with decision D10: discard and restart, with no report and no validation. -/
def Obligations.EmbeddedStartSupersedesSilently : Prop :=
  ∀ s : State, s.cfg.wf = true → s.act = .scanning → s.st = .accumulating →
    s.rxbuf.read? s.sp = some s.cfg.startTag →
      exec .accStart s = .next { s with
        rxbuf := s.rxbuf.drop s.sp, sp := 1, cand := [], out := {} }

/-- Rule R130 with the recompute-and-compare check of rule R96 (decision D7): a candidate whose last
byte is the trailer of the rest is delivered without it; any other is corrupt, and its content without
the last byte goes to DIAG when that channel exists (decision D17).  That `acc` stays is log entry 4,
the registers after the attempt log entry 25. -/
def Obligations.ValidationDeliversOrReportsCorrupt : Prop :=
  ∀ (s : State) (p : Bytes) (t : Byte), s.cfg.wf = true → s.act = .scanning → s.st = .done →
    s.cand = p ++ [t] →
      (t = computeTrailer s.cfg p →
        exec .doneValidate s = .next { s with
          act := .idle, st := .seekingStart, sp := 0, cand := [],
          out := { rxOut := some (.outcome (.payload p)) } }) ∧
      (t ≠ computeTrailer s.cfg p →
        exec .doneValidate s = .next { s with
          act := .idle, st := .seekingStart, sp := 0, cand := [],
          out := { rxOut := some (.outcome .corrupt), diag := if s.cfg.diagEn then [p] else [] } })

/-- Rule R131, decisions D11 and D17: an empty candidate is corrupt.  The registers after the attempt
are log entry 25. -/
def Obligations.EmptyCandidateIsCorrupt : Prop :=
  ∀ s : State, s.cfg.wf = true → s.act = .scanning → s.st = .done → s.cand = [] →
    exec .doneEmpty s = .next { s with
      act := .idle, st := .seekingStart, sp := 0, cand := [],
      out := { rxOut := some (.outcome .corrupt), diag := if s.cfg.diagEn then [[]] else [] } }

/-! ### The encoder steps -/

/-- Rules R111 and R112: a tag-valued payload byte goes out behind an escape, any other as itself;
only its own value decides. -/
def Obligations.PayloadBytesAreStuffedByTheirValue : Prop :=
  ∀ (s : State) (b : Byte), s.cfg.wf = true → s.act = .encoding → s.txPhase = .body →
    s.txChunk[s.txPos]? = some b →
      ((b = s.cfg.startTag ∨ b = s.cfg.stopTag ∨ b = s.cfg.escapeTag) →
        exec (.encStuff b) s = .next { s with
          txBuf := s.txBuf ++ [s.cfg.escapeTag, b], txPos := s.txPos + 1, out := {} }) ∧
      (b ≠ s.cfg.startTag → b ≠ s.cfg.stopTag → b ≠ s.cfg.escapeTag →
        exec (.encPlain b) s = .next { s with
          txBuf := s.txBuf ++ [b], txPos := s.txPos + 1, out := {} })

/-- Rules R110 and R113 with decision D8: the START before the payload, the trailer after it with no
escape whatever its value, then the STOP, with which the frame goes out and no copy is kept (rule
R49).  That `acc` stays is log entry 4, the encoder's registers after the ENCODE log entry 25. -/
def Obligations.FrameOpensAndClosesWithUnstuffedTrailer : Prop :=
  ∀ s : State, s.cfg.wf = true → s.act = .encoding →
    (s.txPhase = .opening →
      exec .encOpen s = .next { s with txBuf := [s.cfg.startTag], txPhase := .body, out := {} }) ∧
    (s.txPhase = .body → s.txChunk.length ≤ s.txPos →
      exec .encTrailer s = .next { s with
        txBuf := s.txBuf ++ [computeTrailer s.cfg s.txChunk], txPhase := .closing, out := {} }) ∧
    (s.txPhase = .closing →
      exec .encClose s = .next { s with
        act := .idle, txChunk := [], txPos := 0, txPhase := .opening, txBuf := [],
        out := { txOut := some (s.txBuf ++ [s.cfg.stopTag]) } })

/-! ### The host operations -/

/-- Rule R110 with R60 and R61: ENCODE answers for every chunk, of any length; the frame begins with
START, ends with STOP, has length n + k + 3, and no state is written. -/
def Obligations.EncodeEmitsExactlyOneFrame : Prop :=
  ∀ (s : State) (chunk : Bytes), s.cfg.wf = true →
    ∃ frame : Bytes,
      frame = [s.cfg.startTag]
        ++ chunk.flatMap (fun b =>
            if b = s.cfg.startTag ∨ b = s.cfg.stopTag ∨ b = s.cfg.escapeTag
            then [s.cfg.escapeTag, b] else [b])
        ++ [computeTrailer s.cfg chunk] ++ [s.cfg.stopTag]
      ∧ exec (.encode chunk) s = .next { s with out := { txOut := some frame } }
      ∧ frame.head? = some s.cfg.startTag ∧ frame.getLast? = some s.cfg.stopTag
      ∧ frame.length
          = chunk.length
            + chunk.countP (fun b =>
                decide (b = s.cfg.startTag ∨ b = s.cfg.stopTag ∨ b = s.cfg.escapeTag)) + 3

/-- Rules R150 and R64 with decision D16: the frames of the chunks back to back, nothing for the empty
payload, each frame at most `2·MAX_CHUNK + 3` bytes long. -/
def Obligations.EncodeChunksConcatenatesTheFramesOfTheChunks : Prop :=
  ∀ (s : State) (payload : Bytes), s.cfg.wf = true →
    ∃ frames : List Bytes,
      exec (.encodeChunks payload) s = .next { s with out := { txOut := some frames.flatten } }
      ∧ (∃ cs : List Bytes,
          exec (.chunks payload) s = .next { s with out := { ret := some (.chunks cs) } }
          ∧ List.Forall₂ (fun c f =>
              exec (.encode c) s = .next { s with out := { txOut := some f } }) cs frames)
      ∧ (payload = [] → frames = [])
      ∧ ∀ f ∈ frames, f.length ≤ 2 * s.cfg.maxChunk + 3

/-- Rule R140: the bytes are added at the tail, whatever they are; an APPEND that does not fit a
finite capacity has no step. -/
def Obligations.AppendAddsAtTheTail : Prop :=
  ∀ (s : State) (bytes : Bytes), s.cfg.wf = true →
    ((∀ cap, s.cfg.bufCap = some cap → s.rxbuf.length + bytes.length ≤ cap) →
      exec (.append bytes) s = .next { s with rxbuf := s.rxbuf ++ bytes, out := {} }) ∧
    (∀ cap, s.cfg.bufCap = some cap → cap < s.rxbuf.length + bytes.length →
      ∀ t, exec (.append bytes) s ≠ .next t)

/-- Rule R208 with decision D14: a full buffer that holds an incomplete frame, one that ends in a
dangling escape included, is stuck; APPEND and FEED of any byte are held, EXTRACT changes nothing, and
RESET leaves the state (log entry 10).  That the working registers stay over EXTRACT and RESET is log
entry 4. -/
def Obligations.FullBufferWithoutFrameIsStuck : Prop :=
  ∀ (s : State) (region cand escape bytes : Bytes), s.cfg.wf = true →
    s.cfg.bufCap = some s.rxbuf.length → s.rxbuf = s.cfg.startTag :: region ++ escape →
    unstuff s.cfg region = some cand → (escape = [] ∨ escape = [s.cfg.escapeTag]) → bytes ≠ [] →
      exec (.append bytes) s = .fault .bufferFull ∧
      exec (.feed bytes) s = .fault .bufferFull ∧
      exec .extract s = .next { s with
        out := { rxOut := some (.outcome (.noFrame
          (if escape = [] then .incomplete else .danglingEscape))) } } ∧
      exec .reset s = .next { s with rxbuf := [], out := {} }

/-- Rule R141: EXTRACT is `attempt` on RXBUF, whatever RXBUF holds; it gives one outcome and at most
one DIAG event, which only a corrupt frame has, when `DIAG_EN` (rule R31, decision D17).  That the
working registers stay over ATTEMPT and EXTRACT is log entry 4. -/
def Obligations.ExtractIsOneAttemptOnTheBuffer : Prop :=
  ∀ (s : State) (buf : Memory), s.cfg.wf = true →
    ∃ (o : RxOutcome) (after : Memory) (events : List Bytes),
      exec (.attempt buf) s = .next { s with out := { ret := some (.attempt o after) } } ∧
      exec .extract { s with rxbuf := buf } = .next { s with
        rxbuf := after, out := { rxOut := some (.outcome o), diag := events } } ∧
      events.length ≤ 1 ∧ (events ≠ [] ↔ o = .corrupt ∧ s.cfg.diagEn = true)

/-- Rule R142: FEED is APPEND, then as many EXTRACTs as there are outcomes in its result, then one
EXTRACT that gives `NO_FRAME`, which is not part of the result.  It has no step exactly when its
APPEND has none.  That the working registers stay over FEED is log entry 4. -/
def Obligations.FeedIsAppendThenExtractUntilNoFrame : Prop :=
  ∀ (s : State) (bytes : Bytes), s.cfg.wf = true →
    ((∀ cap, s.cfg.bufCap = some cap → s.rxbuf.length + bytes.length ≤ cap) →
      ∃ (outs : List DecodeOutcome) (h : History) (t : State) (r : Reason),
        history (.append bytes :: List.replicate outs.length .extract) s = some h ∧
        h.outs = outs ∧
        exec .extract h.final = .next t ∧ t.out.rxOut = some (.outcome (.noFrame r)) ∧
        exec (.feed bytes) s = .next { s with
          rxbuf := t.rxbuf, out := { rxOut := some (.outcomes outs), diag := h.diag } }) ∧
    (∀ cap, s.cfg.bufCap = some cap → cap < s.rxbuf.length + bytes.length →
      ∀ t, exec (.feed bytes) s ≠ .next t)

/-- Rule R143, decision D15: RESET empties RXBUF and reports nothing of what it discards.  That the
working registers and the requests stay is log entry 4. -/
def Obligations.ResetOperationEmptiesTheBuffer : Prop :=
  ∀ s : State, s.cfg.wf = true → exec .reset s = .next { s with rxbuf := [], out := {} }

/-- Rules R32 and R200, decision D15: after reset RXBUF is empty, no outcome and no DIAG event is
pending, the configuration is the instance's, and the invariant holds. -/
def Obligations.NewConnectionStartsEmptyAndSound : Prop :=
  ∀ c : Cfg, c.wf = true →
    (State.resetOf c).rxbuf = [] ∧ (State.resetOf c).out = {} ∧ (State.resetOf c).cfg = c ∧
    (State.resetOf c).inv = true ∧
    ∀ s : State, s.cfg = c → ∀ t, exec .reset s = .next t →
      t.rxbuf = (State.resetOf c).rxbuf ∧ t.out = (State.resetOf c).out ∧ t.cfg = c

/-! ### The functions -/

/-- Rule R90: one bit step, on unbounded naturals; it is returned, and as the next bit step of the
CRC evaluation in progress it is also the new accumulator (rule R26).  For an operand out of the range
of rule R90 the operation completes in the same way with a value that is left open (log entry 14). -/
def Obligations.CrcBitIsOneStepOfLongDivision : Prop :=
  ∀ (s : State) (genPoly genLen : Nat) (a : Acc) (bit : Bool), s.cfg.wf = true →
    s.cfg.scheme = .crc genPoly genLen →
    ∃ r : Acc,
      (a.toNat < 2 ^ (genLen - 1) →
        r.toNat = crcStepNat genPoly genLen a.toNat bit.toNat) ∧
      (s.act = .dividing → s.acc = a → s.crcBits.head? = some bit →
        exec (.crcBit a bit) s = .next { s with
          acc := r, crcBits := s.crcBits.tail, out := { ret := some (.acc r) } }) ∧
      (¬(s.act = .dividing ∧ s.acc = a ∧ s.crcBits.head? = some bit) →
        exec (.crcBit a bit) s = .next { s with out := { ret := some (.acc r) } })

/-- Rule R91 with decision D6: the remainder is the loop of rule R91 on unbounded naturals from zero,
over the bytes and one zero byte; rule R92: nothing is lost in 16 or in 8 bits.
That `acc` stays over the atomic operation is log entry 4. -/
def Obligations.CrcRemainderIsLongDivisionFromZero : Prop :=
  ∀ (s : State) (genPoly genLen : Nat) (bytes : Bytes), s.cfg.wf = true →
    s.cfg.scheme = .crc genPoly genLen →
    ∃ b : Byte,
      b.toNat = divideNat genPoly genLen (bytes ++ [0]) ∧ b.toNat < 2 ^ (genLen - 1) ∧
      exec (.crcRemainder bytes) s = .next { s with out := { ret := some (.byte b) } }

/-- Rules R91 and R213: the evaluation shown bit by bit takes `8·(len(s)+1)` bit steps (one step
before them starts it, one after them returns) and returns what CRC.REMAINDER returns.  What `acc`
holds afterwards is the model's choice (log entry 25). -/
def Obligations.CrcEvaluationTakesEightStepsPerByte : Prop :=
  ∀ (s : State) (genPoly genLen : Nat) (bytes : Bytes) (rest : List Request), s.cfg.wf = true →
    s.cfg.scheme = .crc genPoly genLen → s.act = .idle → s.ops = .startCrc bytes :: rest →
    ∃ t u : State,
      exec (.crcRemainder bytes) s = .next t ∧
      Sys2Proof.core.run (1 + 8 * (bytes.length + 1) + 1) s = .next u ∧
      u = { s with acc := 0, crcBits := [], out := t.out, ops := rest }

/-- Rule R94: true exactly when the total number of one bits is odd. -/
def Obligations.ParityOfTellsAnOddNumberOfOnes : Prop :=
  ∀ (s : State) (bytes : Bytes), s.cfg.wf = true →
    exec (.parityOf bytes) s = .next { s with
      out := { ret := some (.bool (decide ((bytes.map onesOf).sum % 2 = 1))) } }

/-- Rule R95: in CRC mode the remainder of rule R91 (decision D6), in PARITY mode the sentinel that
names the parity; there it is never a tag.  That `acc` stays is log entry 4. -/
def Obligations.TrailerIsRemainderOrParitySentinel : Prop :=
  ∀ (s : State) (p : Bytes), s.cfg.wf = true →
    (∀ genPoly genLen, s.cfg.scheme = .crc genPoly genLen →
      ∃ b : Byte, b.toNat = divideNat genPoly genLen (p ++ [0]) ∧
        exec (.trailerCompute p) s = .next { s with out := { ret := some (.byte b) } }) ∧
    (∀ even odd, s.cfg.scheme = .parity even odd →
      ∃ b : Byte, b = (if (p.map onesOf).sum % 2 = 1 then odd else even) ∧
        b ≠ s.cfg.startTag ∧ b ≠ s.cfg.stopTag ∧ b ≠ s.cfg.escapeTag ∧
        exec (.trailerCompute p) s = .next { s with out := { ret := some (.byte b) } })

/-- Rule R96 with decision D7: recompute and compare; in PARITY mode the two sentinel
forms.  That `acc` stays is log entry 4. -/
def Obligations.ValidityIsRecomputeAndCompare : Prop :=
  ∀ (s : State) (p : Bytes) (t : Byte), s.cfg.wf = true →
    ∃ valid : Bool,
      exec (.trailerIsValid p t) s = .next { s with out := { ret := some (.bool valid) } } ∧
      (∃ b : Byte, exec (.trailerCompute p) s = .next { s with out := { ret := some (.byte b) } } ∧
        (valid = true ↔ t = b)) ∧
      (∀ even odd, s.cfg.scheme = .parity even odd →
        (valid = true ↔
          (t = odd ∧ (p.map onesOf).sum % 2 = 1) ∨ (t = even ∧ (p.map onesOf).sum % 2 = 0)))

/-- Rule R151 with decision D16: `ceil(N / MAX_CHUNK)` pieces that put together are the payload; all
but the last are full and the last is not empty. -/
def Obligations.ChunksAreFullPiecesInOrder : Prop :=
  ∀ (s : State) (payload : Bytes), s.cfg.wf = true →
    ∃ cs : List Bytes,
      exec (.chunks payload) s = .next { s with out := { ret := some (.chunks cs) } } ∧
      cs.flatten = payload ∧
      cs.length = (payload.length + s.cfg.maxChunk - 1) / s.cfg.maxChunk ∧
      (∀ c ∈ cs.dropLast, c.length = s.cfg.maxChunk) ∧
      (∀ c ∈ cs, 1 ≤ c.length ∧ c.length ≤ s.cfg.maxChunk)

/-! ### Big steps and micro-steps -/

/-- Rules R132 and R133: an attempt shown micro-step by micro-step ends, after at most
`len(RXBUF) + 2` micro-steps (one step before them starts it), with the outcome, the DIAG events and
the buffer content of EXTRACT, and no trace of the scan (rule R28).  That the scan registers then hold
the values of reset is log entry 25, that `acc` stays log entry 4. -/
def Obligations.AttemptIsItsMicroSteps : Prop :=
  ∀ (s : State) (rest : List Request), s.cfg.wf = true → s.act = .idle →
    s.ops = .startAttempt :: rest →
    ∃ (n : Nat) (t u : State),
      n ≤ s.rxbuf.length + 2 ∧
      exec .extract s = .next t ∧
      Sys2Proof.core.run (1 + n) s = .next u ∧
      u = { s with
        rxbuf := t.rxbuf, st := .seekingStart, sp := 0, cand := [], out := t.out, ops := rest }

/-- Rules R110 and R213: an ENCODE shown byte step by byte step takes one step per payload byte and
three more (one step before them starts it), emits the frame ENCODE emits, and keeps no copy of it or
of the chunk (rule R49).  That the encoder's registers then hold the values of reset is log entry 25,
that `acc` stays log entry 4. -/
def Obligations.EncodeIsItsByteSteps : Prop :=
  ∀ (s : State) (chunk : Bytes) (rest : List Request), s.cfg.wf = true → s.act = .idle →
    s.ops = .startEncode chunk :: rest →
    ∃ t u : State,
      exec (.encode chunk) s = .next t ∧
      Sys2Proof.core.run (1 + (chunk.length + 3)) s = .next u ∧
      u = { s with
        txChunk := [], txPos := 0, txPhase := .opening, txBuf := [], out := t.out, ops := rest }

/-- Rule R164: the streaming machine of rule R163 gives the outcomes and the DIAG events of FEED from
reset, retains what RXBUF retains, and its mode says what a further EXTRACT would answer.
The bytes fit `BUF_CAP` (log entry 27). -/
def Obligations.StreamingMachineEqualsFeed : Prop :=
  ∀ (s : State) (bytes : Bytes), s.cfg.wf = true → Memory.fits s.cfg.bufCap s.rxbuf bytes = true →
    s.rxbuf = [] →
    ∃ t u : State, ∃ o : RxOutcome,
      let r := Stream.run s.cfg Stream.initial bytes
      exec (.feed bytes) s = .next t ∧
      t.out = { rxOut := some (.outcomes r.outs), diag := r.diag } ∧ t.rxbuf = r.stream.h ∧
      exec .extract t = .next u ∧ u.out.rxOut = some (.outcome o) ∧
      (r.stream.m = .seek ↔ t.rxbuf = []) ∧
      (r.stream.m = .esc ↔ o = .noFrame .danglingEscape) ∧
      (r.stream.m = .acc ↔ o = .noFrame .incomplete)

/-! ### Invariants, frames and independence -/

/-- Every step keeps the invariant: the configuration stays well-formed, RXBUF within its capacity
(rule R27), the registers of an attempt as rule R134 says, those of an ENCODE as rule R110 builds
them, and the accumulator within the bound of rule R92. -/
def Obligations.StepKeepsTheStateInvariant : Prop :=
  ∀ s t : State, s.inv = true → step s = .next t → t.inv = true

/-- Under the invariant an attempt in progress never lacks a row: `step` raises neither of the two
micro-step faults (rules R24, R68). -/
def Obligations.InvariantRulesOutMicroStepFaults : Prop :=
  ∀ s : State, s.inv = true →
    step s ≠ .fault .scanOutOfRange ∧ step s ≠ .fault .rowNotSelected ∧
    (s.act ≠ .idle → ∃ t, step s = .next t)

/-- Rules R34, R133 and R141: what RXBUF is after each outcome, and that after a `NO_FRAME` another
EXTRACT changes nothing and gives the same (that its working registers stay is log entry 4). -/
def Obligations.BufferAfterExtractFitsTheOutcome : Prop :=
  ∀ (s t : State) (o : RxOutcome), s.cfg.wf = true → exec .extract s = .next t →
    t.out.rxOut = some (.outcome o) →
      (o = .noFrame .noStart → t.rxbuf = []) ∧
      (o = .noFrame .incomplete → ∃ region cand,
        t.rxbuf = s.cfg.startTag :: region ∧ unstuff s.cfg region = some cand) ∧
      (o = .noFrame .danglingEscape → ∃ region cand,
        t.rxbuf = s.cfg.startTag :: region ++ [s.cfg.escapeTag] ∧
        unstuff s.cfg region = some cand) ∧
      ((∃ r, o = .noFrame r) → exec .extract t = .next t) ∧
      ((∀ r, o ≠ .noFrame r) → t.rxbuf.length + 2 ≤ s.rxbuf.length)

/-- Rules R22 and R50: RXBUF changes only by bytes added at its tail and removed from its head, by
RESET alone otherwise; only SEEK.SKIP, ACC.STOP, ACC.START, EXTRACT and FEED remove. -/
def Obligations.BufferChangesOnlyAtItsEnds : Prop :=
  ∀ (s t : State) (i : Instr), i ≠ .reset → exec i s = .next t →
    ∃ n : Nat, n ≤ s.rxbuf.length + i.appends.length ∧
      (∀ a, t.rxbuf.read? a = (s.rxbuf ++ i.appends)[n + a]?) ∧
      (i.isMicroStep = true → n = s.rowConsumes i) ∧
      (i.writesNothing = true → n = 0) ∧ ((∃ bytes, i = .append bytes) → n = 0)

/-- Rule R35: the transmit operations and the functions write no state and use no receive channel;
every byte of RXBUF reads as before.  The receive operations and RESET write RXBUF only.  That the
working registers stay is log entry 4. -/
def Obligations.OperationsWriteOnlyTheBufferAndChannels : Prop :=
  ∀ (s t : State) (i : Instr), exec i s = .next t →
    (i.writesNothing = true →
      t = { s with out := t.out } ∧ (∀ a, t.rxbuf.read? a = s.rxbuf.read? a) ∧
      t.out.rxOut = none ∧ t.out.diag = []) ∧
    (i.receives = true ∨ i = .reset →
      t = { s with rxbuf := t.rxbuf, out := t.out } ∧ t.out.txOut = none ∧ t.out.ret = none)

/-- What the micro-steps leave alone: an RX_SCAN row touches only RXBUF and the scan registers, and
reads every byte it does not consume as before; a TX_STEP row touches only the encoder's registers, the
chunk only at the end (rule R49).  That `acc` stays is log entry 4. -/
def Obligations.MicroStepsWriteOnlyTheirRegisters : Prop :=
  ∀ (s t : State) (i : Instr), exec i s = .next t →
    (i.isScanRow = true →
      t = { s with
        rxbuf := t.rxbuf, act := t.act, st := t.st, sp := t.sp, cand := t.cand, out := t.out } ∧
      (∀ a, t.rxbuf.read? a = s.rxbuf.read? (s.rowConsumes i + a)) ∧
      t.out.txOut = none ∧ t.out.ret = none) ∧
    (i.isEncoderRow = true →
      t = { s with
        act := t.act, txChunk := t.txChunk, txPos := t.txPos, txPhase := t.txPhase,
        txBuf := t.txBuf, out := t.out } ∧
      (i ≠ .encClose → t.txChunk = s.txChunk) ∧
      (∀ a, t.rxbuf.read? a = s.rxbuf.read? a) ∧
      t.out.rxOut = none ∧ t.out.diag = [] ∧ t.out.ret = none)

/-- Rules R9 and R21, decision D4: no step changes the configuration. -/
def Obligations.ConfigurationNeverChanges : Prop :=
  ∀ s t : State, step s = .next t → t.cfg = s.cfg

/-- Rule R31, decision D17: with DIAG switched on or off every operation gives the same state and the
same outcome; only the DIAG events differ, and there are none when it is off. -/
def Obligations.DiagnosticsInfluenceNothingElse : Prop :=
  ∀ (s t : State) (i : Instr) (e : Bool), exec i s = .next t →
    ∃ events : List Bytes,
      exec i { s with cfg := { s.cfg with diagEn := e } } = .next { t with
        cfg := { t.cfg with diagEn := e }, out := { t.out with diag := events } } ∧
      (e = false → events = [])

/-- Rule R152: apart from ENCODE_CHUNKS and the chunk function nothing depends on `MAX_CHUNK`; in
particular the receive side does not. -/
def Obligations.OnlyChunkingKnowsMaxChunk : Prop :=
  ∀ (s t : State) (i : Instr) (m : Nat), 1 ≤ m → exec i s = .next t →
    (∀ payload, i ≠ .encodeChunks payload) → (∀ payload, i ≠ .chunks payload) →
      exec i { s with cfg := { s.cfg with maxChunk := m } }
        = .next { t with cfg := { t.cfg with maxChunk := m } }

/-- Rule R188: when a frame is resolved, RXBUF holds exactly what followed its STOP, and nothing of it
was looked at: with anything else there the report is the same. -/
def Obligations.ResolvedFrameReportIsPrecise : Prop :=
  ∀ (s t : State) (o : RxOutcome), s.cfg.wf = true → exec .extract s = .next t →
    t.out.rxOut = some (.outcome o) → (∀ r, o ≠ .noFrame r) →
    ∃ dealtWith : Bytes,
      s.rxbuf = dealtWith ++ t.rxbuf ∧ dealtWith.getLast? = some s.cfg.stopTag ∧
      ∀ other : Bytes,
        exec .extract { s with rxbuf := dealtWith ++ other } = .next { t with rxbuf := other }

/-- Rule R187: in one attempt garbage comes first, then superseded frames, then at most one of
Incomplete and Corrupt, and the outcome tells the last of these. -/
def Obligations.ConditionsOfAnAttemptComeInOrder : Prop :=
  ∀ (c : Cfg) (buf : Memory), c.wf = true →
    conditionsInOrder (attempt c buf).raised = true ∧
    (∀ r, (attempt c buf).raised.getLast? = some (.incomplete r) ↔
      (attempt c buf).outcome = .noFrame r ∧ r ≠ .noStart) ∧
    ((∃ p, (attempt c buf).raised.getLast? = some (.corrupt p)) ↔
      (attempt c buf).outcome = .corrupt)

/-- Rules R61, R65, R66 and R115: the stuffed payload un-stuffs to the payload, and the payload and
trailer region of a frame parses exactly when the unstuffed trailer is no tag. -/
def Obligations.StuffedRegionParsesBackToThePayload : Prop :=
  ∀ (c : Cfg) (p : Bytes) (t : Byte), c.wf = true →
    unstuff c (stuffAll c p) = some p ∧
    (c.isTag t = false → unstuff c (stuffAll c p ++ [t]) = some (p ++ [t])) ∧
    (c.isTag t = true → unstuff c (stuffAll c p ++ [t]) = none)

/-! ### Required properties -/

/-- Rule R155: round trip.  Chunks whose trailer is no tag come back in order with no corrupt report
and nothing left over; in PARITY mode every chunk is one of them.  The same of one frame of any
length.  That the working registers stay over FEED is log entry 4.
The bytes fit `BUF_CAP` (log entry 27). -/
def Obligations.RoundTripDeliversTheChunks : Prop :=
  ∀ (s : State) (payload : Bytes) (cs : List Bytes) (wire : Bytes), s.cfg.wf = true →
    Memory.fits s.cfg.bufCap s.rxbuf wire = true → s.rxbuf = [] →
    ((∃ t, exec (.encodeChunks payload) s = .next t ∧ t.out.txOut = some wire) →
      (∃ t, exec (.chunks payload) s = .next t ∧ t.out.ret = some (.chunks cs)) →
      (∀ c ∈ cs, s.cfg.isTag (computeTrailer s.cfg c) = false) →
        exec (.feed wire) s = .next { s with
          out := { rxOut := some (.outcomes (cs.map .payload)) } }) ∧
    ((∃ t, exec (.encode payload) s = .next t ∧ t.out.txOut = some wire) →
      s.cfg.isTag (computeTrailer s.cfg payload) = false →
        exec (.feed wire) s = .next { s with
          out := { rxOut := some (.outcomes [.payload payload]) } }) ∧
    (s.cfg.scheme.mode = .parity → s.cfg.isTag (computeTrailer s.cfg payload) = false)

/-- Rule R156: fragmentation independence, for every byte sequence and every way of cutting it.
The bytes fit `BUF_CAP` (log entry 27). -/
def Obligations.FragmentationDoesNotMatter : Prop :=
  ∀ (s : State) (fragments : List Bytes), s.cfg.wf = true →
    Memory.fits s.cfg.bufCap s.rxbuf fragments.flatten = true → s.rxbuf = [] →
    ∃ (h : History) (t : State),
      history (fragments.map .feed) s = some h ∧
      exec (.feed fragments.flatten) s = .next t ∧
      h.outs = t.out.delivered ∧ h.diag = t.out.diag ∧ h.final.rxbuf = t.rxbuf

/-- Rule R145: a history of APPEND, EXTRACT and FEED that ends drained (with a FEED, or with an EXTRACT
that answers `NO_FRAME`) depends only on the bytes appended.
The bytes fit `BUF_CAP` (log entry 27). -/
def Obligations.HistoryDependsOnlyOnAppendedBytes : Prop :=
  ∀ (s : State) (before : List Instr) (last : Instr) (h : History) (u : State), s.cfg.wf = true →
    Memory.fits s.cfg.bufCap s.rxbuf ((before ++ [last]).flatMap Instr.appends) = true →
    s.rxbuf = [] → (∀ i ∈ before, i.receives = true) →
    history before s = some h → exec last h.final = .next u →
    ((∃ bytes, last = .feed bytes)
      ∨ (last = .extract ∧ ∃ r, u.out.rxOut = some (.outcome (.noFrame r)))) →
    ∃ t : State,
      exec (.feed ((before ++ [last]).flatMap Instr.appends)) s = .next t ∧
      h.outs ++ u.out.delivered = t.out.delivered ∧ h.diag ++ u.out.diag = t.out.diag ∧
      u.rxbuf = t.rxbuf

/-- Rule R157: one inverted bit in the payload or the trailer of a well-formed frame is reported as
corrupt, when the altered byte stands behind an escape or is not turned into a tag.
The bytes fit `BUF_CAP` (log entry 27). -/
def Obligations.SingleBitFlipIsReportedCorrupt : Prop :=
  ∀ (s : State) (pre post wire : Bytes) (b : Byte) (k : Nat), s.cfg.wf = true →
    Memory.fits s.cfg.bufCap s.rxbuf wire = true → s.rxbuf = [] → s.cfg.detectsSingleBit = true →
    k < 8 →
    (s.cfg.isTag (computeTrailer s.cfg (pre ++ b :: post)) = false →
      (s.cfg.isTag b = true ∨ s.cfg.isTag (flipBit b k) = false) →
      wire = [s.cfg.startTag] ++ stuffAll s.cfg pre
        ++ (if s.cfg.isTag b then [s.cfg.escapeTag, flipBit b k] else [flipBit b k])
        ++ stuffAll s.cfg post ++ [computeTrailer s.cfg (pre ++ b :: post)] ++ [s.cfg.stopTag] →
      ∃ t, exec (.feed wire) s = .next t ∧ t.out.delivered = [.corruptFrame] ∧ t.rxbuf = []) ∧
    (s.cfg.isTag (computeTrailer s.cfg pre) = false →
      s.cfg.isTag (flipBit (computeTrailer s.cfg pre) k) = false →
      wire = [s.cfg.startTag] ++ stuffAll s.cfg pre
        ++ [flipBit (computeTrailer s.cfg pre) k] ++ [s.cfg.stopTag] →
      ∃ t, exec (.feed wire) s = .next t ∧ t.out.delivered = [.corruptFrame] ∧ t.rxbuf = [])

/-- Rule R158: whatever came before, unless it left a dangling escape, a well-formed frame is
delivered, and what was pending is superseded without a report.
The bytes fit `BUF_CAP` (log entry 27). -/
def Obligations.WellFormedFrameIsDeliveredAfterAnything : Prop :=
  ∀ (s t u : State) (garbage chunk wire : Bytes) (o : RxOutcome), s.cfg.wf = true →
    Memory.fits s.cfg.bufCap s.rxbuf (garbage ++ wire) = true → s.rxbuf = [] →
    exec (.feed garbage) s = .next t →
    exec .extract t = .next u → u.out.rxOut = some (.outcome o) → o ≠ .noFrame .danglingEscape →
    s.cfg.isTag (computeTrailer s.cfg chunk) = false →
    (∃ v, exec (.encode chunk) s = .next v ∧ v.out.txOut = some wire) →
    ∃ v, exec (.feed (garbage ++ wire)) s = .next v ∧
      v.out.delivered = t.out.delivered ++ [.payload chunk] ∧ v.rxbuf = []

/-- Rule R159: a dangling escape waits, and the next byte appended is its operand whatever it is.
That the working registers stay over EXTRACT is log entry 4.
The bytes fit `BUF_CAP` (log entry 27). -/
def Obligations.DanglingEscapeTakesTheNextByte : Prop :=
  ∀ (s : State) (d x : Byte), s.cfg.wf = true →
    s.rxbuf = [s.cfg.startTag, d, s.cfg.escapeTag] → s.cfg.isTag d = false →
      exec .extract s = .next { s with
        out := { rxOut := some (.outcome (.noFrame .danglingEscape)) } } ∧
      (Memory.fits s.cfg.bufCap s.rxbuf [x] = true →
      ∃ h, history [.append [x], .extract] s = some h ∧
        h.outs = [] ∧ h.final = { s with
          rxbuf := [s.cfg.startTag, d, s.cfg.escapeTag, x],
          out := { rxOut := some (.outcome (.noFrame .incomplete)) } } ∧
        unstuff s.cfg [d, s.cfg.escapeTag, x] = some [d, x])

/-- Rule R160: the source's scenario, for every tag and sentinel values it allows.  That the working
registers stay over FEED is log entry 4.
The bytes fit `BUF_CAP` (log entry 27). -/
def Obligations.ParityFrameOfTheTwoLetterPayload : Prop :=
  ∀ (s : State) (even odd : Byte), s.cfg.wf = true → s.rxbuf = [] →
    s.cfg.scheme = .parity even odd → s.cfg.isTag 0x43 = false → s.cfg.isTag 0x53 = false →
      exec (.encode [0x43, 0x53]) s = .next { s with
        out := { txOut := some [s.cfg.startTag, 0x43, 0x53, odd, s.cfg.stopTag] } } ∧
      (Memory.fits s.cfg.bufCap s.rxbuf [s.cfg.startTag, 0x43, 0x53, odd, s.cfg.stopTag] = true →
        exec (.feed [s.cfg.startTag, 0x43, 0x53, odd, s.cfg.stopTag]) s = .next { s with
          out := { rxOut := some (.outcomes [.payload [0x43, 0x53]]) } })

/-- Rules R65 and R161: where round trip fails.  A CRC frame whose trailer is a tag is not delivered;
which of the three tags decides what is reported and what stays in RXBUF.
The bytes fit `BUF_CAP` (log entry 27). -/
def Obligations.TagValuedTrailerBreaksTheFrame : Prop :=
  ∀ (s : State) (genPoly genLen : Nat) (chunk wire : Bytes), s.cfg.wf = true →
    Memory.fits s.cfg.bufCap s.rxbuf wire = true → s.rxbuf = [] →
    s.cfg.scheme = .crc genPoly genLen →
    (∃ v, exec (.encode chunk) s = .next v ∧ v.out.txOut = some wire) →
    ∃ t, exec (.feed wire) s = .next t ∧
      (crcRemainder genPoly genLen chunk = s.cfg.startTag →
        t.out.delivered = [.corruptFrame] ∧ t.rxbuf = []) ∧
      (crcRemainder genPoly genLen chunk = s.cfg.stopTag →
        t.rxbuf = [] ∧
        (∀ p b, chunk = p ++ [b] → b = crcRemainder genPoly genLen p →
          t.out.delivered = [.payload p]) ∧
        ((∀ p b, chunk = p ++ [b] → b ≠ crcRemainder genPoly genLen p) →
          t.out.delivered = [.corruptFrame])) ∧
      (crcRemainder genPoly genLen chunk = s.cfg.escapeTag →
        t.out.delivered = [] ∧ t.rxbuf = wire)

/-! ### The arithmetic of the trailer -/

open Polynomial in
/-- A bit sequence read as a polynomial over GF(2), highest power first (rule R93). -/
noncomputable def Sys2Proof.Machine.polyOfBits (bits : List Bool) : (ZMod 2)[X] :=
  bits.foldl (fun p bit => p * X + (if bit then 1 else 0)) 0

open Polynomial in
/-- A number read as a polynomial over GF(2): bit `j` is the coefficient of `x^j` (rule R93). -/
noncomputable def Sys2Proof.Machine.polyOfNat (n : Nat) : (ZMod 2)[X] :=
  ∑ j ∈ Finset.range 16, if n.testBit j then X ^ j else 0

open Polynomial in
/-- Rule R93: `polyRem` is the remainder of the polynomial of the bytes by the generator's, and
`crcRemainder` that of the polynomial times `x^8`. -/
def Obligations.CrcIsThePolynomialRemainder : Prop :=
  ∀ (c : Cfg) (genPoly genLen : Nat) (bytes : Bytes), c.wf = true →
    c.scheme = .crc genPoly genLen →
      polyOfNat (polyRem genPoly genLen bytes).toNat
        = polyOfBits (bitsOf bytes) %ₘ polyOfNat genPoly ∧
      polyOfNat (crcRemainder genPoly genLen bytes).toNat
        = (polyOfBits (bitsOf bytes) * X ^ 8) %ₘ polyOfNat genPoly

/-- Rule R97: the zero-remainder forms of the check agree with it for a 9-bit generator (the second
form for one with a constant term), and are weaker outside those conditions. -/
def Obligations.ZeroRemainderFormsOfTheCheck : Prop :=
  (∀ (c : Cfg) (genPoly : Nat) (p : Bytes) (t : Byte), c.wf = true → c.scheme = .crc genPoly 9 →
    (isValid c p t = true ↔ polyRem genPoly 9 (p ++ [t]) = 0) ∧
    (genPoly % 2 = 1 → (isValid c p t = true ↔ crcRemainder genPoly 9 (p ++ [t]) = 0))) ∧
  (crcRemainder 0x13 5 [] = 0 ∧
    ((List.range 256).filter fun t => polyRem 0x13 5 [BitVec.ofNat 8 t] == 0).length = 16) ∧
  (crcRemainder 0x1D4 9 [0x43] = 0x5C ∧ crcRemainder 0x1D4 9 [0x43, 0x29] = 0)

/-- Rule R98: with a 9-bit generator of at least two bits every single inverted bit of payload or
trailer makes the check fail; two inverted bits 93 positions apart pass with the default one. -/
def Obligations.CrcDetectsEverySingleBitError : Prop :=
  (∀ (c : Cfg) (genPoly : Nat) (p p' : Bytes) (t' : Byte) (i k : Nat), c.wf = true →
    c.scheme = .crc genPoly 9 → genPoly ≠ 0x100 → i < p.length + 1 → k < 8 →
    p' ++ [t'] = (p ++ [crcRemainder genPoly 9 p]).modify i (fun b => flipBit b k) →
      isValid c p' t' = false) ∧
  crcRemainder 0x1D5 9 (List.replicate 12 0) = 0 ∧
  crcRemainder 0x1D5 9 (flipBit 0 4 :: List.replicate 11 0) = flipBit 0 7

/-- Rule R99: in PARITY mode an odd number of inverted payload bits is detected, an even number passes,
and any other trailer byte fails. -/
def Obligations.ParityDetectsOddErrorsOnly : Prop :=
  ∀ (c : Cfg) (p p' : Bytes) (t' : Byte), c.wf = true → c.scheme.mode = .parity →
    p.length = p'.length →
      (((List.zipWith (· ^^^ ·) p p').map onesOf).sum % 2 = 1 →
        isValid c p' (computeTrailer c p) = false) ∧
      (((List.zipWith (· ^^^ ·) p p').map onesOf).sum % 2 = 0 →
        isValid c p' (computeTrailer c p) = true) ∧
      (t' ≠ computeTrailer c p → isValid c p t' = false)
end

