-- ==== Sys2Proof/Laws/Memory.lean ====
section
/-! SUPPORT. Laws of the receive buffer: reading, appending, consuming, its canonical form and its
capacity. -/

namespace Sys2Proof.Machine

/-- A byte of the buffer before the append reads as before; the appended bytes follow. -/
theorem Memory.read?_append (m : Memory) (s : Bytes) (i : Nat) :
    (m.append s).read? i = if i < m.length then m.read? i else s[i - m.length]? := by
  simp [Memory.append, Memory.read?, List.getElem?_append]

/-- Consuming renumbers the rest down (rule R40). -/
@[simp] theorem Memory.read?_consume (m : Memory) (n i : Nat) :
    (m.consume n).read? i = m.read? (n + i) := by
  simp [Memory.consume, Memory.read?]

@[simp] theorem Memory.length_append (m : Memory) (s : Bytes) :
    (m.append s).length = m.length + s.length := by simp [Memory.append]

@[simp] theorem Memory.length_consume (m : Memory) (n : Nat) :
    (m.consume n).length = m.length - n := by simp [Memory.consume]

/-- Two appends are one (rule R140). -/
theorem Memory.append_append (m : Memory) (s t : Bytes) :
    (m.append s).append t = m.append (s ++ t) := by simp [Memory.append]

/-- A one-byte `MemRead` is a read of the byte (rule R14). -/
theorem Memory.readBytes?_one (m : Memory) (i : Nat) :
    m.readBytes? i 1 = (m.read? i).map fun b => [b] := by
  by_cases h : i < m.length
  · have h1 : i + 1 ≤ m.length := h
    have h2 : (m.drop i).take 1 = [m[i]] := by rw [List.drop_eq_getElem_cons h]; rfl
    simp [Memory.readBytes?, Memory.read?, h, h1, h2]
  · simp [Memory.readBytes?, Memory.read?, h]

/-- What is left to look at from `sp` on begins with the byte at `sp` (rule R44). -/
theorem Memory.read?_eq_head?_drop (m : Memory) (i : Nat) : m.read? i = (m.drop i).head? := by
  simp [Memory.read?, List.head?_drop]

/-- The cells of a buffer have strictly rising addresses: its one canonical form. -/
theorem Memory.cells_rising (m : Memory) : (m.cells.map (·.1)).Pairwise (· < ·) := by
  have h : m.cells.map (·.1) = List.range m.length := by
    simp [Memory.cells, Function.comp_def, List.zipIdx_map_snd, List.range_eq_range']
  rw [h]
  exact List.pairwise_lt_range

/-- Consuming keeps the buffer within its capacity. -/
theorem Memory.wf_consume (cap : Option Nat) (m : Memory) (n : Nat) (h : Memory.wf cap m = true) :
    Memory.wf cap (m.consume n) = true := by
  cases cap with
  | none => rfl
  | some k => simp [Memory.wf] at h ⊢; omega

/-- An append that fits keeps the buffer within its capacity, and only such an append does. -/
theorem Memory.wf_append (cap : Option Nat) (m : Memory) (s : Bytes) :
    Memory.wf cap (m.append s) = Memory.fits cap m s := by
  cases cap <;> simp [Memory.wf, Memory.fits]

/-- A buffer that is a tail of one within the capacity is within it. -/
theorem Memory.wf_drop (cap : Option Nat) (m : Memory) (n : Nat) (h : Memory.wf cap m = true) :
    Memory.wf cap (m.drop n) = true := Memory.wf_consume cap m n h

/-- The buffer of a new instance is within any capacity. -/
theorem Memory.wf_reset (c : Cfg) : Memory.wf c.bufCap (State.resetOf c).rxbuf = true := by
  cases h : c.bufCap <;> simp [Memory.wf, State.resetOf]

end Sys2Proof.Machine
end

