-- ==== Sys2Proof/Laws/State.lean ====
section
/-! SUPPORT. One lemma per field of the state per shared update, and per update of the channels, so
that no proof unfolds a record update. -/

namespace Sys2Proof.Machine

variable (s : State)

@[simp] theorem State.quiet_cfg : (s.quiet).cfg = s.cfg := rfl
@[simp] theorem State.quiet_rxbuf : (s.quiet).rxbuf = s.rxbuf := rfl
@[simp] theorem State.quiet_act : (s.quiet).act = s.act := rfl
@[simp] theorem State.quiet_st : (s.quiet).st = s.st := rfl
@[simp] theorem State.quiet_sp : (s.quiet).sp = s.sp := rfl
@[simp] theorem State.quiet_cand : (s.quiet).cand = s.cand := rfl
@[simp] theorem State.quiet_acc : (s.quiet).acc = s.acc := rfl
@[simp] theorem State.quiet_crcBits : (s.quiet).crcBits = s.crcBits := rfl
@[simp] theorem State.quiet_txChunk : (s.quiet).txChunk = s.txChunk := rfl
@[simp] theorem State.quiet_txPos : (s.quiet).txPos = s.txPos := rfl
@[simp] theorem State.quiet_txPhase : (s.quiet).txPhase = s.txPhase := rfl
@[simp] theorem State.quiet_txBuf : (s.quiet).txBuf = s.txBuf := rfl
@[simp] theorem State.quiet_out : (s.quiet).out = {} := rfl
@[simp] theorem State.quiet_ops : (s.quiet).ops = s.ops := rfl

@[simp] theorem State.emitTx_cfg (v : Bytes) : (s.emitTx v).cfg = s.cfg := rfl
@[simp] theorem State.emitTx_rxbuf (v : Bytes) : (s.emitTx v).rxbuf = s.rxbuf := rfl
@[simp] theorem State.emitTx_act (v : Bytes) : (s.emitTx v).act = s.act := rfl
@[simp] theorem State.emitTx_st (v : Bytes) : (s.emitTx v).st = s.st := rfl
@[simp] theorem State.emitTx_sp (v : Bytes) : (s.emitTx v).sp = s.sp := rfl
@[simp] theorem State.emitTx_cand (v : Bytes) : (s.emitTx v).cand = s.cand := rfl
@[simp] theorem State.emitTx_acc (v : Bytes) : (s.emitTx v).acc = s.acc := rfl
@[simp] theorem State.emitTx_crcBits (v : Bytes) : (s.emitTx v).crcBits = s.crcBits := rfl
@[simp] theorem State.emitTx_txChunk (v : Bytes) : (s.emitTx v).txChunk = s.txChunk := rfl
@[simp] theorem State.emitTx_txPos (v : Bytes) : (s.emitTx v).txPos = s.txPos := rfl
@[simp] theorem State.emitTx_txPhase (v : Bytes) : (s.emitTx v).txPhase = s.txPhase := rfl
@[simp] theorem State.emitTx_txBuf (v : Bytes) : (s.emitTx v).txBuf = s.txBuf := rfl
@[simp] theorem State.emitTx_out (v : Bytes) :
    (s.emitTx v).out = { s.out with txOut := some v } := rfl
@[simp] theorem State.emitTx_ops (v : Bytes) : (s.emitTx v).ops = s.ops := rfl

@[simp] theorem State.emitRx_cfg (v : RxResult) : (s.emitRx v).cfg = s.cfg := rfl
@[simp] theorem State.emitRx_rxbuf (v : RxResult) : (s.emitRx v).rxbuf = s.rxbuf := rfl
@[simp] theorem State.emitRx_act (v : RxResult) : (s.emitRx v).act = s.act := rfl
@[simp] theorem State.emitRx_st (v : RxResult) : (s.emitRx v).st = s.st := rfl
@[simp] theorem State.emitRx_sp (v : RxResult) : (s.emitRx v).sp = s.sp := rfl
@[simp] theorem State.emitRx_cand (v : RxResult) : (s.emitRx v).cand = s.cand := rfl
@[simp] theorem State.emitRx_acc (v : RxResult) : (s.emitRx v).acc = s.acc := rfl
@[simp] theorem State.emitRx_crcBits (v : RxResult) : (s.emitRx v).crcBits = s.crcBits := rfl
@[simp] theorem State.emitRx_txChunk (v : RxResult) : (s.emitRx v).txChunk = s.txChunk := rfl
@[simp] theorem State.emitRx_txPos (v : RxResult) : (s.emitRx v).txPos = s.txPos := rfl
@[simp] theorem State.emitRx_txPhase (v : RxResult) : (s.emitRx v).txPhase = s.txPhase := rfl
@[simp] theorem State.emitRx_txBuf (v : RxResult) : (s.emitRx v).txBuf = s.txBuf := rfl
@[simp] theorem State.emitRx_out (v : RxResult) :
    (s.emitRx v).out = { s.out with rxOut := some v } := rfl
@[simp] theorem State.emitRx_ops (v : RxResult) : (s.emitRx v).ops = s.ops := rfl

@[simp] theorem State.emitDiag_cfg (v : List Bytes) : (s.emitDiag v).cfg = s.cfg := rfl
@[simp] theorem State.emitDiag_rxbuf (v : List Bytes) : (s.emitDiag v).rxbuf = s.rxbuf := rfl
@[simp] theorem State.emitDiag_act (v : List Bytes) : (s.emitDiag v).act = s.act := rfl
@[simp] theorem State.emitDiag_st (v : List Bytes) : (s.emitDiag v).st = s.st := rfl
@[simp] theorem State.emitDiag_sp (v : List Bytes) : (s.emitDiag v).sp = s.sp := rfl
@[simp] theorem State.emitDiag_cand (v : List Bytes) : (s.emitDiag v).cand = s.cand := rfl
@[simp] theorem State.emitDiag_acc (v : List Bytes) : (s.emitDiag v).acc = s.acc := rfl
@[simp] theorem State.emitDiag_crcBits (v : List Bytes) : (s.emitDiag v).crcBits = s.crcBits := rfl
@[simp] theorem State.emitDiag_txChunk (v : List Bytes) : (s.emitDiag v).txChunk = s.txChunk := rfl
@[simp] theorem State.emitDiag_txPos (v : List Bytes) : (s.emitDiag v).txPos = s.txPos := rfl
@[simp] theorem State.emitDiag_txPhase (v : List Bytes) : (s.emitDiag v).txPhase = s.txPhase := rfl
@[simp] theorem State.emitDiag_txBuf (v : List Bytes) : (s.emitDiag v).txBuf = s.txBuf := rfl
@[simp] theorem State.emitDiag_out (v : List Bytes) :
    (s.emitDiag v).out = { s.out with diag := s.out.diag ++ v } := rfl
@[simp] theorem State.emitDiag_ops (v : List Bytes) : (s.emitDiag v).ops = s.ops := rfl

@[simp] theorem State.giveBack_cfg (v : FnResult) : (s.giveBack v).cfg = s.cfg := rfl
@[simp] theorem State.giveBack_rxbuf (v : FnResult) : (s.giveBack v).rxbuf = s.rxbuf := rfl
@[simp] theorem State.giveBack_act (v : FnResult) : (s.giveBack v).act = s.act := rfl
@[simp] theorem State.giveBack_st (v : FnResult) : (s.giveBack v).st = s.st := rfl
@[simp] theorem State.giveBack_sp (v : FnResult) : (s.giveBack v).sp = s.sp := rfl
@[simp] theorem State.giveBack_cand (v : FnResult) : (s.giveBack v).cand = s.cand := rfl
@[simp] theorem State.giveBack_acc (v : FnResult) : (s.giveBack v).acc = s.acc := rfl
@[simp] theorem State.giveBack_crcBits (v : FnResult) : (s.giveBack v).crcBits = s.crcBits := rfl
@[simp] theorem State.giveBack_txChunk (v : FnResult) : (s.giveBack v).txChunk = s.txChunk := rfl
@[simp] theorem State.giveBack_txPos (v : FnResult) : (s.giveBack v).txPos = s.txPos := rfl
@[simp] theorem State.giveBack_txPhase (v : FnResult) : (s.giveBack v).txPhase = s.txPhase := rfl
@[simp] theorem State.giveBack_txBuf (v : FnResult) : (s.giveBack v).txBuf = s.txBuf := rfl
@[simp] theorem State.giveBack_out (v : FnResult) :
    (s.giveBack v).out = { s.out with ret := some v } := rfl
@[simp] theorem State.giveBack_ops (v : FnResult) : (s.giveBack v).ops = s.ops := rfl

@[simp] theorem State.consume_cfg (n : Nat) : (s.consume n).cfg = s.cfg := rfl
@[simp] theorem State.consume_rxbuf (n : Nat) : (s.consume n).rxbuf = s.rxbuf.consume n := rfl
@[simp] theorem State.consume_act (n : Nat) : (s.consume n).act = s.act := rfl
@[simp] theorem State.consume_st (n : Nat) : (s.consume n).st = s.st := rfl
@[simp] theorem State.consume_sp (n : Nat) : (s.consume n).sp = s.sp := rfl
@[simp] theorem State.consume_cand (n : Nat) : (s.consume n).cand = s.cand := rfl
@[simp] theorem State.consume_acc (n : Nat) : (s.consume n).acc = s.acc := rfl
@[simp] theorem State.consume_crcBits (n : Nat) : (s.consume n).crcBits = s.crcBits := rfl
@[simp] theorem State.consume_txChunk (n : Nat) : (s.consume n).txChunk = s.txChunk := rfl
@[simp] theorem State.consume_txPos (n : Nat) : (s.consume n).txPos = s.txPos := rfl
@[simp] theorem State.consume_txPhase (n : Nat) : (s.consume n).txPhase = s.txPhase := rfl
@[simp] theorem State.consume_txBuf (n : Nat) : (s.consume n).txBuf = s.txBuf := rfl
@[simp] theorem State.consume_out (n : Nat) : (s.consume n).out = s.out := rfl
@[simp] theorem State.consume_ops (n : Nat) : (s.consume n).ops = s.ops := rfl

@[simp] theorem State.append_cfg (v : Bytes) : (s.append v).cfg = s.cfg := rfl
@[simp] theorem State.append_rxbuf (v : Bytes) : (s.append v).rxbuf = s.rxbuf.append v := rfl
@[simp] theorem State.append_act (v : Bytes) : (s.append v).act = s.act := rfl
@[simp] theorem State.append_st (v : Bytes) : (s.append v).st = s.st := rfl
@[simp] theorem State.append_sp (v : Bytes) : (s.append v).sp = s.sp := rfl
@[simp] theorem State.append_cand (v : Bytes) : (s.append v).cand = s.cand := rfl
@[simp] theorem State.append_acc (v : Bytes) : (s.append v).acc = s.acc := rfl
@[simp] theorem State.append_crcBits (v : Bytes) : (s.append v).crcBits = s.crcBits := rfl
@[simp] theorem State.append_txChunk (v : Bytes) : (s.append v).txChunk = s.txChunk := rfl
@[simp] theorem State.append_txPos (v : Bytes) : (s.append v).txPos = s.txPos := rfl
@[simp] theorem State.append_txPhase (v : Bytes) : (s.append v).txPhase = s.txPhase := rfl
@[simp] theorem State.append_txBuf (v : Bytes) : (s.append v).txBuf = s.txBuf := rfl
@[simp] theorem State.append_out (v : Bytes) : (s.append v).out = s.out := rfl
@[simp] theorem State.append_ops (v : Bytes) : (s.append v).ops = s.ops := rfl

@[simp] theorem State.endAttempt_cfg : (s.endAttempt).cfg = s.cfg := rfl
@[simp] theorem State.endAttempt_rxbuf : (s.endAttempt).rxbuf = s.rxbuf := rfl
@[simp] theorem State.endAttempt_act : (s.endAttempt).act = .idle := rfl
@[simp] theorem State.endAttempt_st : (s.endAttempt).st = .seekingStart := rfl
@[simp] theorem State.endAttempt_sp : (s.endAttempt).sp = 0 := rfl
@[simp] theorem State.endAttempt_cand : (s.endAttempt).cand = [] := rfl
@[simp] theorem State.endAttempt_acc : (s.endAttempt).acc = s.acc := rfl
@[simp] theorem State.endAttempt_crcBits : (s.endAttempt).crcBits = s.crcBits := rfl
@[simp] theorem State.endAttempt_txChunk : (s.endAttempt).txChunk = s.txChunk := rfl
@[simp] theorem State.endAttempt_txPos : (s.endAttempt).txPos = s.txPos := rfl
@[simp] theorem State.endAttempt_txPhase : (s.endAttempt).txPhase = s.txPhase := rfl
@[simp] theorem State.endAttempt_txBuf : (s.endAttempt).txBuf = s.txBuf := rfl
@[simp] theorem State.endAttempt_out : (s.endAttempt).out = s.out := rfl
@[simp] theorem State.endAttempt_ops : (s.endAttempt).ops = s.ops := rfl

@[simp] theorem State.endEncode_cfg : (s.endEncode).cfg = s.cfg := rfl
@[simp] theorem State.endEncode_rxbuf : (s.endEncode).rxbuf = s.rxbuf := rfl
@[simp] theorem State.endEncode_act : (s.endEncode).act = .idle := rfl
@[simp] theorem State.endEncode_st : (s.endEncode).st = s.st := rfl
@[simp] theorem State.endEncode_sp : (s.endEncode).sp = s.sp := rfl
@[simp] theorem State.endEncode_cand : (s.endEncode).cand = s.cand := rfl
@[simp] theorem State.endEncode_acc : (s.endEncode).acc = s.acc := rfl
@[simp] theorem State.endEncode_crcBits : (s.endEncode).crcBits = s.crcBits := rfl
@[simp] theorem State.endEncode_txChunk : (s.endEncode).txChunk = [] := rfl
@[simp] theorem State.endEncode_txPos : (s.endEncode).txPos = 0 := rfl
@[simp] theorem State.endEncode_txPhase : (s.endEncode).txPhase = .opening := rfl
@[simp] theorem State.endEncode_txBuf : (s.endEncode).txBuf = [] := rfl
@[simp] theorem State.endEncode_out : (s.endEncode).out = s.out := rfl
@[simp] theorem State.endEncode_ops : (s.endEncode).ops = s.ops := rfl

@[simp] theorem State.enterAttempt_cfg : (s.enterAttempt).cfg = s.cfg := rfl
@[simp] theorem State.enterAttempt_rxbuf : (s.enterAttempt).rxbuf = s.rxbuf := rfl
@[simp] theorem State.enterAttempt_act : (s.enterAttempt).act = .scanning := rfl
@[simp] theorem State.enterAttempt_st : (s.enterAttempt).st = .seekingStart := rfl
@[simp] theorem State.enterAttempt_sp : (s.enterAttempt).sp = 0 := rfl
@[simp] theorem State.enterAttempt_cand : (s.enterAttempt).cand = [] := rfl
@[simp] theorem State.enterAttempt_acc : (s.enterAttempt).acc = s.acc := rfl
@[simp] theorem State.enterAttempt_crcBits : (s.enterAttempt).crcBits = s.crcBits := rfl
@[simp] theorem State.enterAttempt_txChunk : (s.enterAttempt).txChunk = s.txChunk := rfl
@[simp] theorem State.enterAttempt_txPos : (s.enterAttempt).txPos = s.txPos := rfl
@[simp] theorem State.enterAttempt_txPhase : (s.enterAttempt).txPhase = s.txPhase := rfl
@[simp] theorem State.enterAttempt_txBuf : (s.enterAttempt).txBuf = s.txBuf := rfl
@[simp] theorem State.enterAttempt_out : (s.enterAttempt).out = s.out := rfl
@[simp] theorem State.enterAttempt_ops : (s.enterAttempt).ops = s.ops := rfl

@[simp] theorem State.enterEncode_cfg (v : Bytes) : (s.enterEncode v).cfg = s.cfg := rfl
@[simp] theorem State.enterEncode_rxbuf (v : Bytes) : (s.enterEncode v).rxbuf = s.rxbuf := rfl
@[simp] theorem State.enterEncode_act (v : Bytes) : (s.enterEncode v).act = .encoding := rfl
@[simp] theorem State.enterEncode_st (v : Bytes) : (s.enterEncode v).st = s.st := rfl
@[simp] theorem State.enterEncode_sp (v : Bytes) : (s.enterEncode v).sp = s.sp := rfl
@[simp] theorem State.enterEncode_cand (v : Bytes) : (s.enterEncode v).cand = s.cand := rfl
@[simp] theorem State.enterEncode_acc (v : Bytes) : (s.enterEncode v).acc = s.acc := rfl
@[simp] theorem State.enterEncode_crcBits (v : Bytes) : (s.enterEncode v).crcBits = s.crcBits := rfl
@[simp] theorem State.enterEncode_txChunk (v : Bytes) : (s.enterEncode v).txChunk = v := rfl
@[simp] theorem State.enterEncode_txPos (v : Bytes) : (s.enterEncode v).txPos = 0 := rfl
@[simp] theorem State.enterEncode_txPhase (v : Bytes) : (s.enterEncode v).txPhase = .opening := rfl
@[simp] theorem State.enterEncode_txBuf (v : Bytes) : (s.enterEncode v).txBuf = [] := rfl
@[simp] theorem State.enterEncode_out (v : Bytes) : (s.enterEncode v).out = s.out := rfl
@[simp] theorem State.enterEncode_ops (v : Bytes) : (s.enterEncode v).ops = s.ops := rfl

@[simp] theorem State.enterCrc_cfg (v : List Bool) : (s.enterCrc v).cfg = s.cfg := rfl
@[simp] theorem State.enterCrc_rxbuf (v : List Bool) : (s.enterCrc v).rxbuf = s.rxbuf := rfl
@[simp] theorem State.enterCrc_act (v : List Bool) : (s.enterCrc v).act = .dividing := rfl
@[simp] theorem State.enterCrc_st (v : List Bool) : (s.enterCrc v).st = s.st := rfl
@[simp] theorem State.enterCrc_sp (v : List Bool) : (s.enterCrc v).sp = s.sp := rfl
@[simp] theorem State.enterCrc_cand (v : List Bool) : (s.enterCrc v).cand = s.cand := rfl
@[simp] theorem State.enterCrc_acc (v : List Bool) : (s.enterCrc v).acc = 0 := rfl
@[simp] theorem State.enterCrc_crcBits (v : List Bool) : (s.enterCrc v).crcBits = v := rfl
@[simp] theorem State.enterCrc_txChunk (v : List Bool) : (s.enterCrc v).txChunk = s.txChunk := rfl
@[simp] theorem State.enterCrc_txPos (v : List Bool) : (s.enterCrc v).txPos = s.txPos := rfl
@[simp] theorem State.enterCrc_txPhase (v : List Bool) : (s.enterCrc v).txPhase = s.txPhase := rfl
@[simp] theorem State.enterCrc_txBuf (v : List Bool) : (s.enterCrc v).txBuf = s.txBuf := rfl
@[simp] theorem State.enterCrc_out (v : List Bool) : (s.enterCrc v).out = s.out := rfl
@[simp] theorem State.enterCrc_ops (v : List Bool) : (s.enterCrc v).ops = s.ops := rfl

@[simp] theorem State.endCrc_cfg : (s.endCrc).cfg = s.cfg := rfl
@[simp] theorem State.endCrc_rxbuf : (s.endCrc).rxbuf = s.rxbuf := rfl
@[simp] theorem State.endCrc_act : (s.endCrc).act = .idle := rfl
@[simp] theorem State.endCrc_st : (s.endCrc).st = s.st := rfl
@[simp] theorem State.endCrc_sp : (s.endCrc).sp = s.sp := rfl
@[simp] theorem State.endCrc_cand : (s.endCrc).cand = s.cand := rfl
@[simp] theorem State.endCrc_acc : (s.endCrc).acc = 0 := rfl
@[simp] theorem State.endCrc_crcBits : (s.endCrc).crcBits = [] := rfl
@[simp] theorem State.endCrc_txChunk : (s.endCrc).txChunk = s.txChunk := rfl
@[simp] theorem State.endCrc_txPos : (s.endCrc).txPos = s.txPos := rfl
@[simp] theorem State.endCrc_txPhase : (s.endCrc).txPhase = s.txPhase := rfl
@[simp] theorem State.endCrc_txBuf : (s.endCrc).txBuf = s.txBuf := rfl
@[simp] theorem State.endCrc_out :
    (s.endCrc).out = { s.out with ret := some (.byte (s.acc.setWidth 8)) } := rfl
@[simp] theorem State.endCrc_ops : (s.endCrc).ops = s.ops := rfl

@[simp] theorem State.raise_cfg (k : Condition) : (s.raise k).cfg = s.cfg := by cases k <;> rfl
@[simp] theorem State.raise_rxbuf (k : Condition) :
    (s.raise k).rxbuf = s.rxbuf := by cases k <;> rfl
@[simp] theorem State.raise_act (k : Condition) : (s.raise k).act = s.act := by cases k <;> rfl
@[simp] theorem State.raise_st (k : Condition) : (s.raise k).st = s.st := by cases k <;> rfl
@[simp] theorem State.raise_sp (k : Condition) : (s.raise k).sp = s.sp := by cases k <;> rfl
@[simp] theorem State.raise_cand (k : Condition) : (s.raise k).cand = s.cand := by cases k <;> rfl
@[simp] theorem State.raise_acc (k : Condition) : (s.raise k).acc = s.acc := by cases k <;> rfl
@[simp] theorem State.raise_crcBits (k : Condition) :
    (s.raise k).crcBits = s.crcBits := by cases k <;> rfl
@[simp] theorem State.raise_txChunk (k : Condition) :
    (s.raise k).txChunk = s.txChunk := by cases k <;> rfl
@[simp] theorem State.raise_txPos (k : Condition) :
    (s.raise k).txPos = s.txPos := by cases k <;> rfl
@[simp] theorem State.raise_txPhase (k : Condition) :
    (s.raise k).txPhase = s.txPhase := by cases k <;> rfl
@[simp] theorem State.raise_txBuf (k : Condition) :
    (s.raise k).txBuf = s.txBuf := by cases k <;> rfl
@[simp] theorem State.raise_ops (k : Condition) : (s.raise k).ops = s.ops := by cases k <;> rfl

/-- What each condition reports (rules R180 to R184). -/
@[simp] theorem State.raise_garbage (b : Byte) : s.raise (.garbage b) = s := by
  cases h : s.cfg.diagEn <;>
    simp [State.raise, State.emitDiag, diagEvents, List.filterMap_cons, Condition.outcome?,
      Condition.record?, h]

@[simp] theorem State.raise_superseded (d : Bytes) : s.raise (.superseded d) = s := by
  cases h : s.cfg.diagEn <;>
    simp [State.raise, State.emitDiag, diagEvents, List.filterMap_cons, Condition.outcome?,
      Condition.record?, h]

@[simp] theorem State.raise_incomplete (r : Reason) :
    s.raise (.incomplete r) = s.emitRx (.outcome (.noFrame r)) := by
  cases h : s.cfg.diagEn <;>
    simp [State.raise, State.emitDiag, State.emitRx, diagEvents, Condition.outcome?,
      Condition.record?, h]

@[simp] theorem State.raise_corrupt (p : Bytes) :
    s.raise (.corrupt p)
      = (s.emitRx (.outcome .corrupt)).emitDiag (if s.cfg.diagEn then [p] else []) := by
  cases h : s.cfg.diagEn <;> simp [State.raise, diagEvents, Condition.outcome?,
      Condition.record?, h]

/-- A new instance has every field at the value the log names. -/
theorem State.resetOf_eq (c : Cfg) :
    State.resetOf c = ⟨c, [], .idle, .seekingStart, 0, [], 0, [], [], 0, .opening, [], {}, []⟩ := rfl

end Sys2Proof.Machine
end

