-- ==== Sys2Proof/Laws/Ops.lean ====
section
/-! SUPPORT. What each shared operation can do, said once: when it answers a next state and which. -/

namespace Sys2Proof.Machine

/-- Under a well-formed configuration the check is transparent. -/
@[simp] theorem underWF_of_wf {s : State} {r : Result} (h : s.cfg.wf = true) : underWF s r = r := by
  simp [underWF, h]

/-- An ill-formed configuration is refused whatever the operation (rule R11). -/
theorem underWF_of_not_wf {s : State} {r : Result} (h : s.cfg.wf = false) :
    underWF s r = .refused .illFormedConfig := by
  simp [underWF, h]

theorem underWF_eq_next {s t : State} {r : Result} :
    underWF s r = .next t ↔ s.cfg.wf = true ∧ r = .next t := by
  by_cases h : s.cfg.wf = true <;> simp [underWF, h]

/-- A micro-step answers exactly in the states the operation map selects its row in. -/
theorem microStep_eq_next {i : Instr} {s t : State} {f : State → State} :
    microStep i s f = .next t ↔ s.cfg.wf = true ∧ s.selects i = true ∧ f s.quiet = t := by
  rw [microStep, underWF_eq_next]
  by_cases h : s.selects i = true <;> simp [h]

/-- An atomic operation always answers under a well-formed configuration. -/
theorem atomically_eq_next {s t : State} {f : State → State} :
    atomically s f = .next t ↔ s.cfg.wf = true ∧ f s.quiet = t := by
  simp [atomically, underWF_eq_next]

/-- An appending operation answers exactly when the bytes fit. -/
theorem whenFits_eq_next {bytes : Bytes} {s t : State} {f : State → State} :
    whenFits bytes s f = .next t ↔
      s.cfg.wf = true ∧ Memory.fits s.cfg.bufCap s.rxbuf bytes = true ∧ f s.quiet = t := by
  rw [whenFits, underWF_eq_next]
  by_cases h : Memory.fits s.cfg.bufCap s.rxbuf bytes = true <;> simp [h]

/-- An operation on the generator answers exactly in CRC mode. -/
theorem withGenerator_eq_next {s t : State} {f : Nat → Nat → State → State} :
    withGenerator s f = .next t ↔
      s.cfg.wf = true ∧ ∃ poly len, s.cfg.scheme = .crc poly len ∧ f poly len s.quiet = t := by
  rw [withGenerator, underWF_eq_next]
  cases h : s.cfg.scheme <;> simp

/-- In an attempt in progress the selected row is the one decoded from `st`, `cand` and the bytes
from `sp` on (rule R68). -/
theorem selects_of_scanning {s : State} {i : Instr} (h : s.act = .scanning) :
    s.selects i = true ↔
      s.scanInRange = true
        ∧ decodeScan s.cfg s.st s.cand.isEmpty (s.rxbuf.drop s.sp) = i := by
  simp [State.selects, h, State.scanWord, decode]

/-- In an ENCODE in progress the selected row is the one decoded from the walk (rule R69). -/
theorem selects_of_encoding {s : State} {i : Instr} (h : s.act = .encoding) :
    s.selects i = true ↔ decodeTx s.cfg s.txPhase (s.txChunk.drop s.txPos) = i := by
  simp [State.selects, h, State.txWord, decode]

/-- In a CRC evaluation in progress the selected row is the bit step of the next bit (rule R91). -/
theorem selects_of_dividing {s : State} {i : Instr} (h : s.act = .dividing) :
    s.selects i = true ↔ ∃ bit rest, s.crcBits = bit :: rest ∧ Instr.crcBit s.acc bit = i := by
  cases hb : s.crcBits <;> simp [State.selects, h, State.divWord?, hb, decode]

/-- With nothing in progress no micro-step is selected. -/
theorem selects_of_idle {s : State} {i : Instr} (h : s.act = .idle) : s.selects i = false := by
  simp [State.selects, h]

end Sys2Proof.Machine
end

