-- ==== Sys2Proof/Laws/Trailer.lean ====
section
/-! SUPPORT. Laws of the byte classes, the operands, the trailer split and the verdict. -/

namespace Sys2Proof.Machine

/-- `isTag` in the source's words: `b ∈ {START, STOP, ESCAPE}` (rule R15). -/
theorem isTag_eq_true {c : Cfg} {b : Byte} :
    c.isTag b = true ↔ b = c.startTag ∨ b = c.stopTag ∨ b = c.escapeTag := by
  unfold Cfg.isTag Cfg.classOf
  split_ifs <;> simp [*]

/-- The check of WellFormed and the class of the decoder say the same of a byte. -/
theorem isTag_eq_not_notTag (c : Cfg) (b : Byte) : c.isTag b = !c.notTag b := by
  rw [Bool.eq_iff_iff, isTag_eq_true]
  by_cases h1 : b = c.startTag <;> by_cases h2 : b = c.stopTag <;>
    by_cases h3 : b = c.escapeTag <;> simp [Cfg.notTag, h1, h2, h3]

theorem classOf_eq_other {c : Cfg} {b : Byte} : c.classOf b = .other ↔ c.notTag b = true := by
  have h := isTag_eq_not_notTag c b
  cases hn : c.notTag b <;> cases hc : c.classOf b <;> simp_all [Cfg.isTag]

/-- The tags of a well-formed configuration are pairwise different (rule R11 clause 1). -/
theorem tags_ne {c : Cfg} (h : c.wf = true) :
    c.startTag ≠ c.stopTag ∧ c.startTag ≠ c.escapeTag ∧ c.stopTag ≠ c.escapeTag := by
  simp only [Cfg.wf, Cfg.tagsDistinct, Bool.and_eq_true, bne_iff_ne] at h
  exact ⟨h.1.1.1.1.1.1, h.1.1.1.1.1.2, h.1.1.1.1.2⟩

@[simp] theorem classOf_startTag (c : Cfg) : c.classOf c.startTag = .start := by
  simp [Cfg.classOf]

theorem classOf_stopTag {c : Cfg} (h : c.wf = true) : c.classOf c.stopTag = .stop := by
  simp [Cfg.classOf, (tags_ne h).1.symm]

theorem classOf_escapeTag {c : Cfg} (h : c.wf = true) : c.classOf c.escapeTag = .escape := by
  simp [Cfg.classOf, (tags_ne h).2.1.symm, (tags_ne h).2.2.symm]

@[simp] theorem splitCandidate_nil : splitCandidate [] = none := rfl

/-- The trailer is the last byte, the payload the bytes before it (rule R67). -/
@[simp] theorem splitCandidate_append (p : Bytes) (t : Byte) :
    splitCandidate (p ++ [t]) = some (p, t) := by
  simp [splitCandidate]

@[simp] theorem verdict_nil (c : Cfg) : verdict c [] = (.corrupt, [.corrupt []]) := rfl

theorem verdict_append (c : Cfg) (p : Bytes) (t : Byte) :
    verdict c (p ++ [t])
      = if isValid c p t then (.payload p, []) else (.corrupt, [.corrupt p]) := by
  simp [verdict]

@[simp] theorem stuffAll_nil (c : Cfg) : stuffAll c [] = [] := rfl

@[simp] theorem stuffAll_cons (c : Cfg) (b : Byte) (p : Bytes) :
    stuffAll c (b :: p) = stuffed c b ++ stuffAll c p := rfl

@[simp] theorem stuffAll_append (c : Cfg) (p q : Bytes) :
    stuffAll c (p ++ q) = stuffAll c p ++ stuffAll c q := by
  simp [stuffAll]

/-- A bit step on a sequence split in two (rule R91). -/
theorem polyRem_append (poly len : Nat) (s t : Bytes) :
    polyRem poly len (s ++ t) = t.foldl (crcByte poly len) (polyRem poly len s) := by
  simp [polyRem]

/-- The bytes of the division loop are its bits in order (rule R91). -/
theorem foldl_crcByte (poly len : Nat) (s : Bytes) (a : Acc) :
    s.foldl (crcByte poly len) a = (bitsOf s).foldl (crcBit poly len) a := by
  induction s generalizing a with
  | nil => rfl
  | cons b rest ih => simp [bitsOf, List.foldl_append, crcByte] at ih ⊢; exact ih _

/-- `crcRemainder` by its bits: the eight of each byte and eight zeros (rule R91). -/
theorem crcAcc_eq_foldl_bits (poly len : Nat) (s : Bytes) :
    crcAcc poly len s = (bitsOf (s ++ [0])).foldl (crcBit poly len) 0 :=
  foldl_crcByte poly len (s ++ [0]) 0

end Sys2Proof.Machine
end

