-- ==== Sys2Proof/Laws/PerInstr.lean ====
section
/-! SUPPORT. Statements for all instructions, one lemma per constructor.  RoundTrip: what the encoder
writes for a well-formed instruction the decoder reads back, with every operand. -/

namespace Sys2Proof.Laws

set_option Elab.async false

/-- The two written bytes of an accumulator value are the value. -/
theorem accBytes_append (a : Acc) :
    (a.extractLsb' 8 8 ++ a.extractLsb' 0 8 : Acc) = a := by
  ext i hi
  simp only [BitVec.getElem_append, BitVec.getElem_extractLsb']
  split
  · simp [BitVec.getLsbD_eq_getElem hi]
  · have : 8 + (i - 8) = i := by omega
    rw [this, BitVec.getLsbD_eq_getElem hi]

namespace RoundTrip

/-- Decoding the encoding of a well-formed instruction gives it back, under every well-formed
configuration. -/
def Statement (i : Instr) : Prop :=
  ∀ c : Cfg, c.wf = true → i.wf c = true → decode c (Sys2Proof.encode c i) = .ok i

theorem seekEnd : Statement .seekEnd := fun _ _ _ => rfl

theorem seekStart : Statement .seekStart := by
  intro c _ _; simp [Sys2Proof.encode, decode, decodeScan]

theorem seekSkip (b : Byte) : Statement (.seekSkip b) := by
  intro c _ hi
  have : b ≠ c.startTag := by simpa [Instr.wf] using hi
  simp [Sys2Proof.encode, decode, decodeScan, this]

theorem accEnd : Statement .accEnd := fun _ _ _ => rfl

theorem accEscPair (x : Byte) : Statement (.accEscPair x) := by
  intro c h _; simp [Sys2Proof.encode, decode, decodeScan, Machine.classOf_escapeTag h]

theorem accEscDangle : Statement .accEscDangle := by
  intro c h _; simp [Sys2Proof.encode, decode, decodeScan, Machine.classOf_escapeTag h]

theorem accStop : Statement .accStop := by
  intro c h _; simp [Sys2Proof.encode, decode, decodeScan, Machine.classOf_stopTag h]

theorem accStart : Statement .accStart := by
  intro c _ _; simp [Sys2Proof.encode, decode, decodeScan]

theorem accData (b : Byte) : Statement (.accData b) := by
  intro c _ hi
  have : c.classOf b = .other := Machine.classOf_eq_other.2 hi
  simp [Sys2Proof.encode, decode, decodeScan, this]

theorem doneValidate : Statement .doneValidate := fun _ _ _ => rfl

theorem doneEmpty : Statement .doneEmpty := fun _ _ _ => rfl

theorem encOpen : Statement .encOpen := fun _ _ _ => rfl

theorem encStuff (b : Byte) : Statement (.encStuff b) := by
  intro c _ hi
  have : c.isTag b = true := by rw [Machine.isTag_eq_not_notTag]; exact hi
  simp [Sys2Proof.encode, decode, decodeTx, this]

theorem encPlain (b : Byte) : Statement (.encPlain b) := by
  intro c _ hi
  have hn : c.notTag b = true := hi
  have : c.isTag b = false := by simp [Machine.isTag_eq_not_notTag, hn]
  simp [Sys2Proof.encode, decode, decodeTx, this]

theorem encTrailer : Statement .encTrailer := fun _ _ _ => rfl

theorem encClose : Statement .encClose := fun _ _ _ => rfl

theorem encode (chunk : Bytes) : Statement (.encode chunk) := fun _ _ _ => rfl

theorem encodeChunks (payload : Bytes) : Statement (.encodeChunks payload) := fun _ _ _ => rfl

theorem append (fragment : Bytes) : Statement (.append fragment) := fun _ _ _ => rfl

theorem extract : Statement .extract := fun _ _ _ => rfl

theorem feed (fragment : Bytes) : Statement (.feed fragment) := fun _ _ _ => rfl

theorem reset : Statement .reset := fun _ _ _ => rfl

theorem crcBit (a : Acc) (bit : Bool) : Statement (.crcBit a bit) := by
  intro c _ _
  have h : a.extractLsb' 8 8 ++ a.extractLsb' 0 8 = a := accBytes_append a
  cases bit <;> simp [Sys2Proof.encode, decode, decodeOp, accBytes, bitByte, h]

theorem crcRemainder (s : Bytes) : Statement (.crcRemainder s) := fun _ _ _ => rfl

theorem parityOf (s : Bytes) : Statement (.parityOf s) := fun _ _ _ => rfl

theorem trailerCompute (p : Bytes) : Statement (.trailerCompute p) := fun _ _ _ => rfl

theorem trailerIsValid (p : Bytes) (t : Byte) : Statement (.trailerIsValid p t) := fun _ _ _ => rfl

theorem chunks (payload : Bytes) : Statement (.chunks payload) := fun _ _ _ => rfl

theorem attempt (buf : Bytes) : Statement (.attempt buf) := fun _ _ _ => rfl

end RoundTrip

end Sys2Proof.Laws
end

