-- ==== Sys2Proof/Laws/Requests.lean ====
section
/-! SUPPORT. What taking a request can do, said once: which request is taken, and what one that has no
step holds back. -/

namespace Sys2Proof.Machine

/-- Nothing of a list is the sender's exactly when nothing is taken from it. -/
theorem takeSend_eq_none {l : List Request} :
    takeSend l = none ↔ ∀ r ∈ l, r.isSend = false := by
  induction l with
  | nil => simp [takeSend]
  | cons r rest ih => by_cases h : r.isSend = true <;> simp [takeSend, h, ih]

/-- The oldest of the sender's requests is taken, and the others keep their order. -/
theorem takeSend_append {before behind : List Request} {r : Request}
    (hb : ∀ q ∈ before, q.isSend = false) (hr : r.isSend = true) :
    takeSend (before ++ r :: behind) = some (r, before ++ behind) := by
  induction before with
  | nil => simp [takeSend, hr]
  | cons q rest ih =>
    simp only [List.mem_cons, forall_eq_or_imp] at hb
    simp [takeSend, hb.1, ih hb.2]

@[simp] theorem takeRequest_nil (s : State) : takeRequest [] s = .next s := rfl

/-- A request that has a step is taken. -/
theorem takeRequest_of_next {r : Request} {rest : List Request} {s t : State}
    (h : runRequest r { s with ops := rest } = .next t) : takeRequest (r :: rest) s = .next t := by
  simp [takeRequest, h]

/-- A request that has no step lets the sender's oldest request behind it through. -/
theorem takeRequest_of_send {r send : Request} {rest others : List Request} {s : State}
    (h : ∀ t, runRequest r { s with ops := rest } ≠ .next t)
    (hs : takeSend rest = some (send, others)) :
    takeRequest (r :: rest) s = runRequest send { s with ops := r :: others } := by
  cases hr : runRequest r { s with ops := rest } with
  | next t => exact absurd hr (h t)
  | fault _ => simp [takeRequest, hr, hs]
  | refused _ => simp [takeRequest, hr, hs]

/-- An APPEND or FEED that does not fit is given up for the owner's next request. -/
theorem takeRequest_of_bufferFull {r : Request} {rest : List Request} {s : State}
    (h : runRequest r { s with ops := rest } = .fault .bufferFull) (hs : takeSend rest = none)
    (hne : rest ≠ []) : takeRequest (r :: rest) s = takeRequest rest s := by
  simp [takeRequest, h, hs, hne]

/-- Any other request that has no step stops the machine, and so does one that does not fit with none
behind it. -/
theorem takeRequest_of_stop {r : Request} {rest : List Request} {s : State}
    (h : runRequest r { s with ops := rest } ≠ .fault .bufferFull ∨ rest = [])
    (hs : takeSend rest = none) :
    takeRequest (r :: rest) s = runRequest r { s with ops := rest } := by
  cases hr : runRequest r { s with ops := rest } with
  | next t => simp [takeRequest, hr]
  | refused _ => simp [takeRequest, hr, hs]
  | fault f =>
    have : ¬(f = .bufferFull ∧ rest ≠ []) := by
      rintro ⟨rfl, hne⟩
      exact h.elim (fun h => h hr) hne
    simp only [takeRequest, hr, hs, if_neg this]

/-- With nothing in progress a step takes a request. -/
theorem step_of_idle {s : State} (h : s.act = .idle) : step s = takeRequest s.ops s := by
  simp [step, h]

end Sys2Proof.Machine
end

