-- ==== Sys2Proof/Tests/Slice0.lean ====
section
/-! SUPPORT. The model's own tests: ill-formed terms the checks refuse, words written out from the
operation map, results worked in spec/95_test_vectors.md, and for each obligation with hypotheses a
witness that meets them all. -/

namespace Sys2Proof.Tests

set_option Elab.async false

open Sys2Proof Sys2Proof.Machine

/-! ### Helpers -/

def nextOf : Result → Option State
  | .next s => some s
  | .fault _ => none
  | .refused _ => none

def faultOf : Result → Option Fault
  | .next _ => none
  | .fault f => some f
  | .refused _ => none

def refusalOf : Result → Option Refusal
  | .next _ => none
  | .fault _ => none
  | .refused r => some r

theorem eq_next_of_nextOf {r : Result} {t : State} (h : nextOf r = some t) : r = .next t := by
  cases r <;> simp_all [nextOf]

/-- An instance with a buffer content. -/
def holding (c : Cfg) (buf : Bytes) : State := { State.resetOf c with rxbuf := buf }

/-- An attempt in progress. -/
def scanning (st : RxState) (sp : Nat) (cand buf : Bytes) : State :=
  { State.reset with act := .scanning, st := st, sp := sp, cand := cand, rxbuf := buf }

/-- An ENCODE in progress. -/
def encoding (phase : TxPhase) (pos : Nat) (chunk built : Bytes) : State :=
  { State.reset with
    act := .encoding, txPhase := phase, txPos := pos, txChunk := chunk, txBuf := built }

/-- A CRC evaluation in progress. -/
def dividing (a : Acc) (bits : List Bool) : State :=
  { State.reset with act := .dividing, acc := a, crcBits := bits }

/-- T0C with `BUF_CAP = 6` (95_test_vectors.md section 6.4). -/
def t0cCap6 : Cfg := { Cfg.t0c with bufCap := some 6 }

/-- The chunk of the source's scenario. -/
def cs : Bytes := [0x43, 0x53]

/-! ### Ill-formed terms: one per check -/

theorem test_t0c_well_formed : Cfg.t0c.wf = true := by decide
theorem test_t0p_well_formed : Cfg.t0p.wf = true := by decide
theorem test_refuses_equal_start_stop :
    ({ Cfg.t0c with stopTag := 0x7B } : Cfg).wf = false := by decide
theorem test_refuses_equal_start_escape :
    ({ Cfg.t0c with escapeTag := 0x7B } : Cfg).wf = false := by decide
theorem test_refuses_equal_stop_escape :
    ({ Cfg.t0c with escapeTag := 0x7D } : Cfg).wf = false := by decide
theorem test_refuses_even_sentinel_tag :
    ({ Cfg.t0c with scheme := .parity 0x7D 0x31 } : Cfg).wf = false := by decide
theorem test_refuses_odd_sentinel_tag :
    ({ Cfg.t0c with scheme := .parity 0x30 0x5C } : Cfg).wf = false := by decide
theorem test_refuses_equal_sentinels :
    ({ Cfg.t0c with scheme := .parity 0x30 0x30 } : Cfg).wf = false := by decide
theorem test_refuses_short_generator :
    ({ Cfg.t0c with scheme := .crc 1 1 } : Cfg).wf = false := by decide
theorem test_refuses_long_generator :
    ({ Cfg.t0c with scheme := .crc 0x3D5 10 } : Cfg).wf = false := by decide
theorem test_refuses_generator_without_top_bit :
    ({ Cfg.t0c with scheme := .crc 0xD5 9 } : Cfg).wf = false := by decide
theorem test_refuses_generator_above_its_length :
    ({ Cfg.t0c with scheme := .crc 0x200 9 } : Cfg).wf = false := by decide
theorem test_refuses_zero_chunk : ({ Cfg.t0c with maxChunk := 0 } : Cfg).wf = false := by decide
theorem test_refuses_skip_of_start : (Instr.seekSkip 0x7B).wf Cfg.t0c = false := by decide
theorem test_refuses_data_tag : (Instr.accData 0x5C).wf Cfg.t0c = false := by decide
theorem test_refuses_stuff_of_plain : (Instr.encStuff 0x41).wf Cfg.t0c = false := by decide
theorem test_refuses_plain_of_tag : (Instr.encPlain 0x7D).wf Cfg.t0c = false := by decide

/-! ### Words from the operation map (rules R68, R69, R75), one per constructor -/

theorem test_word_seek_end :
    decode Cfg.t0c (.scan .seekingStart true []) = .ok .seekEnd := by decide
theorem test_word_seek_start :
    decode Cfg.t0c (.scan .seekingStart true [0x7B, 0x00]) = .ok .seekStart := by decide
theorem test_word_seek_skip :
    decode Cfg.t0c (.scan .seekingStart true [0x5C, 0x7B]) = .ok (.seekSkip 0x5C) := by decide
theorem test_word_acc_end :
    decode Cfg.t0c (.scan .accumulating true []) = .ok .accEnd := by decide
theorem test_word_acc_esc_pair :
    decode Cfg.t0c (.scan .accumulating true [0x5C, 0x7B, 0x7D]) = .ok (.accEscPair 0x7B) := by decide
theorem test_word_acc_esc_dangle :
    decode Cfg.t0c (.scan .accumulating false [0x5C]) = .ok .accEscDangle := by decide
theorem test_word_acc_stop :
    decode Cfg.t0c (.scan .accumulating false [0x7D, 0x7D]) = .ok .accStop := by decide
theorem test_word_acc_start :
    decode Cfg.t0c (.scan .accumulating false [0x7B]) = .ok .accStart := by decide
theorem test_word_acc_data :
    decode Cfg.t0c (.scan .accumulating true [0x00]) = .ok (.accData 0x00) := by decide
theorem test_word_done_validate :
    decode Cfg.t0c (.scan .done false [0x7B]) = .ok .doneValidate := by decide
theorem test_word_done_empty :
    decode Cfg.t0c (.scan .done true [0x7B]) = .ok .doneEmpty := by decide
theorem test_word_enc_open : decode Cfg.t0c (.tx .opening [0x43]) = .ok .encOpen := by decide
theorem test_word_enc_stuff : decode Cfg.t0c (.tx .body [0x5C]) = .ok (.encStuff 0x5C) := by decide
theorem test_word_enc_plain : decode Cfg.t0p (.tx .body [0x31]) = .ok (.encPlain 0x31) := by decide
theorem test_word_enc_trailer : decode Cfg.t0c (.tx .body []) = .ok .encTrailer := by decide
theorem test_word_enc_close : decode Cfg.t0c (.tx .closing []) = .ok .encClose := by decide
theorem test_word_encode : decode Cfg.t0c (.op "ENCODE" [cs]) = .ok (.encode cs) := by decide
theorem test_word_encode_chunks :
    decode Cfg.t0c (.op "ENCODE_CHUNKS" [[]]) = .ok (.encodeChunks []) := by decide
theorem test_word_append : decode Cfg.t0c (.op "APPEND" [[0x7B]]) = .ok (.append [0x7B]) := by decide
theorem test_word_extract : decode Cfg.t0c (.op "EXTRACT" []) = .ok .extract := by decide
theorem test_word_feed : decode Cfg.t0c (.op "FEED" [[0x7B]]) = .ok (.feed [0x7B]) := by decide
theorem test_word_reset : decode Cfg.t0c (.op "RESET" []) = .ok .reset := by decide
theorem test_word_crc_bit :
    decode Cfg.t0c (.op "CRC.BIT" [[0x00, 0x86], [0x01]]) = .ok (.crcBit 0x86 true) := by decide
theorem test_word_crc_remainder :
    decode Cfg.t0c (.op "CRC.REMAINDER" [cs]) = .ok (.crcRemainder cs) := by decide
theorem test_word_parity_of :
    decode Cfg.t0c (.op "PARITY.OF" [cs]) = .ok (.parityOf cs) := by decide
theorem test_word_trailer_compute :
    decode Cfg.t0c (.op "TRAILER.COMPUTE" [cs]) = .ok (.trailerCompute cs) := by decide
theorem test_word_trailer_isvalid :
    decode Cfg.t0c (.op "TRAILER.ISVALID" [cs, [0xC7]]) = .ok (.trailerIsValid cs 0xC7) := by decide
theorem test_word_chunks : decode Cfg.t0c (.op "CHUNKS" [cs]) = .ok (.chunks cs) := by decide
theorem test_word_attempt : decode Cfg.t0c (.op "ATTEMPT" [[]]) = .ok (.attempt []) := by decide
theorem test_word_unknown_name :
    decode Cfg.t0c (.op "SEEK.SKIP" [[0x41]]) = .rejected (.unknownName "SEEK.SKIP") := by decide
theorem test_word_bad_arguments :
    decode Cfg.t0c (.op "RESET" [[0x41]]) = .rejected (.badArguments "RESET") := by decide
theorem test_word_wide_accumulator :
    decode Cfg.t0c (.op "CRC.BIT" [[0x01, 0x00], [0x00]]) = .ok (.crcBit 0x100 false) := by decide

/-! ### Results worked in spec/95_test_vectors.md -/

-- section 3.1: crcBit(0x86, 0) = 0x0D9 (also the example of rule R90) and step 9 of the trace
theorem test_crc_bit_xors : crcBit 0x1D5 9 0x86 false = 0xD9 := by decide
theorem test_crc_bit_shifts : crcBit 0x1D5 9 0x43 false = 0x86 := by decide
-- section 3.1 and 3.3
theorem test_crc_check_value :
    crcRemainder 0x1D5 9 [0x31, 0x32, 0x33, 0x34, 0x35, 0x36, 0x37, 0x38, 0x39] = 0xBC :=
  by decide +kernel
theorem test_crc_other_generator : crcRemainder 0x13 5 [0x43, 0x53] = 0x04 := by decide +kernel
-- section 2
theorem test_parity_of_source_scenario : parityOf cs = true := by decide
theorem test_parity_of_empty : parityOf [] = false := by decide
theorem test_trailer_crc : computeTrailer Cfg.t0c cs = 0xC7 := by decide +kernel
theorem test_trailer_parity : computeTrailer Cfg.t0p [0x30] = 0x30 := by decide
theorem test_valid_needs_the_sentinel : isValid Cfg.t0p cs 0x32 = false := by decide
theorem test_valid_undetected_pair : isValid Cfg.t0p [0x40, 0x53] 0x31 = true := by decide
-- section 4.1 and 4.2
theorem test_encode_stuffs :
    (nextOf (exec (.encode [0x41, 0x7D, 0x42]) State.reset)).map (·.out.txOut)
      = some (some [0x7B, 0x41, 0x5C, 0x7D, 0x42, 0xC0, 0x7D]) := by decide +kernel
theorem test_encode_sentinels_plain :
    frameOf Cfg.t0p [0x30, 0x31] = [0x7B, 0x30, 0x31, 0x31, 0x7D] := by decide
-- section 4.4: the trailer is not stuffed
theorem test_encode_tag_trailer : frameOf Cfg.t0c [0x0F] = [0x7B, 0x0F, 0x7D, 0x7D] :=
  by decide +kernel
-- section 7
theorem test_encode_chunks_hello :
    framesOf Cfg.t0c [0x48, 0x65, 0x6C, 0x6C, 0x6F, 0x2C, 0x20, 0x77, 0x6F, 0x72, 0x6C, 0x64]
      = [0x7B, 0x48, 0x65, 0x6C, 0x6C, 0x6F, 0x2C, 0x20, 0x77, 0xA3, 0x7D,
         0x7B, 0x6F, 0x72, 0x6C, 0x64, 0x32, 0x7D] := by decide +kernel
theorem test_encode_chunks_empty :
    (nextOf (exec (.encodeChunks []) State.reset)).map (·.out.txOut) = some (some []) := by decide
theorem test_chunks_short_last :
    chunksOf { Cfg.t0c with maxChunk := 3 } [0x41, 0x42, 0x43, 0x44]
      = [[0x41, 0x42, 0x43], [0x44]] := by decide
-- section 6.1 and 6.4
theorem test_append_at_tail :
    (nextOf (exec (.append [0x53, 0xC7]) (holding Cfg.t0c [0x7B, 0x43]))).map (·.rxbuf)
      = some [0x7B, 0x43, 0x53, 0xC7] := by decide
theorem test_append_held :
    faultOf (exec (.append [0x44, 0x45, 0x46]) (holding t0cCap6 [0x7B, 0x41, 0x42, 0x43]))
      = some .bufferFull := by decide
theorem test_extract_takes_first_frame :
    (nextOf (exec .extract (holding Cfg.t0c [0x41, 0x7B, 0x43, 0x53, 0xC7, 0x7D, 0x7B]))).map
      (fun t => (t.rxbuf, t.out.rxOut)) = some ([0x7B], some (.outcome (.payload cs))) :=
  by decide +kernel
-- section 5.2, conflict C4
theorem test_extract_drops_garbage_though_incomplete :
    (nextOf (exec .extract (holding Cfg.t0c [0x41, 0x42, 0x7B, 0x43, 0x53, 0xC7]))).map
      (fun t => (t.rxbuf, t.out.rxOut))
      = some ([0x7B, 0x43, 0x53, 0xC7], some (.outcome (.noFrame .incomplete))) := by decide
-- section 5.3, conflict C9
theorem test_feed_corrupt_then_payload :
    (nextOf (exec (.feed [0xAA, 0x7B, 0x41, 0x42, 0x57, 0x7D, 0x7B, 0x43, 0x53, 0xC7, 0x7D])
      State.reset)).map (fun t => (t.rxbuf, t.out.rxOut, t.out.diag))
      = some ([], some (.outcomes [.corruptFrame, .payload cs]), [[0x41, 0x42]]) :=
  by decide +kernel
theorem test_feed_dangling_escape_swallows_start :
    (nextOf (exec (.feed [0x7B, 0x41, 0x5C, 0x7B, 0x43, 0x53, 0xC7, 0x7D]) State.reset)).map
      (fun t => (t.out.rxOut, t.out.diag))
      = some (some (.outcomes [.corruptFrame]), [[0x41, 0x7B, 0x43, 0x53]]) := by decide +kernel
theorem test_reset_discards :
    (nextOf (exec .reset (holding Cfg.t0c [0x7B, 0x43]))).map (·.rxbuf) = some [] := by decide
theorem test_attempt_function :
    (nextOf (exec (.attempt [0x7B, 0x7D, 0x7B, 0x00, 0x7D]) State.reset)).map (·.out.ret)
      = some (some (.attempt .corrupt [0x7B, 0x00, 0x7D])) := by decide
-- section 5.1, traces A, B, C, D and E, one step each
theorem test_trace_a_skip :
    (nextOf (step (scanning .seekingStart 0 [] [0x41, 0x7B, 0x43]))).map (fun t => (t.rxbuf, t.sp))
      = some ([0x7B, 0x43], 0) := by decide
theorem test_trace_a_start :
    (nextOf (step (scanning .seekingStart 0 [] [0x7B, 0x43]))).map (fun t => (t.st, t.sp, t.rxbuf))
      = some (.accumulating, 1, [0x7B, 0x43]) := by decide
theorem test_trace_a_esc_pair :
    (nextOf (step (scanning .accumulating 2 [0x43] [0x7B, 0x43, 0x5C, 0x7D, 0xCB, 0x7D]))).map
      (fun t => (t.sp, t.cand)) = some (4, [0x43, 0x7D]) := by decide
theorem test_trace_a_stop :
    (nextOf (step (scanning .accumulating 5 [0x43, 0x7D, 0xCB]
      [0x7B, 0x43, 0x5C, 0x7D, 0xCB, 0x7D, 0x7B, 0x42]))).map (fun t => (t.st, t.rxbuf, t.cand))
      = some (.done, [0x7B, 0x42], [0x43, 0x7D, 0xCB]) := by decide
theorem test_trace_a_validate :
    (nextOf (step (scanning .done 5 [0x43, 0x7D, 0xCB] [0x7B, 0x42]))).map
      (fun t => (t.act, t.rxbuf, t.out.rxOut))
      = some (.idle, [0x7B, 0x42], some (.outcome (.payload [0x43, 0x7D]))) := by decide +kernel
theorem test_trace_b_start :
    (nextOf (step (scanning .accumulating 3 [0x41, 0x42] [0x7B, 0x41, 0x42, 0x7B, 0x43]))).map
      (fun t => (t.rxbuf, t.sp, t.cand, t.out)) = some ([0x7B, 0x43], 1, [], {}) := by decide
theorem test_trace_b_data :
    (nextOf (step (scanning .accumulating 1 [] [0x7B, 0x43]))).map (fun t => (t.sp, t.cand))
      = some (2, [0x43]) := by decide
theorem test_trace_b_end :
    (nextOf (step (scanning .accumulating 2 [0x43] [0x7B, 0x43]))).map
      (fun t => (t.rxbuf, t.out.rxOut))
      = some ([0x7B, 0x43], some (.outcome (.noFrame .incomplete))) := by decide
theorem test_trace_c_corrupt :
    (nextOf (step (scanning .done 4 [0x43, 0x53, 0xC6] [0x55]))).map
      (fun t => (t.rxbuf, t.cand, t.out.rxOut, t.out.diag))
      = some ([0x55], [], some (.outcome .corrupt), [cs]) := by decide +kernel
theorem test_trace_d_empty :
    (nextOf (step (scanning .done 1 [] []))).map (fun t => (t.out.rxOut, t.out.diag))
      = some (some (.outcome .corrupt), [[]]) := by decide
theorem test_trace_e_end :
    (nextOf (step (scanning .seekingStart 0 [] []))).map (fun t => (t.act, t.out.rxOut))
      = some (.idle, some (.outcome (.noFrame .noStart))) := by decide
-- section 1.2
theorem test_dangling_escape :
    (nextOf (step (scanning .accumulating 2 [0x41] [0x7B, 0x41, 0x5C]))).map
      (fun t => (t.rxbuf, t.out.rxOut))
      = some ([0x7B, 0x41, 0x5C], some (.outcome (.noFrame .danglingEscape))) := by decide
-- section 8: the streaming machine on trace A
theorem test_streaming_trace :
    (Stream.run Cfg.t0c Stream.initial [0x41, 0x7B, 0x43, 0x5C, 0x7D, 0xCB, 0x7D, 0x7B, 0x42])
      = ⟨⟨.acc, [0x42], [0x7B, 0x42]⟩, [.payload [0x43, 0x7D]], []⟩ := by decide +kernel
-- the encoder steps of chunk 7B under T0C: 7B, 5C 7B, E8, 7D
theorem test_enc_stuff_step :
    (nextOf (step (encoding .body 0 [0x7B] [0x7B]))).map (fun t => (t.txBuf, t.txPos))
      = some ([0x7B, 0x5C, 0x7B], 1) := by decide
theorem test_enc_trailer_step :
    (nextOf (step (encoding .body 1 [0x7B] [0x7B, 0x5C, 0x7B]))).map (fun t => (t.txBuf, t.txPhase))
      = some ([0x7B, 0x5C, 0x7B, 0xE8], .closing) := by decide +kernel
theorem test_enc_close_step :
    (nextOf (step (encoding .closing 1 [0x7B] [0x7B, 0x5C, 0x7B, 0xE8]))).map
      (fun t => (t.act, t.txChunk, t.txBuf, t.out.txOut))
      = some (.idle, [], [], some [0x7B, 0x5C, 0x7B, 0xE8, 0x7D]) := by decide
-- the host's two definitions: a table word decodes, and the next step runs it
theorem test_table_word_start : decodeTableWord 8 0x7B = some .seekStart := by decide
theorem test_table_word_skip : decodeTableWord 8 0x41 = some (.seekSkip 0x41) := by decide
theorem test_fetch_word_runs :
    step (State.reset.withFetchWord 8 0x7B)
      = exec .seekStart (State.reset.withFetchWord 8 0x7B) := rfl

-- rule R47 with R27: a held APPEND holds the owner's RESET back, not the sender's ENCODE
theorem test_held_append_lets_the_sender_through :
    (nextOf (step { holding t0cCap6 [0x7B, 0x41, 0x42, 0x43] with
      ops := [.line "APPEND" [[0x44, 0x45, 0x46]], .line "RESET" [], .line "ENCODE" [cs]] })).map
      (fun t => (t.rxbuf, t.ops, t.out.txOut))
      = some ([0x7B, 0x41, 0x42, 0x43], [.line "APPEND" [[0x44, 0x45, 0x46]], .line "RESET" []],
          some [0x7B, 0x43, 0x53, 0xC7, 0x7D]) := by decide +kernel
theorem test_held_append_holds_the_owner :
    faultOf (step { holding t0cCap6 [0x7B, 0x41, 0x42, 0x43] with
      ops := [.line "APPEND" [[0x44, 0x45, 0x46]]] }) = some .bufferFull := by decide +kernel
-- 95_test_vectors.md section 6.4: after the APPEND that has no step the script goes on
theorem test_held_append_is_given_up :
    (nextOf (step { holding t0cCap6 [0x7B, 0x41, 0x42, 0x43] with
      ops := [.line "APPEND" [[0x44, 0x45, 0x46]], .line "APPEND" [[0x44, 0x45]],
        .line "EXTRACT" []] })).map (fun t => (t.rxbuf, t.ops))
      = some ([0x7B, 0x41, 0x42, 0x43, 0x44, 0x45], [.line "EXTRACT" []]) := by decide +kernel
theorem test_full_buffer_is_left_by_reset :
    (nextOf (step { holding t0cCap6 [0x7B, 0x41, 0x42, 0x43, 0x44, 0x45] with
      ops := [.line "APPEND" [[0x7D]], .line "RESET" []] })).map (fun t => (t.rxbuf, t.ops))
      = some ([], []) := by decide +kernel
-- rule R90 states no result for this accumulator value, and CRC.BIT runs on it
theorem test_crc_bit_out_of_range_completes :
    (nextOf (exec (.crcBit 0x100 true) State.reset)).isSome = true := by decide
-- rule R21: in PARITY mode there is no generator to return a remainder of
theorem test_no_generator_at_the_end_of_a_division :
    faultOf (step { State.resetOf Cfg.t0p with act := .dividing }) = some .noGenerator := by decide

/-! ### Witnesses: a concrete state and operands that meet all hypotheses of each obligation -/

theorem witness_ReceiveRowsFollowTheOperationMap :
    Cfg.t0c.wf = true ∧ Cfg.t0p.wf = true := by decide
theorem witness_EncoderRowsFollowTheOperationMap :
    Cfg.t0c.wf = true ∧ Cfg.t0p.wf = true := by decide
theorem witness_DecodeOfEncodeIsIdentity :
    Cfg.t0c.wf = true ∧ (Instr.accEscPair 0x7B).wf Cfg.t0c = true
      ∧ (Instr.crcBit 0xFF true).wf Cfg.t0c = true := by decide
theorem witness_DecodedOperationsAreWellFormed :
    Cfg.t0c.wf = true ∧ "SEEK.SKIP" ∉ opNames
      ∧ decode Cfg.t0c (.op "ATTEMPT" [[]]) = .ok (.attempt []) := by decide
theorem witness_StepRunsTheDecodedInstruction_scanning :
    let s := scanning .accumulating 1 [] [0x7B]
    s.act = .scanning ∧ s.scanInRange = true
      ∧ decode s.cfg (.scan s.st s.cand.isEmpty (s.rxbuf.drop s.sp)) = .ok .accEnd := by decide
theorem witness_StepRunsTheDecodedInstruction_encoding :
    let s := encoding .opening 0 [] []
    s.act = .encoding
      ∧ decode s.cfg (.tx s.txPhase (s.txChunk.drop s.txPos)) = .ok .encOpen := by decide
theorem witness_StepRunsTheDecodedInstruction_dividing :
    let s := dividing 0x86 [false]
    s.act = .dividing ∧ s.crcBits = [false]
      ∧ decode s.cfg (.div s.acc false) = .ok (.crcBit 0x86 false) := by decide
theorem witness_StepRunsTheDecodedInstruction_idle :
    let s := { State.reset with ops := [.line "EXTRACT" []] }
    s.act = .idle ∧ s.ops = [.line "EXTRACT" []]
      ∧ decode s.cfg (.op "EXTRACT" []) = .ok .extract := by decide
theorem witness_StepRunsTheDecodedInstruction_held :
    let s := { holding t0cCap6 [0x7B, 0x41, 0x42, 0x43] with
      ops := ([.line "APPEND" [[0x44, 0x45, 0x46]], .line "RESET" [], .line "ENCODE" [cs],
        .startEncode []] : List Request) }
    s.act = .idle
      ∧ nextOf (runRequest (.line "APPEND" [[0x44, 0x45, 0x46]]) { s with ops := s.ops.tail }) = none
      ∧ s.ops = Request.line "APPEND" [[0x44, 0x45, 0x46]] :: [Request.line "RESET" []]
          ++ Request.line "ENCODE" [cs] :: [Request.startEncode []]
      ∧ (∀ r ∈ [Request.line "RESET" []], r.isSend = false)
      ∧ decode s.cfg (.op "ENCODE" [cs]) = .ok (.encode cs) := by decide +kernel
theorem witness_StepRunsTheDecodedInstruction_given_up :
    let s := { holding t0cCap6 [0x7B, 0x41, 0x42, 0x43] with
      ops := ([.line "APPEND" [[0x44, 0x45, 0x46]], .line "RESET" []] : List Request) }
    s.act = .idle
      ∧ decode s.cfg (.op "APPEND" [[0x44, 0x45, 0x46]]) = .ok (.append [0x44, 0x45, 0x46])
      ∧ faultOf (exec (.append [0x44, 0x45, 0x46]) { s with ops := s.ops.tail }) = some .bufferFull
      ∧ (∀ r ∈ s.ops.tail, r.isSend = false) ∧ s.ops.tail ≠ [] := by decide +kernel
theorem witness_StartRequestsAndWaiting_held :
    let s := { holding t0cCap6 [0x7B, 0x41, 0x42, 0x43] with
      ops := ([.line "APPEND" [[0x44, 0x45, 0x46]], .startAttempt, .startEncode cs] :
        List Request) }
    s.cfg.wf = true ∧ s.act = .idle
      ∧ nextOf (runRequest (.line "APPEND" [[0x44, 0x45, 0x46]]) { s with ops := s.ops.tail }) = none
      ∧ s.ops = Request.line "APPEND" [[0x44, 0x45, 0x46]] :: [Request.startAttempt]
          ++ Request.startEncode cs :: []
      ∧ (∀ r ∈ [Request.startAttempt], r.isSend = false) := by decide +kernel
theorem witness_StartRequestsAndWaiting :
    ∀ r ∈ [[Request.startAttempt], [.startEncode []], [.startCrc []], []],
      ({ State.reset with ops := r } : State).cfg.wf = true
        ∧ ({ State.reset with ops := r } : State).act = .idle
        ∧ ({ State.reset with ops := r } : State).cfg.scheme = .crc 0x1D5 9 := by decide
theorem witness_NoRequestIsTakenInsideAnOperation :
    let s := scanning .accumulating 1 [] [0x7B]
    s.act ≠ .idle ∧ (nextOf (step s)).isSome = true := by decide
theorem witness_IllFormedConfigurationIsRefused :
    (State.resetOf { Cfg.t0c with stopTag := 0x7B }).cfg.wf = false := by decide
theorem witness_WhereRowsAndCrcFunctionsStop :
    State.reset.cfg.wf = true ∧ Instr.seekEnd.isMicroStep = true
      ∧ State.reset.selects .seekEnd = false
      ∧ (State.resetOf Cfg.t0p).cfg.scheme = .parity 0x30 0x31 := by decide
theorem witness_SeekEndReportsNoStart :
    let s := scanning .seekingStart 0 [] []
    s.cfg.wf = true ∧ s.act = .scanning ∧ s.st = .seekingStart ∧ s.sp = 0 ∧ s.rxbuf = []
      ∧ (nextOf (exec .seekEnd s)).isSome = true := by decide
theorem witness_SeekingStartsAtStartAndDropsGarbage :
    ∀ p ∈ [((0x7B : Byte), Instr.seekStart), (0x5C, .seekSkip 0x5C)],
      let s := scanning .seekingStart 0 [] [p.1]
      s.cfg.wf = true ∧ s.act = .scanning ∧ s.st = .seekingStart ∧ s.sp = 0
        ∧ s.rxbuf.read? 0 = some p.1 ∧ (nextOf (exec p.2 s)).isSome = true := by decide
theorem witness_AccumulatingRowsGatherStopAndWait :
    ∀ p ∈ [(([0x5C, 0x7D] : Bytes), Instr.accEscPair 0x7D), ([0x5C], .accEscDangle),
        ([0x7D], .accStop), ([0x00], .accData 0x00), ([], .accEnd)],
      let s := scanning .accumulating 1 [] (0x7B :: p.1)
      s.cfg.wf = true ∧ s.act = .scanning ∧ s.st = .accumulating
        ∧ s.rxbuf.read? s.sp = p.1.head? ∧ (nextOf (exec p.2 s)).isSome = true := by decide
theorem witness_EmbeddedStartSupersedesSilently :
    let s := scanning .accumulating 2 [0x41] [0x7B, 0x41, 0x7B]
    s.cfg.wf = true ∧ s.act = .scanning ∧ s.st = .accumulating
      ∧ s.rxbuf.read? s.sp = some s.cfg.startTag
      ∧ (nextOf (exec .accStart s)).isSome = true := by decide
theorem witness_ValidationDeliversOrReportsCorrupt :
    ∀ t ∈ [(0xC7 : Byte), 0xC6],
      let s := scanning .done 5 (cs ++ [t]) []
      s.cfg.wf = true ∧ s.act = .scanning ∧ s.st = .done ∧ s.cand = cs ++ [t]
        ∧ (t = computeTrailer s.cfg cs ∨ t ≠ computeTrailer s.cfg cs)
        ∧ (nextOf (exec .doneValidate s)).isSome = true := by decide +kernel
theorem witness_ValidationDeliversOrReportsCorrupt_both :
    (0xC7 : Byte) = computeTrailer Cfg.t0c cs ∧ (0xC6 : Byte) ≠ computeTrailer Cfg.t0c cs :=
  by decide +kernel
theorem witness_EmptyCandidateIsCorrupt :
    let s := scanning .done 1 [] []
    s.cfg.wf = true ∧ s.act = .scanning ∧ s.st = .done ∧ s.cand = []
      ∧ (nextOf (exec .doneEmpty s)).isSome = true := by decide
theorem witness_PayloadBytesAreStuffedByTheirValue :
    ∀ p ∈ [((0x7B : Byte), Instr.encStuff 0x7B), (0x7D, .encStuff 0x7D), (0x5C, .encStuff 0x5C),
        (0x7A, .encPlain 0x7A)],
      let s := encoding .body 0 [p.1] [0x7B]
      s.cfg.wf = true ∧ s.act = .encoding ∧ s.txPhase = .body ∧ s.txChunk[s.txPos]? = some p.1
        ∧ (nextOf (exec p.2 s)).isSome = true := by decide
theorem witness_FrameOpensAndClosesWithUnstuffedTrailer :
    ∀ p ∈ [(TxPhase.opening, Instr.encOpen), (.body, .encTrailer), (.closing, .encClose)],
      let s := encoding p.1 0 [] [0x7B]
      s.cfg.wf = true ∧ s.act = .encoding ∧ s.txPhase = p.1 ∧ s.txChunk.length ≤ s.txPos
        ∧ (nextOf (exec p.2 s)).isSome = true := by decide
theorem witness_ParityOfTellsAnOddNumberOfOnes :
    State.reset.cfg.wf = true ∧ (nextOf (exec (.parityOf cs) State.reset)).isSome = true := by decide
theorem witness_ValidityIsRecomputeAndCompare :
    State.reset.cfg.wf = true ∧ (State.resetOf Cfg.t0p).cfg.wf = true
      ∧ (State.resetOf Cfg.t0p).cfg.scheme = .parity 0x30 0x31
      ∧ (nextOf (exec (.trailerIsValid cs 0x31) (State.resetOf Cfg.t0p))).isSome = true := by decide
theorem witness_ChunksAreFullPiecesInOrder :
    State.reset.cfg.wf = true ∧ (nextOf (exec (.chunks cs) State.reset)).isSome = true := by decide
theorem witness_StreamingMachineEqualsFeed :
    ∀ c ∈ [Cfg.t0c, t0cCap6], c.wf = true ∧ (holding c []).rxbuf = []
      ∧ Memory.fits c.bufCap [] ([0xAA, 0x7B, 0x43, 0x53, 0xC7, 0x7D] : Bytes) = true := by decide
theorem witness_FragmentationDoesNotMatter :
    State.reset.cfg.wf = true ∧ State.reset.rxbuf = []
      ∧ (∀ c ∈ [Cfg.t0c, t0cCap6],
          Memory.fits c.bufCap [] ([[0x7B, 0x43], [], [0x53, 0xC7, 0x7D]] : List Bytes).flatten = true)
      ∧ (history ([[0x7B, 0x43], [], [0x53, 0xC7, 0x7D]].map .feed) State.reset).map (·.outs)
          = some [.payload cs] := by decide +kernel
theorem witness_InvariantRulesOutMicroStepFaults :
    let s := scanning .accumulating 1 [] [0x7B]
    s.inv = true ∧ s.act ≠ .idle ∧ (nextOf (step s)).isSome = true := by decide
theorem witness_EncodeEmitsExactlyOneFrame :
    State.reset.cfg.wf = true ∧ (nextOf (exec (.encode [0x7B]) State.reset)).isSome = true := by decide
theorem witness_EncodeChunksConcatenatesTheFramesOfTheChunks :
    State.reset.cfg.wf = true
      ∧ (nextOf (exec (.encodeChunks [0x7B]) State.reset)).isSome = true := by decide
theorem witness_AppendAddsAtTheTail :
    let s := holding t0cCap6 [0x7B, 0x41, 0x42, 0x43]
    s.cfg.wf = true ∧ s.cfg.bufCap = some 6
      ∧ s.rxbuf.length + [0x44, 0x45].length ≤ 6 ∧ 6 < s.rxbuf.length + [0x44, 0x45, 0x46].length
      ∧ (nextOf (exec (.append [0x44, 0x45]) s)).isSome = true := by decide
theorem witness_FullBufferWithoutFrameIsStuck :
    ∀ p ∈ [(([0x41, 0x42, 0x43, 0x44, 0x45] : Bytes), ([] : Bytes)),
        ([0x41, 0x42, 0x43, 0x44], [0x5C])],
      let s := holding t0cCap6 (0x7B :: p.1 ++ p.2)
      s.cfg.wf = true ∧ s.cfg.bufCap = some s.rxbuf.length
        ∧ s.rxbuf = s.cfg.startTag :: p.1 ++ p.2 ∧ unstuff s.cfg p.1 = some p.1
        ∧ (p.2 = [] ∨ p.2 = [s.cfg.escapeTag]) ∧ ([0x7D] : Bytes) ≠ [] := by decide
theorem witness_ExtractIsOneAttemptOnTheBuffer :
    State.reset.cfg.wf = true ∧ (nextOf (exec (.attempt [0x7B, 0x7D]) State.reset)).isSome = true
      ∧ (nextOf (exec .extract (holding Cfg.t0c [0x7B, 0x7D]))).isSome = true := by decide
theorem witness_FeedIsAppendThenExtractUntilNoFrame :
    let s := holding t0cCap6 [0x7B, 0x41]
    s.cfg.wf = true ∧ s.cfg.bufCap = some 6 ∧ s.rxbuf.length + [0x48, 0x7D].length ≤ 6
      ∧ 6 < s.rxbuf.length + [0x48, 0x7D, 0x7B, 0x41, 0x42].length
      ∧ (nextOf (exec (.feed [0x48, 0x7D]) s)).isSome = true := by decide
theorem witness_ResetOperationEmptiesTheBuffer :
    (holding Cfg.t0c [0x7B]).cfg.wf = true
      ∧ (nextOf (exec .reset (holding Cfg.t0c [0x7B]))).isSome = true := by decide
theorem witness_NewConnectionStartsEmptyAndSound :
    Cfg.t0p.wf = true ∧ (holding Cfg.t0p [0x7B]).cfg = Cfg.t0p
      ∧ (nextOf (exec .reset (holding Cfg.t0p [0x7B]))).isSome = true := by decide
theorem witness_CrcBitIsOneStepOfLongDivision :
    let s := dividing 0xFF [true]
    s.cfg.wf = true ∧ s.cfg.scheme = .crc 0x1D5 9 ∧ (0xFF : Acc).toNat < 2 ^ (9 - 1)
      ∧ s.act = .dividing ∧ s.acc = 0xFF ∧ s.crcBits.head? = some true
      ∧ (nextOf (exec (.crcBit 0xFF true) s)).isSome = true
      ∧ (nextOf (exec (.crcBit 0xFF true) State.reset)).isSome = true := by decide
theorem witness_CrcRemainderIsLongDivisionFromZero :
    State.reset.cfg.wf = true ∧ State.reset.cfg.scheme = .crc 0x1D5 9
      ∧ (nextOf (exec (.crcRemainder []) State.reset)).isSome = true := by decide
theorem witness_CrcEvaluationTakesEightStepsPerByte :
    let s := { State.reset with ops := [.startCrc []] }
    s.cfg.wf = true ∧ s.cfg.scheme = .crc 0x1D5 9 ∧ s.act = .idle
      ∧ s.ops = .startCrc [] :: [] := by decide
theorem witness_TrailerIsRemainderOrParitySentinel :
    (State.resetOf Cfg.t0p).cfg.wf = true ∧ (State.resetOf Cfg.t0p).cfg.scheme = .parity 0x30 0x31
      ∧ State.reset.cfg.wf = true ∧ State.reset.cfg.scheme = .crc 0x1D5 9 := by decide
theorem witness_AttemptIsItsMicroSteps :
    let s := { holding Cfg.t0c [0x7B] with ops := [.startAttempt] }
    s.cfg.wf = true ∧ s.act = .idle ∧ s.ops = .startAttempt :: [] := by decide
theorem witness_EncodeIsItsByteSteps :
    let s := { State.reset with ops := [.startEncode [0x7B]] }
    s.cfg.wf = true ∧ s.act = .idle ∧ s.ops = .startEncode [0x7B] :: [] := by decide
theorem witness_StepKeepsTheStateInvariant :
    ∀ s ∈ [State.reset, scanning .seekingStart 0 [] [0x41],
        scanning .accumulating 4 [0x43, 0x7D] [0x7B, 0x43, 0x5C, 0x7D, 0x7D],
        scanning .done 9 [0x43] [], encoding .body 1 [0x7B] [0x7B, 0x5C, 0x7B],
        dividing 0xFF [true]],
      s.inv = true ∧ (nextOf (step s)).isSome = true := by decide
theorem witness_BufferAfterExtractFitsTheOutcome :
    ∀ p ∈ [(([] : Bytes), RxOutcome.noFrame .noStart), ([0x7B], .noFrame .incomplete),
        ([0x7B, 0x5C], .noFrame .danglingEscape), ([0x7B, 0x00, 0x7D], .payload []),
        ([0x7B, 0x7D], .corrupt)],
      (holding Cfg.t0c p.1).cfg.wf = true
        ∧ (nextOf (exec .extract (holding Cfg.t0c p.1))).map (·.out.rxOut)
            = some (some (.outcome p.2)) := by decide
theorem witness_BufferChangesOnlyAtItsEnds :
    Instr.accStop ≠ .reset ∧ Instr.accStop.isMicroStep = true ∧ (Instr.encode []).writesNothing = true
      ∧ (nextOf (exec .accStop (scanning .accumulating 1 [] [0x7B, 0x7D]))).isSome = true
      ∧ (nextOf (exec (.encode []) State.reset)).isSome = true := by decide
theorem witness_OperationsWriteOnlyTheBufferAndChannels :
    (Instr.attempt [0x7B]).writesNothing = true ∧ (Instr.feed [0x7B]).receives = true
      ∧ (nextOf (exec (.attempt [0x7B]) State.reset)).isSome = true
      ∧ (nextOf (exec (.feed [0x7B]) State.reset)).isSome = true := by decide
theorem witness_MicroStepsWriteOnlyTheirRegisters :
    Instr.accStart.isScanRow = true ∧ Instr.encClose.isEncoderRow = true
      ∧ (nextOf (exec .accStart (scanning .accumulating 1 [] [0x7B, 0x7B]))).isSome = true
      ∧ (nextOf (exec .encClose (encoding .closing 0 [] [0x7B, 0x00]))).isSome = true := by decide
theorem witness_ConfigurationNeverChanges : (nextOf (step State.reset)).isSome = true := by decide
theorem witness_DiagnosticsInfluenceNothingElse :
    (nextOf (exec .extract (holding Cfg.t0c [0x7B, 0x7D]))).isSome = true := by decide
theorem witness_OnlyChunkingKnowsMaxChunk :
    (nextOf (exec (.feed [0x7B, 0x00, 0x7D]) State.reset)).isSome = true := by decide
theorem witness_ResolvedFrameReportIsPrecise :
    (holding Cfg.t0c [0x7B, 0x7D, 0x55]).cfg.wf = true
      ∧ (nextOf (exec .extract (holding Cfg.t0c [0x7B, 0x7D, 0x55]))).map
          (fun t => (t.rxbuf, t.out.rxOut)) = some ([0x55], some (.outcome .corrupt)) := by decide
theorem witness_ConditionsOfAnAttemptComeInOrder :
    Cfg.t0c.wf = true ∧ (attempt Cfg.t0c [0x41, 0x7B, 0x42, 0x7B, 0x7D]).raised
      = [.garbage 0x41, .superseded [0x7B, 0x42], .corrupt []] := by decide
theorem witness_StuffedRegionParsesBackToThePayload :
    Cfg.t0c.wf = true ∧ Cfg.t0c.isTag 0xC7 = false ∧ Cfg.t0c.isTag 0x5C = true := by decide
theorem witness_RoundTripDeliversTheChunks :
    (nextOf (exec (.encodeChunks cs) State.reset)).map (·.out.txOut)
        = some (some [0x7B, 0x43, 0x53, 0xC7, 0x7D])
      ∧ (nextOf (exec (.chunks cs) State.reset)).map (·.out.ret) = some (some (.chunks [cs]))
      ∧ Cfg.t0c.isTag (computeTrailer Cfg.t0c cs) = false
      ∧ Memory.fits t0cCap6.bufCap [] [0x7B, 0x43, 0x53, 0xC7, 0x7D] = true
      ∧ Cfg.t0p.scheme.mode = .parity := by decide +kernel
theorem witness_HistoryDependsOnlyOnAppendedBytes :
    let before := [Instr.append [0x7B, 0x43, 0x53, 0xC7, 0x7D, 0x7B], .extract]
    (∀ i ∈ before, i.receives = true)
      ∧ Memory.fits t0cCap6.bufCap [] ((before ++ [Instr.extract]).flatMap Instr.appends) = true
      ∧ (history before State.reset).map (fun h => (h.outs, h.final.rxbuf))
          = some ([.payload cs], [0x7B])
      ∧ (nextOf (exec .extract (holding Cfg.t0c [0x7B]))).map (·.out.rxOut)
          = some (some (.outcome (.noFrame .incomplete))) := by decide +kernel
theorem witness_SingleBitFlipIsReportedCorrupt :
    Cfg.t0c.detectsSingleBit = true ∧ Cfg.t0p.detectsSingleBit = true
      ∧ Cfg.t0c.isTag (computeTrailer Cfg.t0c ([0x43] ++ 0x7D :: [])) = false
      ∧ Cfg.t0c.isTag 0x7D = true ∧ Cfg.t0c.isTag (flipBit 0x43 0) = false
      ∧ Cfg.t0c.isTag (flipBit (computeTrailer Cfg.t0c [0x43, 0x7D]) 0) = false := by decide +kernel
theorem witness_WellFormedFrameIsDeliveredAfterAnything :
    (nextOf (exec (.feed [0xAA, 0x7B, 0x41]) State.reset)).map (·.rxbuf) = some [0x7B, 0x41]
      ∧ (nextOf (exec .extract (holding Cfg.t0c [0x7B, 0x41]))).map (·.out.rxOut)
          = some (some (.outcome (.noFrame .incomplete)))
      ∧ Cfg.t0c.isTag (computeTrailer Cfg.t0c cs) = false
      ∧ (nextOf (exec (.encode cs) State.reset)).isSome = true := by decide +kernel
theorem witness_DanglingEscapeTakesTheNextByte :
    let s := holding Cfg.t0c [0x7B, 0x41, 0x5C]
    s.cfg.wf = true ∧ Memory.fits s.cfg.bufCap s.rxbuf [0x7D] = true
      ∧ s.rxbuf = [s.cfg.startTag, 0x41, s.cfg.escapeTag] ∧ s.cfg.isTag 0x41 = false := by decide
theorem witness_ParityFrameOfTheTwoLetterPayload :
    let s := State.resetOf Cfg.t0p
    s.cfg.wf = true ∧ s.rxbuf = [] ∧ s.cfg.scheme = .parity 0x30 0x31
      ∧ Memory.fits s.cfg.bufCap s.rxbuf [0x7B, 0x43, 0x53, 0x31, 0x7D] = true
      ∧ s.cfg.isTag 0x43 = false ∧ s.cfg.isTag 0x53 = false := by decide
theorem witness_TagValuedTrailerBreaksTheFrame :
    State.reset.cfg.scheme = .crc 0x1D5 9
      ∧ crcRemainder 0x1D5 9 [0x18] = Cfg.t0c.startTag ∧ crcRemainder 0x1D5 9 [0x0F] = Cfg.t0c.stopTag
      ∧ crcRemainder 0x1D5 9 [0x33] = Cfg.t0c.escapeTag
      ∧ (nextOf (exec (.encode [0x18]) State.reset)).isSome = true := by decide +kernel
/-- The wrong-payload clause of rule R161 (95_test_vectors.md section 4.4: STOP = 00, chunk 01 D5). -/
theorem witness_TagValuedTrailerBreaksTheFrame_wrong_payload :
    ({ Cfg.t0c with stopTag := 0 } : Cfg).wf = true ∧ crcRemainder 0x1D5 9 [0x01, 0xD5] = 0
      ∧ (0xD5 : Byte) = crcRemainder 0x1D5 9 [0x01] := by decide +kernel
theorem witness_CrcIsThePolynomialRemainder :
    Cfg.t0c.wf = true ∧ Cfg.t0c.scheme = .crc 0x1D5 9 := by decide
theorem witness_ZeroRemainderFormsOfTheCheck :
    Cfg.t0c.wf = true ∧ Cfg.t0c.scheme = .crc 0x1D5 9 ∧ 0x1D5 % 2 = 1 := by decide
theorem witness_CrcDetectsEverySingleBitError :
    Cfg.t0c.wf = true ∧ Cfg.t0c.scheme = .crc 0x1D5 9 ∧ 0x1D5 ≠ 0x100
      ∧ ([0x43, 0x52] ++ [0xC7] : Bytes)
          = (cs ++ [crcRemainder 0x1D5 9 cs]).modify 1 (fun b => flipBit b 0) := by decide +kernel
theorem witness_ParityDetectsOddErrorsOnly :
    Cfg.t0p.wf = true ∧ Cfg.t0p.scheme.mode = .parity
      ∧ ((List.zipWith (· ^^^ ·) cs ([0x42, 0x53] : Bytes)).map onesOf).sum % 2 = 1
      ∧ ((List.zipWith (· ^^^ ·) cs ([0x40, 0x53] : Bytes)).map onesOf).sum % 2 = 0
      ∧ (0x32 : Byte) ≠ computeTrailer Cfg.t0p cs := by decide

end Sys2Proof.Tests
end

/-! SUPPORT. Scope and configuration (spec/00_scope.md): what a step can do, said once, and that
neither an operation nor a step writes `CFG`. -/

namespace Sys2Proof.Machine

/-- Every meaning checks the configuration before it answers anything (rule R11, decision D5). -/
theorem exec_eq_underWF (i : Instr) (s : State) : ∃ r, exec i s = underWF s r := by
  cases i <;> exact ⟨_, rfl⟩

/-! ### What a request and a step can do -/

/-- The sender's request taken from a list is one of the list. -/
theorem takeSend_mem {l : List Request} {p : Request × List Request} (h : takeSend l = some p) :
    p.1 ∈ l := by
  induction l generalizing p with
  | nil => simp [takeSend] at h
  | cons r rest ih =>
    by_cases hr : r.isSend = true
    · obtain rfl : (r, rest) = p := by simpa [takeSend, hr] using h
      exact List.mem_cons_self
    · simp only [takeSend, if_neg hr, Option.map_eq_some_iff] at h
      obtain ⟨q, hq, rfl⟩ := h
      exact List.mem_cons_of_mem r (ih hq :)

/-- A next state of a list of requests is that of one request taken from it, or, with no request, the
same state. -/
theorem takeRequest_next_cases {l : List Request} {s t : State} (h : takeRequest l s = .next t) :
    (l = [] ∧ t = s) ∨ ∃ r ∈ l, ∃ rest, runRequest r { s with ops := rest } = .next t := by
  induction l with
  | nil => exact .inl ⟨rfl, by simpa using h.symm⟩
  | cons r rest ih =>
    refine .inr ?_
    by_cases hstep : ∃ u, runRequest r { s with ops := rest } = .next u
    · obtain ⟨u, hu⟩ := hstep
      exact ⟨r, List.mem_cons_self, rest, by rw [hu, ← takeRequest_of_next hu, h]⟩
    · cases hs : takeSend rest with
      | some p =>
        rw [takeRequest_of_send (not_exists.1 hstep) hs] at h
        exact ⟨p.1, List.mem_cons_of_mem r (takeSend_mem hs), r :: p.2, h⟩
      | none =>
        by_cases hheld : runRequest r { s with ops := rest } = .fault .bufferFull ∧ rest ≠ []
        · rw [takeRequest_of_bufferFull hheld.1 hs hheld.2] at h
          obtain ⟨hnil, -⟩ | ⟨q, hq, hrun⟩ := ih h
          · exact absurd hnil hheld.2
          · exact ⟨q, List.mem_cons_of_mem r hq, hrun⟩
        · rw [takeRequest_of_stop (by tauto) hs] at h
          exact absurd ⟨t, h⟩ hstep

/-- A next state of a step is that of the row the operation map selects, of the end of a CRC
evaluation, of waiting, or of a request taken (rules R7, R8, R45, R46). -/
theorem step_next_cases {s t : State} (h : step s = .next t) :
    (∃ i, s.selects i = true ∧ exec i s = .next t)
      ∨ (s.act = .dividing ∧ s.crcBits = []
          ∧ withGenerator s (fun _ _ q => q.endCrc) = .next t)
      ∨ (s.act = .idle ∧ s.ops = [] ∧ t = s)
      ∨ (s.act = .idle ∧ ∃ r ∈ s.ops, ∃ rest, runRequest r { s with ops := rest } = .next t) := by
  obtain ⟨a, hact⟩ : ∃ a, s.act = a := ⟨_, rfl⟩
  cases a with
  | idle =>
    rw [step_of_idle hact] at h
    obtain ⟨hops, rfl⟩ | hrun := takeRequest_next_cases h
    · exact .inr (.inr (.inl ⟨hact, hops, rfl⟩))
    · exact .inr (.inr (.inr ⟨hact, hrun⟩))
  | scanning =>
    by_cases hin : s.scanInRange = true
    · simp only [step, hact, hin, if_true] at h
      exact .inl ⟨_, (selects_of_scanning hact).2 ⟨hin, rfl⟩, h⟩
    · simp [step, hact, hin] at h
  | encoding =>
    simp only [step, hact] at h
    exact .inl ⟨_, (selects_of_encoding hact).2 rfl, h⟩
  | dividing =>
    cases hbits : s.crcBits with
    | nil =>
      simp only [step, hact, State.divWord?, hbits] at h
      exact .inr (.inl ⟨hact, rfl, h⟩)
    | cons bit rest =>
      simp only [step, hact, State.divWord?, hbits] at h
      exact .inl ⟨_, (selects_of_dividing hact).2 ⟨bit, rest, hbits, rfl⟩, h⟩

/-! ### The configuration is read-only -/

/-- A micro-step keeps the configuration when its effect does. -/
theorem microStep_cfg {i : Instr} {s t : State} {f : State → State}
    (h : microStep i s f = .next t) (hf : ∀ q, (f q).cfg = q.cfg) : t.cfg = s.cfg := by
  obtain ⟨-, -, rfl⟩ := microStep_eq_next.1 h
  exact hf s.quiet

/-- An atomic operation keeps the configuration when its effect does. -/
theorem atomically_cfg {s t : State} {f : State → State}
    (h : atomically s f = .next t) (hf : ∀ q, (f q).cfg = q.cfg) : t.cfg = s.cfg := by
  obtain ⟨-, rfl⟩ := atomically_eq_next.1 h
  exact hf s.quiet

/-- An appending operation keeps the configuration when its effect does. -/
theorem whenFits_cfg {bytes : Bytes} {s t : State} {f : State → State}
    (h : whenFits bytes s f = .next t) (hf : ∀ q, (f q).cfg = q.cfg) : t.cfg = s.cfg := by
  obtain ⟨-, -, rfl⟩ := whenFits_eq_next.1 h
  exact hf s.quiet

/-- An operation on the generator keeps the configuration when its effect does. -/
theorem withGenerator_cfg {s t : State} {f : Nat → Nat → State → State}
    (h : withGenerator s f = .next t) (hf : ∀ poly len q, (f poly len q).cfg = q.cfg) :
    t.cfg = s.cfg := by
  obtain ⟨-, poly, len, -, rfl⟩ := withGenerator_eq_next.1 h
  exact hf poly len s.quiet

@[simp] theorem validateCandidate_cfg (s : State) (p : Bytes) (t : Byte) :
    (validateCandidate s p t).cfg = s.cfg := by
  unfold validateCandidate
  split <;> simp

/-- No operation writes the configuration (rules R9, R21, decision D4). -/
theorem exec_cfg {i : Instr} {s t : State} (h : exec i s = .next t) : t.cfg = s.cfg := by
  cases i with
  | seekEnd | seekStart | seekSkip | accEnd | accEscPair | accEscDangle | accStop | accStart
  | accData | doneEmpty | encOpen | encStuff | encPlain | encTrailer | encClose =>
    rw [exec] at h
    exact microStep_cfg h fun _ => rfl
  | doneValidate =>
    rw [exec] at h
    exact microStep_cfg h fun _ => by split <;> simp
  | encode | encodeChunks | extract | reset | parityOf | trailerCompute | trailerIsValid | chunks
  | attempt =>
    rw [exec] at h
    exact atomically_cfg h fun _ => rfl
  | append | feed =>
    rw [exec] at h
    exact whenFits_cfg h fun _ => rfl
  | crcBit =>
    rw [exec] at h
    exact withGenerator_cfg h fun _ _ _ => by dsimp only; split <;> rfl
  | crcRemainder =>
    rw [exec] at h
    exact withGenerator_cfg h fun _ _ _ => rfl

/-- Taking a request writes no configuration. -/
theorem runRequest_cfg {r : Request} {s t : State} (h : runRequest r s = .next t) :
    t.cfg = s.cfg := by
  cases r with
  | line name args =>
    rw [runRequest] at h
    cases hd : decode s.cfg (.op name args) with
    | ok i => exact exec_cfg (by simpa only [runDecoded, hd] using h)
    | rejected e => simp [runDecoded, hd] at h
  | startAttempt => exact atomically_cfg h fun _ => rfl
  | startEncode chunk =>
    rw [runRequest] at h
    exact atomically_cfg h fun _ => rfl
  | startCrc bytes =>
    rw [runRequest] at h
    exact withGenerator_cfg h fun _ _ _ => rfl

/-- No step writes the configuration (rules R9, R21, decision D4). -/
theorem step_cfg {s t : State} (h : step s = .next t) : t.cfg = s.cfg := by
  obtain ⟨i, -, hexec⟩ | ⟨-, -, hend⟩ | ⟨-, -, rfl⟩ | ⟨-, r, -, rest, hrun⟩ := step_next_cases h
  · exact exec_cfg hexec
  · exact withGenerator_cfg hend fun _ _ _ => rfl
  · rfl
  · exact (runRequest_cfg hrun :)

/-! ### The obligations of the scope -/

/-- Settles O9: every meaning is the check of the configuration before its answer. -/
theorem illFormedConfigurationIsRefused : Obligations.IllFormedConfigurationIsRefused := by
  intro s i hwf
  obtain ⟨r, hr⟩ := exec_eq_underWF i s
  rw [hr, underWF_of_not_wf hwf]

/-- Settles O43: by what a step can do, and that no operation writes the configuration. -/
theorem configurationNeverChanges : Obligations.ConfigurationNeverChanges :=
  fun _ _ h => step_cfg h

/-- Settles O5: the eleven items are closed, so the decoder evaluates each. -/
theorem sampleWordsDecodeAsTheTableSays : Obligations.SampleWordsDecodeAsTheTableSays := by
  unfold Obligations.SampleWordsDecodeAsTheTableSays
  decide

end Sys2Proof.Machine

/-! SUPPORT. The rows of the operation map as tables, and un-stuffing (spec/30_encoding.md
rules R61, R66, R68, R69). -/

namespace Sys2Proof.Machine

/-! ### Byte classes and un-stuffing -/

theorem eq_startTag_of_classOf {c : Cfg} {b : Byte} (h : c.classOf b = .start) :
    b = c.startTag := by
  unfold Cfg.classOf at h
  split_ifs at h
  assumption

theorem eq_stopTag_of_classOf {c : Cfg} {b : Byte} (h : c.classOf b = .stop) : b = c.stopTag := by
  unfold Cfg.classOf at h
  split_ifs at h
  assumption

theorem eq_escapeTag_of_classOf {c : Cfg} {b : Byte} (h : c.classOf b = .escape) :
    b = c.escapeTag := by
  unfold Cfg.classOf at h
  split_ifs at h
  assumption

@[simp] theorem unstuff_nil (c : Cfg) : unstuff c [] = some [] := by rw [unstuff]

theorem unstuff_cons_other {c : Cfg} {b : Byte} (h : c.classOf b = .other) (rest : Bytes) :
    unstuff c (b :: rest) = (unstuff c rest).map (b :: ·) := by
  rw [unstuff.eq_def]
  simp only [h]

theorem unstuff_cons_escape {c : Cfg} {b : Byte} (h : c.classOf b = .escape) (x : Byte)
    (rest : Bytes) : unstuff c (b :: x :: rest) = (unstuff c rest).map (x :: ·) := by
  rw [unstuff, h]

/-- Un-stuffing goes on where a region that parses completely ends (rule R66). -/
theorem unstuff_append {c : Cfg} {region cand : Bytes} (h : unstuff c region = some cand)
    (rest : Bytes) : unstuff c (region ++ rest) = (unstuff c rest).map (cand ++ ·) := by
  fun_induction unstuff c region generalizing cand with
  | case1 => cases h; simp
  | case3 b hb x rest' ih =>
    obtain ⟨u, hu, rfl⟩ := Option.map_eq_some_iff.1 h
    simp [unstuff_cons_escape hb, ih hu, Function.comp_def]
  | case4 b rest' hb ih =>
    obtain ⟨u, hu, rfl⟩ := Option.map_eq_some_iff.1 h
    simp [unstuff_cons_other hb, ih hu, Function.comp_def]
  | case2 | case5 | case6 => simp at h

/-- Un-stuffing adds no byte (rule R61). -/
theorem length_le_of_unstuff {c : Cfg} {region cand : Bytes} (h : unstuff c region = some cand) :
    cand.length ≤ region.length := by
  fun_induction unstuff c region generalizing cand with
  | case1 => cases h; simp
  | case3 b hb x rest' ih =>
    obtain ⟨u, hu, rfl⟩ := Option.map_eq_some_iff.1 h
    have := ih hu
    simp only [List.length_cons]
    omega
  | case4 b rest' hb ih =>
    obtain ⟨u, hu, rfl⟩ := Option.map_eq_some_iff.1 h
    simpa using ih hu
  | case2 | case5 | case6 => simp at h

/-! ### Which row is selected, and what it can consume -/

/-- The receive side of the operation map as a table: what is true where a row is selected (rule
R68). -/
inductive ScanRow (c : Cfg) (st : RxState) (candEmpty : Bool) (rest : Bytes) : Instr → Prop
  | seekEnd : st = .seekingStart → rest = [] → ScanRow c st candEmpty rest .seekEnd
  | seekStart (tail : Bytes) : st = .seekingStart → rest = c.startTag :: tail →
      ScanRow c st candEmpty rest .seekStart
  | seekSkip (b : Byte) (tail : Bytes) : st = .seekingStart → rest = b :: tail → b ≠ c.startTag →
      ScanRow c st candEmpty rest (.seekSkip b)
  | accEnd : st = .accumulating → rest = [] → ScanRow c st candEmpty rest .accEnd
  | accEscPair (e x : Byte) (tail : Bytes) : st = .accumulating → rest = e :: x :: tail →
      c.classOf e = .escape → ScanRow c st candEmpty rest (.accEscPair x)
  | accEscDangle (e : Byte) : st = .accumulating → rest = [e] → c.classOf e = .escape →
      ScanRow c st candEmpty rest .accEscDangle
  | accStop (tail : Bytes) : st = .accumulating → rest = c.stopTag :: tail →
      ScanRow c st candEmpty rest .accStop
  | accStart (tail : Bytes) : st = .accumulating → rest = c.startTag :: tail →
      ScanRow c st candEmpty rest .accStart
  | accData (b : Byte) (tail : Bytes) : st = .accumulating → rest = b :: tail →
      c.classOf b = .other → ScanRow c st candEmpty rest (.accData b)
  | doneValidate : st = .done → candEmpty = false → ScanRow c st candEmpty rest .doneValidate
  | doneEmpty : st = .done → candEmpty = true → ScanRow c st candEmpty rest .doneEmpty

/-- The decoder selects by the table. -/
theorem scanRow_decodeScan (c : Cfg) (st : RxState) (candEmpty : Bool) (rest : Bytes) :
    ScanRow c st candEmpty rest (decodeScan c st candEmpty rest) := by
  cases st with
  | seekingStart =>
    cases rest with
    | nil => exact .seekEnd rfl rfl
    | cons b tail =>
      by_cases hb : b = c.startTag
      · simpa [decodeScan, hb] using ScanRow.seekStart tail rfl rfl
      · simpa [decodeScan, hb] using ScanRow.seekSkip b tail rfl rfl hb
  | accumulating =>
    cases rest with
    | nil => exact .accEnd rfl rfl
    | cons b tail =>
      cases hb : c.classOf b with
      | start =>
        simpa [decodeScan, hb] using ScanRow.accStart tail rfl (by rw [eq_startTag_of_classOf hb])
      | stop =>
        simpa [decodeScan, hb] using ScanRow.accStop tail rfl (by rw [eq_stopTag_of_classOf hb])
      | escape =>
        cases tail with
        | nil => simpa [decodeScan, hb] using ScanRow.accEscDangle b rfl rfl hb
        | cons x tail => simpa [decodeScan, hb] using ScanRow.accEscPair b x tail rfl rfl hb
      | other => simpa [decodeScan, hb] using ScanRow.accData b tail rfl rfl hb
  | done =>
    cases candEmpty
    · exact .doneValidate rfl rfl
    · exact .doneEmpty rfl rfl

/-- The transmit side of the operation map as a table (rule R69). -/
inductive TxRow (c : Cfg) (phase : TxPhase) (rest : Bytes) : Instr → Prop
  | encOpen : phase = .opening → TxRow c phase rest .encOpen
  | encTrailer : phase = .body → rest = [] → TxRow c phase rest .encTrailer
  | encStuff (b : Byte) (tail : Bytes) : phase = .body → rest = b :: tail → c.isTag b = true →
      TxRow c phase rest (.encStuff b)
  | encPlain (b : Byte) (tail : Bytes) : phase = .body → rest = b :: tail → c.isTag b = false →
      TxRow c phase rest (.encPlain b)
  | encClose : phase = .closing → TxRow c phase rest .encClose

/-- The decoder selects by the table. -/
theorem txRow_decodeTx (c : Cfg) (phase : TxPhase) (rest : Bytes) :
    TxRow c phase rest (decodeTx c phase rest) := by
  cases phase with
  | opening => exact .encOpen rfl
  | body =>
    cases rest with
    | nil => exact .encTrailer rfl rfl
    | cons b tail =>
      cases hb : c.isTag b
      · simpa [decodeTx, hb] using TxRow.encPlain b tail rfl rfl hb
      · simpa [decodeTx, hb] using TxRow.encStuff b tail rfl rfl hb
  | closing => exact .encClose rfl

/-- Where a row is selected, by what is in progress (rules R68, R69, R91). -/
theorem selects_cases {s : State} {i : Instr} (h : s.selects i = true) :
    (s.act = .scanning ∧ s.scanInRange = true ∧
        ScanRow s.cfg s.st s.cand.isEmpty (s.rxbuf.drop s.sp) i) ∨
      (s.act = .encoding ∧ TxRow s.cfg s.txPhase (s.txChunk.drop s.txPos) i) ∨
      (s.act = .dividing ∧ ∃ bit, i = .crcBit s.acc bit) := by
  cases hact : s.act with
  | idle => simp [selects_of_idle hact] at h
  | scanning =>
    obtain ⟨hrange, rfl⟩ := (selects_of_scanning hact).1 h
    exact .inl ⟨rfl, hrange, scanRow_decodeScan ..⟩
  | encoding =>
    obtain rfl := (selects_of_encoding hact).1 h
    exact .inr (.inl ⟨rfl, txRow_decodeTx ..⟩)
  | dividing =>
    obtain ⟨bit, -, -, rfl⟩ := (selects_of_dividing hact).1 h
    exact .inr (.inr ⟨rfl, bit, rfl⟩)

/-- A micro-step that answers is the selected row. -/
theorem selects_of_exec_microStep {i : Instr} {s t : State} (hi : i.isMicroStep = true)
    (h : exec i s = .next t) : s.selects i = true := by
  cases i with
  | seekEnd | seekStart | seekSkip | accEnd | accEscPair | accEscDangle | accStop | accStart
  | accData | doneValidate | doneEmpty | encOpen | encStuff | encPlain | encTrailer | encClose =>
    rw [exec] at h
    obtain ⟨-, hsel, -⟩ := microStep_eq_next.1 h
    exact hsel
  | _ => cases hi

/-- A position with a byte after it is inside. -/
theorem lt_length_of_drop_eq_cons {l tail : Bytes} {b : Byte} {k : Nat}
    (h : l.drop k = b :: tail) : k < l.length :=
  List.length_lt_of_drop_ne_nil (by simp [h])

/-- A scan row consumes bytes that are there (rule R50). -/
theorem ScanRow.rowConsumes_le_length {s : State} {candEmpty : Bool} {i : Instr}
    (hrow : ScanRow s.cfg s.st candEmpty (s.rxbuf.drop s.sp) i) :
    s.rowConsumes i ≤ s.rxbuf.length := by
  cases hrow with
  | seekSkip b tail hst hrest | accStop tail hst hrest | accStart tail hst hrest =>
    have hlt := lt_length_of_drop_eq_cons hrest
    simp only [State.rowConsumes]
    omega
  | _ => exact Nat.zero_le _

theorem rowConsumes_le_length {s : State} {i : Instr} (h : s.selects i = true) :
    s.rowConsumes i ≤ s.rxbuf.length := by
  obtain ⟨-, -, hrow⟩ | ⟨-, hrow⟩ | ⟨-, bit, rfl⟩ := selects_cases h
  · exact hrow.rowConsumes_le_length
  · cases hrow <;> exact Nat.zero_le _
  · exact Nat.zero_le _

end Sys2Proof.Machine

/-! SUPPORT. What each family of operations writes, said once (spec/10_state.md rule R35). -/

namespace Sys2Proof.Machine

/-- What `DONE.VALIDATE` writes: the scan registers, the activity, RX_OUT and DIAG. -/
theorem validateCandidate_frame (s : State) (p : Bytes) (tr : Byte) :
    ∃ out, validateCandidate s p tr = { s.endAttempt with out := out } ∧
      out.txOut = s.out.txOut ∧ out.ret = s.out.ret := by
  unfold validateCandidate
  split <;> exact ⟨_, rfl, rfl, rfl⟩

/-- DONE.VALIDATE validates the split candidate, and with none to split writes nothing. -/
theorem exec_doneValidate_cases {s t : State} (h : exec .doneValidate s = .next t) :
    t = s.quiet ∨ ∃ p tr, t = validateCandidate s.quiet p tr := by
  rw [exec] at h
  obtain ⟨-, -, rfl⟩ := microStep_eq_next.1 h
  split
  · exact .inr ⟨_, _, rfl⟩
  · exact .inl rfl

/-- An RX_SCAN row consumes what rule R50 says at the head of RXBUF, and otherwise writes the scan
registers, the activity and the receive channels only. -/
theorem exec_scanRow_frame {i : Instr} {s t : State} (hi : i.isScanRow = true)
    (h : exec i s = .next t) :
    t = { s with
        rxbuf := s.rxbuf.consume (s.rowConsumes i), act := t.act, st := t.st, sp := t.sp,
        cand := t.cand, out := t.out } ∧
      t.out.txOut = none ∧ t.out.ret = none := by
  cases i with
  | seekEnd | seekStart | seekSkip | accEnd | accEscPair | accEscDangle | accStop | accStart
  | accData | doneEmpty =>
    rw [exec] at h
    obtain ⟨-, -, rfl⟩ := microStep_eq_next.1 h
    exact ⟨rfl, rfl, rfl⟩
  | doneValidate =>
    obtain rfl | ⟨p, tr, rfl⟩ := exec_doneValidate_cases h
    · exact ⟨rfl, rfl, rfl⟩
    · obtain ⟨out, hout, htx, hret⟩ := validateCandidate_frame s.quiet p tr
      rw [hout]
      exact ⟨rfl, htx, hret⟩
  | _ => cases hi

/-- A TX_STEP row writes the encoder's registers, the activity and TX_OUT only, and the chunk at
ENC.CLOSE only (rule R49). -/
theorem exec_encoderRow_frame {i : Instr} {s t : State} (hi : i.isEncoderRow = true)
    (h : exec i s = .next t) :
    t = { s with
        act := t.act, txChunk := t.txChunk, txPos := t.txPos, txPhase := t.txPhase,
        txBuf := t.txBuf, out := t.out } ∧
      (i ≠ .encClose → t.txChunk = s.txChunk) ∧
      t.out.rxOut = none ∧ t.out.diag = [] ∧ t.out.ret = none := by
  cases i with
  | encOpen | encStuff | encPlain | encTrailer =>
    rw [exec] at h
    obtain ⟨-, -, rfl⟩ := microStep_eq_next.1 h
    exact ⟨rfl, fun _ => rfl, rfl, rfl, rfl⟩
  | encClose =>
    rw [exec] at h
    obtain ⟨-, -, rfl⟩ := microStep_eq_next.1 h
    exact ⟨rfl, fun hne => absurd rfl hne, rfl, rfl, rfl⟩
  | _ => cases hi

/-- The transmit operations and the pure functions write TX_OUT or return a value, and nothing else
(rules R35, R75). -/
theorem exec_writesNothing_frame {i : Instr} {s t : State} (hi : i.writesNothing = true)
    (h : exec i s = .next t) :
    t = { s with out := t.out } ∧ t.out.rxOut = none ∧ t.out.diag = [] := by
  cases i with
  | encode | encodeChunks | parityOf | trailerCompute | trailerIsValid | chunks | attempt =>
    rw [exec] at h
    obtain ⟨-, rfl⟩ := atomically_eq_next.1 h
    exact ⟨rfl, rfl, rfl⟩
  | crcRemainder =>
    rw [exec] at h
    obtain ⟨-, poly, len, -, rfl⟩ := withGenerator_eq_next.1 h
    exact ⟨rfl, rfl, rfl⟩
  | _ => cases hi

/-- The receive operations and RESET write RXBUF and the receive channels only (rule R35). -/
theorem exec_receives_frame {i : Instr} {s t : State} (hi : i.receives = true ∨ i = .reset)
    (h : exec i s = .next t) :
    t = { s with rxbuf := t.rxbuf, out := t.out } ∧ t.out.txOut = none ∧ t.out.ret = none := by
  cases i with
  | append | feed =>
    rw [exec] at h
    obtain ⟨-, -, rfl⟩ := whenFits_eq_next.1 h
    exact ⟨rfl, rfl, rfl⟩
  | extract | reset =>
    rw [exec] at h
    obtain ⟨-, rfl⟩ := atomically_eq_next.1 h
    exact ⟨rfl, rfl, rfl⟩
  | _ => rcases hi with hi | hi <;> cases hi

/-- CRC.BIT writes the registers of a CRC evaluation only (rule R26). -/
theorem exec_crcBit_frame {a : Acc} {bit : Bool} {s t : State}
    (h : exec (.crcBit a bit) s = .next t) :
    t = { s with acc := t.acc, crcBits := t.crcBits, out := t.out } := by
  rw [exec] at h
  obtain ⟨-, poly, len, -, rfl⟩ := withGenerator_eq_next.1 h
  dsimp only
  split <;> rfl

/-- The families of the operation map, by what their members write. -/
theorem instr_family (i : Instr) :
    i.isMicroStep = true ∨ i.writesNothing = true ∨ (i.receives = true ∨ i = .reset) ∨
      ∃ a bit, i = .crcBit a bit := by
  cases i <;> simp [Instr.isMicroStep, Instr.writesNothing, Instr.receives]

end Sys2Proof.Machine

/-! SUPPORT. RXBUF changes at its two ends (spec/20_memory.md rule R50). -/

namespace Sys2Proof.Machine

theorem conclude_buf (c : Cfg) (cand : Bytes) (rest : Memory) : (conclude c cand rest).buf = rest :=
  rfl

/-- What step 2 of an attempt leaves is a tail of the buffer it was given. -/
theorem accumulate_buf_suffix (c : Cfg) (raw cand rest : Bytes) :
    (accumulate c raw cand rest).buf <:+ raw ++ rest := by
  fun_induction accumulate c raw cand rest with
  | case1 raw cand => simp
  | case2 raw cand b hb => exact List.suffix_rfl
  | case3 raw cand b hb x rest ih => simpa using ih
  | case4 raw cand b rest hb => exact ⟨raw ++ [b], by simp [conclude_buf]⟩
  | case5 raw cand b rest hb ih => exact ih.trans (List.suffix_append raw _)
  | case6 raw cand b rest hb ih => simpa using ih

/-- What an attempt leaves is a tail of the buffer (rule R50). -/
theorem attempt_buf_suffix (c : Cfg) (buf : Memory) : (attempt c buf).buf <:+ buf := by
  induction buf with
  | nil => exact List.suffix_rfl
  | cons b rest ih =>
    by_cases hb : b = c.startTag
    · simpa [attempt, hb] using accumulate_buf_suffix c [b] [] rest
    · simpa [attempt, hb, Attempt.after] using ih.trans (List.suffix_cons b rest)

/-- What the drain loop leaves is a tail of the buffer (rule R50). -/
theorem drainFuel_buf_suffix (c : Cfg) (fuel : Nat) (buf : Memory) :
    (drainFuel c fuel buf).buf <:+ buf := by
  induction fuel generalizing buf with
  | zero => exact List.suffix_rfl
  | succ fuel ih =>
    have ha := attempt_buf_suffix c buf
    cases ho : (attempt c buf).outcome.decoded? with
    | none => simpa [drainFuel, ho] using ha
    | some o => simpa [drainFuel, ho] using (ih _).trans ha

/-- Only APPEND and FEED bring bytes. -/
theorem appends_eq_nil {i : Instr} (hi : i.isMicroStep = true ∨ i.writesNothing = true) :
    i.appends = [] := by
  cases i with
  | append | feed => rcases hi with hi | hi <;> cases hi
  | _ => rfl

/-- A micro-step consumes what rule R50 says at the head of RXBUF, an encoder's nothing. -/
theorem exec_microStep_rxbuf {i : Instr} {s t : State} (hi : i.isMicroStep = true)
    (h : exec i s = .next t) : t.rxbuf = s.rxbuf.consume (s.rowConsumes i) := by
  cases i with
  | seekEnd | seekStart | seekSkip | accEnd | accEscPair | accEscDangle | accStop | accStart
  | accData | doneValidate | doneEmpty => rw [(exec_scanRow_frame rfl h).1]
  | encOpen | encStuff | encPlain | encTrailer | encClose =>
    rw [(exec_encoderRow_frame rfl h).1]
    rfl
  | _ => cases hi

/-- APPEND adds its bytes at the tail (rule R140). -/
theorem exec_append_rxbuf {bytes : Bytes} {s t : State} (h : exec (.append bytes) s = .next t) :
    t.rxbuf = s.rxbuf.append bytes := by
  rw [exec] at h
  obtain ⟨-, -, rfl⟩ := whenFits_eq_next.1 h
  rfl

/-- An operation other than RESET removes bytes at the head of RXBUF only, after adding its own
at the tail (rules R22, R50). -/
theorem exec_rxbuf_suffix {i : Instr} {s t : State} (hi : i ≠ .reset) (h : exec i s = .next t) :
    t.rxbuf <:+ s.rxbuf ++ i.appends := by
  cases i with
  | seekEnd | seekStart | seekSkip | accEnd | accEscPair | accEscDangle | accStop | accStart
  | accData | doneValidate | doneEmpty | encOpen | encStuff | encPlain | encTrailer | encClose =>
    rw [exec_microStep_rxbuf rfl h, appends_eq_nil (.inl rfl), List.append_nil]
    exact List.drop_suffix _ s.rxbuf
  | encode | encodeChunks | crcRemainder | parityOf | trailerCompute | trailerIsValid | chunks
  | attempt =>
    rw [(exec_writesNothing_frame rfl h).1]
    simp [Instr.appends]
  | crcBit =>
    rw [exec_crcBit_frame h]
    simp [Instr.appends]
  | append bytes =>
    rw [exec_append_rxbuf h]
    exact List.suffix_rfl
  | extract =>
    rw [exec] at h
    obtain ⟨-, rfl⟩ := atomically_eq_next.1 h
    simpa [Instr.appends] using attempt_buf_suffix s.cfg s.rxbuf
  | feed bytes =>
    rw [exec] at h
    obtain ⟨-, -, rfl⟩ := whenFits_eq_next.1 h
    exact drainFuel_buf_suffix s.cfg _ (s.rxbuf.append bytes)
  | reset => exact absurd rfl hi

end Sys2Proof.Machine

/-! SUPPORT. How an attempt ends, and what it leaves in RXBUF (spec/10_state.md rule R34,
spec/42_decode.md rule R133, spec/43_receive_buffer.md rule R141). -/

namespace Sys2Proof.Machine

/-- The four ends of an attempt on `n` bytes: what it leaves in the buffer for each outcome (rules
R34, R133, R141).  An attempt that found no frame records nothing. -/
inductive AttemptEnd (c : Cfg) (n : Nat) (a : Attempt) : Prop
  | noStart : a.outcome = .noFrame .noStart → a.buf = [] →
      a.raised.filterMap Condition.record? = [] → AttemptEnd c n a
  | incomplete (region cand : Bytes) : a.outcome = .noFrame .incomplete →
      a.buf = c.startTag :: region → unstuff c region = some cand →
      a.raised.filterMap Condition.record? = [] → AttemptEnd c n a
  | dangling (region cand : Bytes) : a.outcome = .noFrame .danglingEscape →
      a.buf = c.startTag :: region ++ [c.escapeTag] → unstuff c region = some cand →
      a.raised.filterMap Condition.record? = [] → AttemptEnd c n a
  | resolved : (∀ r, a.outcome ≠ .noFrame r) → a.buf.length + 2 ≤ n → AttemptEnd c n a

/-- Garbage or a superseded frame before it changes nothing of how an attempt ends. -/
theorem AttemptEnd.after {c : Cfg} {n m : Nat} {a : Attempt} {k : Condition}
    (h : AttemptEnd c n a) (hk : k.record? = none) (hnm : n ≤ m) : AttemptEnd c m (a.after k) := by
  have hraised : (a.after k).raised.filterMap Condition.record?
      = a.raised.filterMap Condition.record? := List.filterMap_cons_none hk
  cases h with
  | noStart ho hbuf hr => exact .noStart ho hbuf (hraised.trans hr)
  | incomplete region cand ho hbuf hu hr =>
    exact .incomplete region cand ho hbuf hu (hraised.trans hr)
  | dangling region cand ho hbuf hu hr => exact .dangling region cand ho hbuf hu (hraised.trans hr)
  | resolved ho hlen => exact .resolved ho (hlen.trans hnm)

/-- A delimited frame is never reported as no frame (rules R130, R131). -/
theorem verdict_ne_noFrame (c : Cfg) (cand : Bytes) (r : Reason) :
    (verdict c cand).1 ≠ .noFrame r := by
  unfold verdict
  split
  · simp
  · split <;> simp

/-- How step 2 of an attempt ends, when what it has scanned is START and a region that un-stuffs. -/
theorem accumulate_end {c : Cfg} {raw region cand : Bytes} (rest : Bytes)
    (hraw : raw = c.startTag :: region) (hcand : unstuff c region = some cand) :
    AttemptEnd c (raw.length + rest.length) (accumulate c raw cand rest) := by
  fun_induction accumulate c raw cand rest generalizing region with
  | case1 raw cand => exact .incomplete region cand rfl hraw hcand rfl
  | case2 raw cand b hb =>
    exact .dangling region cand rfl (by rw [hraw, eq_escapeTag_of_classOf hb]) hcand rfl
  | case3 raw cand b hb x rest ih =>
    have hparsed : unstuff c (region ++ [b, x]) = some (cand ++ [x]) := by
      simp [unstuff_append hcand, unstuff_cons_escape hb]
    simpa [Nat.add_assoc, Nat.add_comm 2] using ih (by simp [hraw]) hparsed
  | case4 raw cand b rest hb =>
    refine .resolved (verdict_ne_noFrame c cand) ?_
    simp only [conclude_buf, hraw, List.length_cons]
    omega
  | case5 raw cand b rest hb ih =>
    refine (ih (region := []) (by rw [eq_startTag_of_classOf hb]) (unstuff_nil c)).after rfl ?_
    simp only [hraw, List.length_cons, List.length_nil]
    omega
  | case6 raw cand b rest hb ih =>
    have hparsed : unstuff c (region ++ [b]) = some (cand ++ [b]) := by
      simp [unstuff_append hcand, unstuff_cons_other hb]
    simpa [Nat.add_assoc, Nat.add_comm 1] using ih (by simp [hraw]) hparsed

/-- An attempt on any buffer has one of the four ends: garbage before START shortens it only. -/
theorem attempt_end (c : Cfg) (buf : Memory) : AttemptEnd c buf.length (attempt c buf) := by
  induction buf with
  | nil => exact .noStart rfl rfl rfl
  | cons b rest ih =>
    by_cases hb : b = c.startTag
    · simpa [attempt, hb, Nat.add_comm] using accumulate_end rest rfl (unstuff_nil c)
    · simpa [attempt, hb] using ih.after (k := .garbage b) rfl (Nat.le_succ _)

/-- Step 2 of an attempt walks a region that parses, byte and escape pair by escape pair. -/
theorem accumulate_append {c : Cfg} {region u : Bytes} (hu : unstuff c region = some u)
    (raw cand rest : Bytes) :
    accumulate c raw cand (region ++ rest) = accumulate c (raw ++ region) (cand ++ u) rest := by
  fun_induction unstuff c region generalizing raw cand u with
  | case1 => cases hu; simp
  | case3 b hb x region ih =>
    obtain ⟨v, hv, rfl⟩ := Option.map_eq_some_iff.1 hu
    simp [accumulate, hb, ih hv]
  | case4 b region hb ih =>
    obtain ⟨v, hv, rfl⟩ := Option.map_eq_some_iff.1 hu
    rw [List.cons_append, accumulate.eq_def]
    simp [hb, ih hv]
  | case2 | case5 | case6 => simp at hu

/-- An attempt on a frame in progress finds it incomplete and leaves it (rule R129). -/
theorem attempt_of_region {c : Cfg} {region cand : Bytes} (h : unstuff c region = some cand) :
    attempt c (c.startTag :: region) =
      ⟨.noFrame .incomplete, c.startTag :: region, [.incomplete .incomplete]⟩ := by
  have hwalk := accumulate_append h [c.startTag] [] []
  rw [List.append_nil] at hwalk
  simp [attempt, hwalk, accumulate]

/-- An attempt on a frame in progress that ends in an escape leaves it (rule R125). -/
theorem attempt_of_dangling {c : Cfg} {region cand : Bytes} (hwf : c.wf = true)
    (h : unstuff c region = some cand) :
    attempt c (c.startTag :: region ++ [c.escapeTag]) =
      ⟨.noFrame .danglingEscape, c.startTag :: region ++ [c.escapeTag],
        [.incomplete .danglingEscape]⟩ := by
  have hwalk := accumulate_append h [c.startTag] [] [c.escapeTag]
  simp [attempt, hwalk, accumulate, classOf_escapeTag hwf]

theorem diagEvents_eq_nil {c : Cfg} {raised : List Condition}
    (h : raised.filterMap Condition.record? = []) : diagEvents c raised = [] := by
  simp [diagEvents, h]

/-- After an attempt that found no frame another one finds the same and leaves the same, and neither
records anything (rules R133, R141). -/
theorem attempt_again {c : Cfg} (hwf : c.wf = true) {buf : Memory} {r : Reason}
    (h : (attempt c buf).outcome = .noFrame r) :
    diagEvents c (attempt c buf).raised = [] ∧
      ∃ raised, attempt c (attempt c buf).buf = ⟨.noFrame r, (attempt c buf).buf, raised⟩ ∧
        diagEvents c raised = [] := by
  cases attempt_end c buf with
  | noStart ho hbuf hr =>
    obtain rfl : r = .noStart := by simpa [ho] using h.symm
    exact ⟨diagEvents_eq_nil hr, [], by rw [hbuf, attempt], diagEvents_eq_nil rfl⟩
  | incomplete region cand ho hbuf hu hr =>
    obtain rfl : r = .incomplete := by simpa [ho] using h.symm
    exact ⟨diagEvents_eq_nil hr, _, by rw [hbuf, attempt_of_region hu], diagEvents_eq_nil rfl⟩
  | dangling region cand ho hbuf hu hr =>
    obtain rfl : r = .danglingEscape := by simpa [ho] using h.symm
    exact ⟨diagEvents_eq_nil hr, _, by rw [hbuf, attempt_of_dangling hwf hu], diagEvents_eq_nil rfl⟩
  | resolved ho => exact absurd h (ho r)

/-- What EXTRACT answers (rule R141). -/
theorem exec_extract {s : State} (hwf : s.cfg.wf = true) :
    exec .extract s = .next { s with
      rxbuf := (attempt s.cfg s.rxbuf).buf
      out := { rxOut := some (.outcome (attempt s.cfg s.rxbuf).outcome)
               diag := diagEvents s.cfg (attempt s.cfg s.rxbuf).raised } } := by
  rw [exec]
  exact atomically_eq_next.2 ⟨hwf, rfl⟩

/-- After a `NO_FRAME` another EXTRACT changes nothing (rule R141). -/
theorem exec_extract_again {s t : State} {r : Reason} (hwf : s.cfg.wf = true)
    (h : exec .extract s = .next t) (ho : (attempt s.cfg s.rxbuf).outcome = .noFrame r) :
    exec .extract t = .next t := by
  have hwf' : t.cfg.wf = true := exec_cfg h ▸ hwf
  obtain ⟨hsilent, raised, hagain, hsilent'⟩ := attempt_again hwf ho
  rw [exec_extract hwf, Host.Outcome.next.injEq] at h
  rw [exec_extract hwf', ← h]
  simp only [hagain, hsilent, hsilent', ho]

end Sys2Proof.Machine

/-! SUPPORT. The invariant of the state is kept (spec/10_state.md rules R24 to R27,
spec/42_decode.md rule R134, spec/41_encode.md rule R110, spec/40_trailer_arithmetic.md rule
R92). -/

namespace Sys2Proof.Machine

/-! ### The invariant by what is in progress -/

theorem inv_of_idle {s : State} (h : s.act = .idle) :
    s.inv = true ↔ s.cfg.wf = true ∧ Memory.wf s.cfg.bufCap s.rxbuf = true := by
  simp [State.inv, h]

theorem inv_of_scanning {s : State} (h : s.act = .scanning) :
    s.inv = true ↔
      (s.cfg.wf = true ∧ Memory.wf s.cfg.bufCap s.rxbuf = true) ∧ s.scanInv = true := by
  simp [State.inv, h]

theorem inv_of_encoding {s : State} (h : s.act = .encoding) :
    s.inv = true ↔
      (s.cfg.wf = true ∧ Memory.wf s.cfg.bufCap s.rxbuf = true) ∧ s.encInv = true := by
  simp [State.inv, h]

theorem inv_of_dividing {s : State} (h : s.act = .dividing) :
    s.inv = true ↔
      (s.cfg.wf = true ∧ Memory.wf s.cfg.bufCap s.rxbuf = true) ∧ s.divInv = true := by
  simp [State.inv, h]

/-- Whatever is in progress, the invariant has the configuration well-formed and RXBUF within its
capacity (rules R27, R201). -/
theorem wf_of_inv {s : State} (h : s.inv = true) :
    s.cfg.wf = true ∧ Memory.wf s.cfg.bufCap s.rxbuf = true := by
  simp only [State.inv, Bool.and_eq_true] at h
  exact h.1

/-- A tail of a buffer within the capacity is within it. -/
theorem Memory.wf_of_suffix {cap : Option Nat} {m m' : Memory} (hs : m' <:+ m)
    (h : Memory.wf cap m = true) : Memory.wf cap m' = true := by
  rw [List.suffix_iff_eq_drop.1 hs]
  exact Memory.wf_drop cap m _ h

/-- What an operation that answers appends had room (rules R27, R140, R142). -/
theorem wf_append_of_exec {i : Instr} {s t : State} (h : exec i s = .next t)
    (hm : Memory.wf s.cfg.bufCap s.rxbuf = true) :
    Memory.wf s.cfg.bufCap (s.rxbuf ++ i.appends) = true := by
  cases i with
  | append bytes | feed bytes =>
    rw [exec] at h
    obtain ⟨-, hfits, -⟩ := whenFits_eq_next.1 h
    exact (Memory.wf_append _ s.rxbuf bytes).trans hfits
  | _ => simpa [Instr.appends] using hm

/-- No operation takes RXBUF over its capacity (rule R27). -/
theorem exec_keeps_memory_wf {i : Instr} {s t : State} (h : exec i s = .next t)
    (hm : Memory.wf s.cfg.bufCap s.rxbuf = true) : Memory.wf t.cfg.bufCap t.rxbuf = true := by
  rw [exec_cfg h]
  by_cases hi : i = .reset
  · subst hi
    rw [exec] at h
    obtain ⟨-, rfl⟩ := atomically_eq_next.1 h
    exact Memory.wf_of_suffix (List.nil_suffix) hm
  · exact Memory.wf_of_suffix (exec_rxbuf_suffix hi h) (wf_append_of_exec h hm)

/-! ### The registers of an attempt -/

theorem scanInv_of_seeking {s : State} (h : s.st = .seekingStart) :
    s.scanInv = true ↔ s.sp = 0 ∧ s.cand = [] := by
  simp [State.scanInv, h]

theorem scanInv_of_done {s : State} (h : s.st = .done) : s.scanInv = true := by
  simp [State.scanInv, h]

/-- Rule R134 (a) to (e) in one shape: START, then the region scanned so far, which un-stuffs to
`cand`, then what the attempt has not looked at. -/
theorem scanInv_of_accumulating {s : State} (h : s.st = .accumulating) :
    s.scanInv = true ↔ ∃ region rest, s.rxbuf = s.cfg.startTag :: region ++ rest ∧
      s.sp = region.length + 1 ∧ unstuff s.cfg region = some s.cand := by
  simp only [State.scanInv, h, Bool.and_eq_true, decide_eq_true_eq]
  constructor
  · rintro ⟨⟨⟨⟨hhead, hpos⟩, hle⟩, hcand⟩, -⟩
    obtain ⟨tail, hbuf⟩ := List.head?_eq_some_iff.1 hhead
    obtain ⟨k, hk⟩ : ∃ k, s.sp = k + 1 := ⟨s.sp - 1, by omega⟩
    rw [hbuf, hk] at hle hcand
    refine ⟨tail.take k, tail.drop k, by simp [hbuf], ?_, by simpa using hcand⟩
    simp only [List.length_cons] at hle
    rw [hk, List.length_take, Nat.min_eq_left (by omega)]
  · rintro ⟨region, rest, hbuf, hsp, hcand⟩
    have hlen := length_le_of_unstuff hcand
    simp [hbuf, hsp, hcand, hlen]

/-- The registers of an attempt that has scanned a region. -/
theorem scanInv_of_region {s : State} {region rest : Bytes} (hst : s.st = .accumulating)
    (hbuf : s.rxbuf = s.cfg.startTag :: region ++ rest) (hsp : s.sp = region.length + 1)
    (hcand : unstuff s.cfg region = some s.cand) : s.scanInv = true :=
  (scanInv_of_accumulating hst).2 ⟨region, rest, hbuf, hsp, hcand⟩

/-- One byte or escape pair more scanned is its data more gathered (rules R124, R128). -/
theorem scanInv_scan {s t : State} {token data tail : Bytes} (hinv : s.scanInv = true)
    (hst : s.st = .accumulating) (hrest : s.rxbuf.drop s.sp = token ++ tail)
    (htoken : unstuff s.cfg token = some data)
    (ht : t = { s with out := t.out, cand := s.cand ++ data, sp := s.sp + token.length }) :
    t.scanInv = true := by
  obtain ⟨region, rest, hbuf, hsp, hcand⟩ := (scanInv_of_accumulating hst).1 hinv
  obtain rfl : rest = token ++ tail := by simpa [hbuf, hsp] using hrest
  rw [ht]
  refine scanInv_of_region (region := region ++ token) (rest := tail) hst ?_ ?_ ?_
  · simp [hbuf]
  · simp [hsp, Nat.add_right_comm]
  · simp [unstuff_append hcand, htoken]

/-- A scan row keeps the registers of the attempt as rule R134 says, or ends the attempt. -/
theorem exec_scanRow_keeps_scanInv {i : Instr} {s t : State} (hact : s.act = .scanning)
    (hinv : s.scanInv = true) (h : exec i s = .next t)
    (hrow : ScanRow s.cfg s.st s.cand.isEmpty (s.rxbuf.drop s.sp) i) :
    t.act = .idle ∨ t.act = .scanning ∧ t.scanInv = true := by
  cases hrow with
  | seekEnd | accEnd | accEscDangle | doneEmpty =>
    rw [exec] at h
    obtain ⟨-, -, rfl⟩ := microStep_eq_next.1 h
    exact .inl rfl
  | seekStart tail hst hrest =>
    rw [exec] at h
    obtain ⟨-, -, rfl⟩ := microStep_eq_next.1 h
    obtain ⟨hsp, -⟩ := (scanInv_of_seeking hst).1 hinv
    rw [hsp, List.drop_zero] at hrest
    exact .inr ⟨hact, scanInv_of_region (region := []) rfl hrest rfl (unstuff_nil _)⟩
  | seekSkip b tail hst hrest =>
    rw [exec] at h
    obtain ⟨-, -, rfl⟩ := microStep_eq_next.1 h
    have hkept := (scanInv_of_seeking hst).1 hinv
    exact .inr ⟨hact, (scanInv_of_seeking (s := s.quiet.consume 1) hst).2 hkept⟩
  | accEscPair e x tail hst hrest he =>
    rw [exec] at h
    obtain ⟨-, -, rfl⟩ := microStep_eq_next.1 h
    exact .inr ⟨hact, scanInv_scan (token := [e, x]) hinv hst hrest
      (by simp [unstuff_cons_escape he]) rfl⟩
  | accStop tail hst hrest =>
    rw [exec] at h
    obtain ⟨-, -, rfl⟩ := microStep_eq_next.1 h
    exact .inr ⟨hact, scanInv_of_done rfl⟩
  | accStart tail hst hrest =>
    rw [exec] at h
    obtain ⟨-, -, rfl⟩ := microStep_eq_next.1 h
    exact .inr ⟨hact, scanInv_of_region (region := []) hst hrest rfl (unstuff_nil _)⟩
  | accData b tail hst hrest hb =>
    rw [exec] at h
    obtain ⟨-, -, rfl⟩ := microStep_eq_next.1 h
    exact .inr ⟨hact, scanInv_scan (token := [b]) hinv hst hrest
      (by simp [unstuff_cons_other hb]) rfl⟩
  | doneValidate hst =>
    obtain rfl | ⟨p, tr, rfl⟩ := exec_doneValidate_cases h
    · exact .inr ⟨hact, scanInv_of_done hst⟩
    · obtain ⟨out, hout, -⟩ := validateCandidate_frame s.quiet p tr
      rw [hout]
      exact .inl rfl

/-! ### The registers of an ENCODE -/

theorem encInv_of_opening {s : State} (h : s.txPhase = .opening) :
    s.encInv = true ↔ s.txPos = 0 ∧ s.txBuf = [] := by
  simp [State.encInv, h]

theorem encInv_of_body {s : State} (h : s.txPhase = .body) :
    s.encInv = true ↔ s.txPos ≤ s.txChunk.length ∧
      s.txBuf = s.cfg.startTag :: stuffAll s.cfg (s.txChunk.take s.txPos) := by
  simp [State.encInv, h]

theorem encInv_of_closing {s : State} (h : s.txPhase = .closing) :
    s.encInv = true ↔ s.txBuf =
      s.cfg.startTag :: stuffAll s.cfg s.txChunk ++ [computeTrailer s.cfg s.txChunk] := by
  simp [State.encInv, h]

/-- One byte more walked is one byte more stuffed (rules R111, R112). -/
theorem encInv_walk {s t : State} {b : Byte} {tail : Bytes} (hinv : s.encInv = true)
    (hs : s.txPhase = .body) (hrest : s.txChunk.drop s.txPos = b :: tail)
    (ht : t = { s with
      out := t.out, txBuf := s.txBuf ++ stuffed s.cfg b, txPos := s.txPos + 1 }) :
    t.encInv = true := by
  obtain ⟨-, hbuf⟩ := (encInv_of_body hs).1 hinv
  have hlt := lt_length_of_drop_eq_cons hrest
  have hb : s.txChunk[s.txPos] = b := by
    rw [List.drop_eq_getElem_cons hlt] at hrest
    exact (List.cons.inj hrest).1
  have hphase : t.txPhase = .body := by rw [ht]; exact hs
  rw [encInv_of_body hphase, ht]
  exact ⟨hlt, by simp [hbuf, List.take_succ_eq_append_getElem hlt, hb]⟩

/-- A TX_STEP row keeps `out` the frame of what has been walked, or ends the ENCODE. -/
theorem exec_encoderRow_keeps_encInv {i : Instr} {s t : State} (hact : s.act = .encoding)
    (hinv : s.encInv = true) (h : exec i s = .next t)
    (hrow : TxRow s.cfg s.txPhase (s.txChunk.drop s.txPos) i) :
    t.act = .idle ∨ t.act = .encoding ∧ t.encInv = true := by
  cases hrow with
  | encOpen hphase =>
    rw [exec] at h
    obtain ⟨-, -, rfl⟩ := microStep_eq_next.1 h
    obtain ⟨hpos, -⟩ := (encInv_of_opening hphase).1 hinv
    exact .inr ⟨hact, (encInv_of_body rfl).2 (by simp [hpos])⟩
  | encTrailer hphase hrest =>
    rw [exec] at h
    obtain ⟨-, -, rfl⟩ := microStep_eq_next.1 h
    obtain ⟨-, hbuf⟩ := (encInv_of_body hphase).1 hinv
    rw [List.take_of_length_le (List.drop_eq_nil_iff.1 hrest)] at hbuf
    exact .inr ⟨hact, (encInv_of_closing rfl).2 (by simp [hbuf])⟩
  | encStuff b tail hphase hrest hb | encPlain b tail hphase hrest hb =>
    rw [exec] at h
    obtain ⟨-, -, rfl⟩ := microStep_eq_next.1 h
    exact .inr ⟨hact, encInv_walk hinv hphase hrest (by simp [stuffed, hb, State.quiet])⟩
  | encClose =>
    rw [exec] at h
    obtain ⟨-, -, rfl⟩ := microStep_eq_next.1 h
    exact .inl rfl

/-! ### The accumulator of a CRC evaluation -/

/-- The bounds of the generator (rule R11 clause 4). -/
theorem generator_bounds {c : Cfg} {poly len : Nat} (h : c.wf = true)
    (hc : c.scheme = .crc poly len) :
    2 ≤ len ∧ len ≤ 9 ∧ 2 ^ (len - 1) ≤ poly ∧ poly < 2 ^ len := by
  simp only [Cfg.wf, Bool.and_eq_true, Cfg.generatorFits, hc, decide_eq_true_eq] at h
  tauto

/-- A number that does not have its highest bit has one bit less. -/
theorem lt_two_pow_of_testBit_eq_false {x k : Nat} (hx : x < 2 ^ (k + 1))
    (hk : x.testBit k = false) : x < 2 ^ k := by
  refine Nat.lt_pow_two_of_testBit _ fun i hi => ?_
  obtain rfl | hlt := (ge_iff_le.1 hi).eq_or_lt
  · exact hk
  · exact Nat.testBit_lt_two_pow (hx.trans_le (Nat.pow_le_pow_right (by omega) hlt))

/-- A bit step stays below `2^(GEN_LEN-1)`: where the shifted value reaches bit `GEN_LEN-1`, the XOR
with the generator, whose highest bit that is, clears it (rule R92). -/
theorem crcBit_lt {poly len : Nat} {a : Acc} (bit : Bool) (hlen : 2 ≤ len) (hlen9 : len ≤ 9)
    (hlow : 2 ^ (len - 1) ≤ poly) (hhigh : poly < 2 ^ len) (ha : a.toNat < 2 ^ (len - 1)) :
    (crcBit poly len a bit).toNat < 2 ^ (len - 1) := by
  obtain ⟨k, rfl⟩ : ∃ k, len = k + 1 := ⟨len - 1, by omega⟩
  rw [Nat.add_sub_cancel] at hlow ha ⊢
  have h16 : 2 ^ (k + 1) ≤ 2 ^ 16 := Nat.pow_le_pow_right (by omega) (by omega)
  have hshift : ((a <<< 1) ||| (if bit then 1 else 0)).toNat < 2 ^ (k + 1) := by
    rw [BitVec.toNat_or]
    refine Nat.or_lt_two_pow ?_ ?_
    · rw [BitVec.toNat_shiftLeft, Nat.shiftLeft_eq, pow_succ]
      exact (Nat.mod_le _ _).trans_lt (by omega)
    · cases bit <;> simp
  have hpoly : poly.testBit k = true := by
    by_contra hk
    have := lt_two_pow_of_testBit_eq_false hhigh (Bool.not_eq_true _ ▸ hk)
    omega
  simp only [crcBit, Nat.add_sub_cancel]
  generalize (a <<< 1) ||| (if bit then 1 else 0) = shifted at hshift ⊢
  split
  next hbit =>
    rw [BitVec.toNat_xor, BitVec.toNat_ofNat, Nat.mod_eq_of_lt (by omega)]
    refine lt_two_pow_of_testBit_eq_false (Nat.xor_lt_two_pow hshift hhigh) ?_
    rw [Nat.testBit_xor, hpoly, BitVec.testBit_toNat, hbit, Bool.xor_self]
  next hbit =>
    exact lt_two_pow_of_testBit_eq_false hshift
      (by rw [BitVec.testBit_toNat]; exact Bool.not_eq_true _ ▸ hbit)

theorem divInv_of_crc {s : State} {poly len : Nat} (hc : s.cfg.scheme = .crc poly len) :
    s.divInv = true ↔ s.acc.toNat < 2 ^ (len - 1) := by
  simp [State.divInv, Cfg.accInRange, Scheme.mode, hc]

/-- An accumulator in its range makes the invariant of a CRC evaluation. -/
theorem divInv_of_lt {s : State} {poly len : Nat} (hc : s.cfg.scheme = .crc poly len)
    (hacc : s.acc.toNat < 2 ^ (len - 1)) : s.divInv = true := (divInv_of_crc hc).2 hacc

/-- The selected bit step keeps the accumulator in its range (rules R90, R92). -/
theorem exec_crcBit_keeps_divInv {bit : Bool} {s t : State} (hact : s.act = .dividing)
    (hinv : s.divInv = true) (hsel : s.selects (.crcBit s.acc bit) = true)
    (h : exec (.crcBit s.acc bit) s = .next t) : t.act = .dividing ∧ t.divInv = true := by
  rw [exec] at h
  obtain ⟨hwf, poly, len, hc, rfl⟩ := withGenerator_eq_next.1 h
  obtain ⟨hlen, hlen9, hlow, hhigh⟩ := generator_bounds hwf hc
  have hacc := (divInv_of_crc hc).1 hinv
  simp only [hsel, crcBitValue, hacc, if_true]
  exact ⟨hact, divInv_of_lt hc (crcBit_lt bit hlen hlen9 hlow hhigh hacc)⟩

/-! ### What a step takes up -/

/-- The row of what is in progress keeps the invariant. -/
theorem exec_selected_keeps_inv {i : Instr} {s t : State} (hinv : s.inv = true)
    (hsel : s.selects i = true) (h : exec i s = .next t) : t.inv = true := by
  obtain ⟨hwf, hmem⟩ := wf_of_inv hinv
  have hkept : t.cfg.wf = true ∧ Memory.wf t.cfg.bufCap t.rxbuf = true :=
    ⟨exec_cfg h ▸ hwf, exec_keeps_memory_wf h hmem⟩
  obtain ⟨hact, -, hrow⟩ | ⟨hact, hrow⟩ | ⟨hact, bit, rfl⟩ := selects_cases hsel
  · have hscan := ((inv_of_scanning hact).1 hinv).2
    obtain hidle | ⟨hact', hscan'⟩ := exec_scanRow_keeps_scanInv hact hscan h hrow
    · exact (inv_of_idle hidle).2 hkept
    · exact (inv_of_scanning hact').2 ⟨hkept, hscan'⟩
  · have henc := ((inv_of_encoding hact).1 hinv).2
    obtain hidle | ⟨hact', henc'⟩ := exec_encoderRow_keeps_encInv hact henc h hrow
    · exact (inv_of_idle hidle).2 hkept
    · exact (inv_of_encoding hact').2 ⟨hkept, henc'⟩
  · have hdiv := ((inv_of_dividing hact).1 hinv).2
    obtain ⟨hact', hdiv'⟩ := exec_crcBit_keeps_divInv hact hdiv hsel h
    exact (inv_of_dividing hact').2 ⟨hkept, hdiv'⟩

/-- With nothing in progress no operation starts anything: only a start request does (rule R7). -/
theorem exec_keeps_idle {i : Instr} {s t : State} (hact : s.act = .idle) (h : exec i s = .next t) :
    t.act = .idle := by
  obtain hi | hi | hi | ⟨a, bit, rfl⟩ := instr_family i
  · have hsel := selects_of_exec_microStep hi h
    rw [selects_of_idle hact] at hsel
    cases hsel
  · rw [(exec_writesNothing_frame hi h).1]; exact hact
  · rw [(exec_receives_frame hi h).1]; exact hact
  · rw [exec_crcBit_frame h]; exact hact

/-- Taking a request keeps the invariant; a start request sets the registers it starts with (rules
R91, R110, R120). -/
theorem runRequest_keeps_inv {r : Request} {s t : State} (hact : s.act = .idle)
    (hinv : s.inv = true) (h : runRequest r s = .next t) : t.inv = true := by
  obtain ⟨hwf, hmem⟩ := wf_of_inv hinv
  cases r with
  | line name args =>
    rw [runRequest] at h
    cases hd : decode s.cfg (.op name args) with
    | ok i =>
      have hexec : exec i s = .next t := by simpa only [runDecoded, hd] using h
      exact (inv_of_idle (exec_keeps_idle hact hexec)).2
        ⟨exec_cfg hexec ▸ hwf, exec_keeps_memory_wf hexec hmem⟩
    | rejected e => simp [runDecoded, hd] at h
  | startAttempt =>
    rw [runRequest] at h
    obtain ⟨-, rfl⟩ := atomically_eq_next.1 h
    exact (inv_of_scanning rfl).2 ⟨⟨hwf, hmem⟩, (scanInv_of_seeking rfl).2 ⟨rfl, rfl⟩⟩
  | startEncode chunk =>
    rw [runRequest] at h
    obtain ⟨-, rfl⟩ := atomically_eq_next.1 h
    exact (inv_of_encoding rfl).2 ⟨⟨hwf, hmem⟩, (encInv_of_opening rfl).2 ⟨rfl, rfl⟩⟩
  | startCrc bytes =>
    rw [runRequest] at h
    obtain ⟨-, poly, len, hc, rfl⟩ := withGenerator_eq_next.1 h
    exact (inv_of_dividing rfl).2 ⟨⟨hwf, hmem⟩, divInv_of_lt hc (by simp)⟩

end Sys2Proof.Machine

/-! SUPPORT. DIAG influences nothing else: two states that differ in `DIAG_EN` answer alike
(spec/10_state.md rule R31, decision D17). -/

namespace Sys2Proof.Machine

/-- The configuration with DIAG switched on or off. -/
def withDiag (c : Cfg) (e : Bool) : Cfg := { c with diagEn := e }

/-- The state with DIAG switched on or off. -/
def State.switchDiag (s : State) (e : Bool) : State := { s with cfg := withDiag s.cfg e }

@[simp] theorem State.switchDiag_cfg (s : State) (e : Bool) :
    (s.switchDiag e).cfg = withDiag s.cfg e := rfl
@[simp] theorem State.switchDiag_rxbuf (s : State) (e : Bool) :
    (s.switchDiag e).rxbuf = s.rxbuf := rfl
@[simp] theorem State.switchDiag_cand (s : State) (e : Bool) : (s.switchDiag e).cand = s.cand := rfl

/-- `u` is `t` with DIAG switched and other DIAG events, none when it is off (rule R31). -/
def DiagTwin (e : Bool) (t u : State) : Prop :=
  ∃ events : List Bytes,
    u = { t.switchDiag e with out := { t.out with diag := events } } ∧ (e = false → events = [])

/-- Step 2 of an attempt does not read `DIAG_EN`. -/
@[simp] theorem accumulate_withDiag (c : Cfg) (e : Bool) (raw cand rest : Bytes) :
    accumulate (withDiag c e) raw cand rest = accumulate c raw cand rest := by
  have hclass : ∀ b, (withDiag c e).classOf b = c.classOf b := fun _ => rfl
  fun_induction accumulate c raw cand rest with
  | case1 => rfl
  | case2 raw cand b hb => simp [accumulate, hclass, hb]
  | case3 raw cand b hb x rest ih => simp [accumulate, hclass, hb, ih]
  | case4 raw cand b rest hb =>
    rw [accumulate.eq_def]
    simp only [hclass, hb]
    rfl
  | case5 raw cand b rest hb ih | case6 raw cand b rest hb ih =>
    rw [accumulate.eq_def]
    simp [hclass, hb, ih]

/-- An attempt does not read `DIAG_EN`. -/
@[simp] theorem attempt_withDiag (c : Cfg) (e : Bool) (buf : Memory) :
    attempt (withDiag c e) buf = attempt c buf := by
  have hstart : (withDiag c e).startTag = c.startTag := rfl
  induction buf with
  | nil => rfl
  | cons b rest ih => simp [attempt, hstart, ih]

/-- Nor do the attempts of the drain loop. -/
theorem drainFuel_withDiag (c : Cfg) (e : Bool) (fuel : Nat) (buf : Memory) :
    drainFuel (withDiag c e) fuel buf = drainFuel c fuel buf := by
  induction fuel generalizing buf with
  | zero => rfl
  | succ fuel ih => simp [drainFuel, ih]

/-- The drain loop does not read `DIAG_EN`. -/
@[simp] theorem drain_withDiag (c : Cfg) (e : Bool) (buf : Memory) :
    drain (withDiag c e) buf = drain c buf := drainFuel_withDiag c e _ buf

/-! One rule per shared operation: the twin state answers a twin when the effects give twins. -/

theorem microStep_diagTwin {i : Instr} {s t : State} {f : State → State} {e : Bool}
    (h : microStep i s f = .next t)
    (hf : DiagTwin e (f s.quiet) (f (s.quiet.switchDiag e))) :
    ∃ u, microStep i (s.switchDiag e) f = .next u ∧ DiagTwin e t u := by
  obtain ⟨hwf, hsel, rfl⟩ := microStep_eq_next.1 h
  exact ⟨_, microStep_eq_next.2 ⟨hwf, hsel, rfl⟩, hf⟩

theorem atomically_diagTwin {s t : State} {f : State → State} {e : Bool}
    (h : atomically s f = .next t)
    (hf : DiagTwin e (f s.quiet) (f (s.quiet.switchDiag e))) :
    ∃ u, atomically (s.switchDiag e) f = .next u ∧ DiagTwin e t u := by
  obtain ⟨hwf, rfl⟩ := atomically_eq_next.1 h
  exact ⟨_, atomically_eq_next.2 ⟨hwf, rfl⟩, hf⟩

theorem whenFits_diagTwin {bytes : Bytes} {s t : State} {f : State → State} {e : Bool}
    (h : whenFits bytes s f = .next t)
    (hf : DiagTwin e (f s.quiet) (f (s.quiet.switchDiag e))) :
    ∃ u, whenFits bytes (s.switchDiag e) f = .next u ∧ DiagTwin e t u := by
  obtain ⟨hwf, hfits, rfl⟩ := whenFits_eq_next.1 h
  exact ⟨_, whenFits_eq_next.2 ⟨hwf, hfits, rfl⟩, hf⟩

theorem withGenerator_diagTwin {s t : State} {f g : Nat → Nat → State → State} {e : Bool}
    (h : withGenerator s f = .next t)
    (hf : ∀ poly len, DiagTwin e (f poly len s.quiet) (g poly len (s.quiet.switchDiag e))) :
    ∃ u, withGenerator (s.switchDiag e) g = .next u ∧ DiagTwin e t u := by
  obtain ⟨hwf, poly, len, hc, rfl⟩ := withGenerator_eq_next.1 h
  exact ⟨_, withGenerator_eq_next.2 ⟨hwf, poly, len, hc, rfl⟩, hf poly len⟩

/-- Where no DIAG event is reported the twin is the same but for the switch. -/
theorem diagTwin_switchDiag {t : State} (e : Bool) (h : t.out.diag = []) :
    DiagTwin e t (t.switchDiag e) := by
  refine ⟨[], ?_, fun _ => rfl⟩
  rw [← h]
  rfl

/-- Events that `diagEvents` lets through make a twin: there are none when DIAG is off. -/
theorem diagTwin_of_events {e : Bool} {t u : State} (c : Cfg) (raised : List Condition)
    (h : u = { t.switchDiag e with
      out := { t.out with diag := diagEvents (withDiag c e) raised } }) : DiagTwin e t u :=
  ⟨_, h, by rintro rfl; rfl⟩

/-- DONE.VALIDATE checks the candidate without `DIAG_EN` (rule R130). -/
theorem validateCandidate_diagTwin (s : State) (e : Bool) (p : Bytes) (tr : Byte) :
    DiagTwin e (validateCandidate s.quiet p tr)
      (validateCandidate (s.quiet.switchDiag e) p tr) := by
  have hvalid : isValid (s.quiet.switchDiag e).cfg p tr = isValid s.quiet.cfg p tr := rfl
  unfold validateCandidate
  rw [hvalid]
  split
  · exact diagTwin_switchDiag e rfl
  · exact diagTwin_of_events s.cfg [.corrupt p] rfl

/-- Every operation answers twins (rule R31, decision D17). -/
theorem exec_diagTwin {i : Instr} {s t : State} (e : Bool) (h : exec i s = .next t) :
    ∃ u, exec i (s.switchDiag e) = .next u ∧ DiagTwin e t u := by
  cases i with
  | seekEnd | seekStart | accEscPair | accStop | accData
  | encOpen | encStuff | encPlain | encTrailer | encClose =>
    rw [exec] at h
    exact microStep_diagTwin h (diagTwin_switchDiag e rfl)
  | seekSkip | accEnd | accEscDangle | accStart | doneEmpty =>
    rw [exec] at h
    exact microStep_diagTwin h (diagTwin_of_events s.cfg [_] rfl)
  | doneValidate =>
    rw [exec] at h
    refine microStep_diagTwin h ?_
    rw [State.switchDiag_cand]
    split
    · exact validateCandidate_diagTwin s e _ _
    · exact diagTwin_switchDiag e rfl
  | encode | encodeChunks | reset | parityOf | trailerCompute | trailerIsValid | chunks =>
    rw [exec] at h
    exact atomically_diagTwin h (diagTwin_switchDiag e rfl)
  | attempt buf =>
    rw [exec] at h
    refine atomically_diagTwin h ?_
    simp only [State.switchDiag_cfg, attempt_withDiag]
    exact diagTwin_switchDiag e rfl
  | extract =>
    rw [exec] at h
    refine atomically_diagTwin h (diagTwin_of_events s.cfg (attempt s.cfg s.rxbuf).raised ?_)
    simp only [State.switchDiag_cfg, State.switchDiag_rxbuf, attempt_withDiag]
    rfl
  | append =>
    rw [exec] at h
    exact whenFits_diagTwin h (diagTwin_switchDiag e rfl)
  | feed bytes =>
    rw [exec] at h
    refine whenFits_diagTwin h
      (diagTwin_of_events s.cfg (drain s.cfg (s.rxbuf.append bytes)).raised ?_)
    simp only [State.switchDiag_cfg, State.switchDiag_rxbuf, drain_withDiag]
    rfl
  | crcBit a bit =>
    rw [exec, execCrcBit] at h ⊢
    refine withGenerator_diagTwin h fun poly len => ?_
    have hsel : (s.switchDiag e).selects (.crcBit a bit) = s.selects (.crcBit a bit) := rfl
    rw [hsel]
    dsimp only
    split <;> exact diagTwin_switchDiag e rfl
  | crcRemainder =>
    rw [exec, execCrcRemainder] at h ⊢
    exact withGenerator_diagTwin h fun _ _ => diagTwin_switchDiag e rfl

end Sys2Proof.Machine

/-! SUPPORT. The obligations of the state (spec/10_state.md). -/

namespace Sys2Proof.Machine

/-- Settles O37: what a step takes up is the selected row, the end of a CRC evaluation, waiting or a
request, and each keeps the invariant. -/
theorem stepKeepsTheStateInvariant : Obligations.StepKeepsTheStateInvariant := by
  intro s t hinv h
  obtain ⟨i, hsel, hexec⟩ | ⟨-, -, hend⟩ | ⟨-, -, rfl⟩ | ⟨hact, r, -, rest, hrun⟩ :=
    step_next_cases h
  · exact exec_selected_keeps_inv hinv hsel hexec
  · obtain ⟨-, poly, len, -, rfl⟩ := withGenerator_eq_next.1 hend
    have hkept := wf_of_inv hinv
    exact (inv_of_idle rfl).2 hkept
  · exact hinv
  · exact runRequest_keeps_inv (s := { s with ops := rest }) hact hinv hrun

/-- Settles O39: by the four ends of an attempt. -/
theorem bufferAfterExtractFitsTheOutcome : Obligations.BufferAfterExtractFitsTheOutcome := by
  intro s t o hwf h hout
  have hnext := h
  rw [exec_extract hwf, Host.Outcome.next.injEq] at hnext
  have hbuf : t.rxbuf = (attempt s.cfg s.rxbuf).buf := by rw [← hnext]
  obtain rfl : (attempt s.cfg s.rxbuf).outcome = o := by simpa [← hnext] using hout
  have hagain : (∃ r, (attempt s.cfg s.rxbuf).outcome = .noFrame r) → exec .extract t = .next t :=
    fun ⟨r, hr⟩ => exec_extract_again hwf h hr
  rw [hbuf]
  cases attempt_end s.cfg s.rxbuf with
  | noStart ho hleft =>
    rw [ho] at hagain ⊢
    exact ⟨fun _ => hleft, nofun, nofun, hagain, fun hne => absurd rfl (hne _)⟩
  | incomplete region cand ho hleft hcand =>
    rw [ho] at hagain ⊢
    exact ⟨nofun, fun _ => ⟨region, cand, hleft, hcand⟩, nofun, hagain,
      fun hne => absurd rfl (hne _)⟩
  | dangling region cand ho hleft hcand =>
    rw [ho] at hagain ⊢
    exact ⟨nofun, nofun, fun _ => ⟨region, cand, hleft, hcand⟩, hagain,
      fun hne => absurd rfl (hne _)⟩
  | resolved ho hleft =>
    exact ⟨fun h => absurd h (ho _), fun h => absurd h (ho _), fun h => absurd h (ho _), hagain,
      fun _ => hleft⟩

/-- Settles O40: what RXBUF holds is a tail of the old content and the appended bytes, so the bytes
gone from its head are told by the lengths. -/
theorem bufferChangesOnlyAtItsEnds : Obligations.BufferChangesOnlyAtItsEnds := by
  intro s t i hi h
  obtain ⟨gone, hgone⟩ := exec_rxbuf_suffix hi h
  have hlen : gone.length + t.rxbuf.length = s.rxbuf.length + i.appends.length := by
    simpa using congrArg List.length hgone
  refine ⟨gone.length, by omega, fun a => ?_, fun hmicro => ?_, fun hnone => ?_, ?_⟩
  · rw [← hgone, List.getElem?_append_right (by omega), Nat.add_sub_cancel_left]
    rfl
  · have hle := rowConsumes_le_length (selects_of_exec_microStep hmicro h)
    rw [appends_eq_nil (.inl hmicro), exec_microStep_rxbuf hmicro h, Memory.length_consume,
      List.length_nil] at hlen
    omega
  · have hbuf : t.rxbuf = s.rxbuf := by rw [(exec_writesNothing_frame hnone h).1]
    rw [appends_eq_nil (.inr hnone), hbuf, List.length_nil] at hlen
    omega
  · rintro ⟨bytes, rfl⟩
    rw [exec_append_rxbuf h, Memory.length_append, Instr.appends] at hlen
    omega

/-- Settles O41: by the frames of the two families. -/
theorem operationsWriteOnlyTheBufferAndChannels :
    Obligations.OperationsWriteOnlyTheBufferAndChannels := by
  intro s t i h
  refine ⟨fun hi => ?_, fun hi => exec_receives_frame hi h⟩
  obtain ⟨hframe, hrx, hdiag⟩ := exec_writesNothing_frame hi h
  exact ⟨hframe, fun a => by rw [hframe], hrx, hdiag⟩

/-- Settles O42: by the frames of the two families; what a row consumes is all that RXBUF loses. -/
theorem microStepsWriteOnlyTheirRegisters : Obligations.MicroStepsWriteOnlyTheirRegisters := by
  intro s t i h
  constructor
  · intro hi
    obtain ⟨hframe, htx, hret⟩ := exec_scanRow_frame hi h
    have hbuf : t.rxbuf = s.rxbuf.consume (s.rowConsumes i) := by rw [hframe]
    exact ⟨by rw [hbuf]; exact hframe, fun a => by rw [hbuf, Memory.read?_consume], htx, hret⟩
  · intro hi
    obtain ⟨hframe, hchunk, hrx, hdiag, hret⟩ := exec_encoderRow_frame hi h
    exact ⟨hframe, hchunk, fun a => by rw [hframe], hrx, hdiag, hret⟩

/-- Settles O44: every operation answers a twin, and a twin is what the statement describes. -/
theorem diagnosticsInfluenceNothingElse : Obligations.DiagnosticsInfluenceNothingElse := by
  intro s t i e h
  obtain ⟨u, hu, events, rfl, hoff⟩ := exec_diagTwin e h
  exact ⟨events, hu, hoff⟩

/-- Settles O26: RXBUF is empty and nothing is in progress, so the invariant asks for `WF` only. -/
theorem newConnectionStartsEmptyAndSound : Obligations.NewConnectionStartsEmptyAndSound := by
  intro c hwf
  refine ⟨rfl, rfl, rfl, (inv_of_idle rfl).2 ⟨hwf, Memory.wf_reset c⟩, ?_⟩
  rintro s rfl t h
  rw [exec] at h
  obtain ⟨-, rfl⟩ := atomically_eq_next.1 h
  exact ⟨rfl, rfl, rfl⟩

end Sys2Proof.Machine

/-! SUPPORT. What is in progress does not see the requests waiting (spec/20_memory.md rule R45,
spec/00_scope.md rule R7). -/

namespace Sys2Proof.Machine

/-- The state with another list of requests waiting. -/
def State.withOps (s : State) (waiting : List Request) : State := { s with ops := waiting }

@[simp] theorem State.withOps_self (s : State) : s.withOps s.ops = s := rfl
@[simp] theorem State.withOps_ops (s : State) (w : List Request) : (s.withOps w).ops = w := rfl
@[simp] theorem State.withOps_cand (s : State) (w : List Request) :
    (s.withOps w).cand = s.cand := rfl
/-- The operation map selects without looking at the requests (rules R68, R69). -/
@[simp] theorem State.withOps_selects (s : State) (w : List Request) (i : Instr) :
    (s.withOps w).selects i = s.selects i := rfl

/-! One rule per shared operation: with other requests waiting it answers the same when the effect
does. -/

theorem microStep_withOps {i : Instr} {s t : State} {f : State → State} (w : List Request)
    (h : microStep i s f = .next t) (hf : ∀ q, f (q.withOps w) = (f q).withOps w) :
    microStep i (s.withOps w) f = .next (t.withOps w) := by
  obtain ⟨hwf, hsel, rfl⟩ := microStep_eq_next.1 h
  exact microStep_eq_next.2 ⟨hwf, hsel, hf s.quiet⟩

theorem atomically_withOps {s t : State} {f : State → State} (w : List Request)
    (h : atomically s f = .next t) (hf : ∀ q, f (q.withOps w) = (f q).withOps w) :
    atomically (s.withOps w) f = .next (t.withOps w) := by
  obtain ⟨hwf, rfl⟩ := atomically_eq_next.1 h
  exact atomically_eq_next.2 ⟨hwf, hf s.quiet⟩

theorem whenFits_withOps {bytes : Bytes} {s t : State} {f : State → State} (w : List Request)
    (h : whenFits bytes s f = .next t) (hf : ∀ q, f (q.withOps w) = (f q).withOps w) :
    whenFits bytes (s.withOps w) f = .next (t.withOps w) := by
  obtain ⟨hwf, hfits, rfl⟩ := whenFits_eq_next.1 h
  exact whenFits_eq_next.2 ⟨hwf, hfits, hf s.quiet⟩

/-- The two effects may differ, as that of CRC.BIT looks at the state the operation started in. -/
theorem withGenerator_withOps {s t : State} {f g : Nat → Nat → State → State} (w : List Request)
    (h : withGenerator s f = .next t)
    (hfg : ∀ poly len q, g poly len (q.withOps w) = (f poly len q).withOps w) :
    withGenerator (s.withOps w) g = .next (t.withOps w) := by
  obtain ⟨hwf, poly, len, hc, rfl⟩ := withGenerator_eq_next.1 h
  exact withGenerator_eq_next.2 ⟨hwf, poly, len, hc, hfg poly len s.quiet⟩

theorem validateCandidate_withOps (s : State) (w : List Request) (p : Bytes) (tr : Byte) :
    validateCandidate (s.withOps w) p tr = (validateCandidate s p tr).withOps w := by
  have hvalid : isValid (s.withOps w).cfg p tr = isValid s.cfg p tr := rfl
  unfold validateCandidate
  rw [hvalid]
  split <;> rfl

/-- An operation that answers answers the same whatever is waiting. -/
theorem exec_withOps {i : Instr} {s t : State} (w : List Request) (h : exec i s = .next t) :
    exec i (s.withOps w) = .next (t.withOps w) := by
  cases i with
  | seekEnd | seekStart | seekSkip | accEnd | accEscPair | accEscDangle | accStop | accStart
  | accData | doneEmpty | encOpen | encStuff | encPlain | encTrailer | encClose =>
    rw [exec] at h
    exact microStep_withOps w h fun _ => rfl
  | doneValidate =>
    rw [exec] at h
    refine microStep_withOps w h fun q => ?_
    rw [State.withOps_cand]
    split
    · exact validateCandidate_withOps q w _ _
    · rfl
  | encode | encodeChunks | extract | reset | parityOf | trailerCompute | trailerIsValid | chunks
  | attempt =>
    rw [exec] at h
    exact atomically_withOps w h fun _ => rfl
  | append | feed =>
    rw [exec] at h
    exact whenFits_withOps w h fun _ => rfl
  | crcBit a bit =>
    rw [exec, execCrcBit] at h ⊢
    refine withGenerator_withOps w h fun _ _ _ => ?_
    rw [State.withOps_selects]
    dsimp only
    split <;> rfl
  | crcRemainder =>
    rw [exec, execCrcRemainder] at h ⊢
    exact withGenerator_withOps w h fun _ _ _ => rfl

/-! ### What a step takes up -/

/-- The row the operation map selects is what the step runs (rules R68, R69, R91). -/
theorem step_of_selects {s : State} {i : Instr} (h : s.selects i = true) : step s = exec i s := by
  obtain ⟨a, hact⟩ : ∃ a, s.act = a := ⟨_, rfl⟩
  cases a with
  | idle => simp [selects_of_idle hact] at h
  | scanning =>
    obtain ⟨hin, rfl⟩ := (selects_of_scanning hact).1 h
    simp only [step, hact, hin, if_true]
    rfl
  | encoding =>
    obtain rfl := (selects_of_encoding hact).1 h
    simp only [step, hact]
    rfl
  | dividing =>
    obtain ⟨bit, rest, hbits, rfl⟩ := (selects_of_dividing hact).1 h
    simp only [step, hact, State.divWord?, hbits]
    rfl

/-- A CRC evaluation whose bits have all entered ends (rule R91). -/
theorem step_of_bits_used {s : State} (hact : s.act = .dividing) (hbits : s.crcBits = []) :
    step s = withGenerator s fun _ _ q => q.endCrc := by
  simp only [step, hact, State.divWord?, hbits]
  rfl

/-- A step inside an operation is the same whatever is waiting (rule R45). -/
theorem step_withOps {s t : State} (w : List Request) (hact : s.act ≠ .idle)
    (h : step s = .next t) : step (s.withOps w) = .next (t.withOps w) := by
  obtain ⟨i, hsel, hexec⟩ | ⟨hdiv, hbits, hend⟩ | ⟨hidle, -, -⟩ | ⟨hidle, -⟩ := step_next_cases h
  · rw [step_of_selects (s := s.withOps w) hsel]
    exact exec_withOps w hexec
  · rw [step_of_bits_used (s := s.withOps w) hdiv hbits]
    exact withGenerator_withOps w hend fun _ _ _ => rfl
  · exact absurd hidle hact
  · exact absurd hidle hact

/-- A step inside an operation takes no request (rules R7, R45): with the same requests waiting it
answers a state with the same requests waiting. -/
theorem step_ops {s t : State} (hact : s.act ≠ .idle) (h : step s = .next t) : t.ops = s.ops := by
  have hsame := step_withOps s.ops hact h
  rw [State.withOps_self, h, Host.Outcome.next.injEq] at hsame
  rw [hsame, State.withOps_ops]

end Sys2Proof.Machine

/-! SUPPORT. Start requests (spec/42_decode.md rule R120, spec/41_encode.md rule R110,
spec/40_trailer_arithmetic.md rule R91), and the obligations of the memory (spec/20_memory.md). -/

namespace Sys2Proof.Machine

/-- Starting an attempt has a step, and RXBUF is not looked at (rule R120). -/
theorem runRequest_startAttempt {s : State} (hwf : s.cfg.wf = true) :
    runRequest .startAttempt s = .next s.quiet.enterAttempt :=
  atomically_eq_next.2 ⟨hwf, rfl⟩

/-- Starting an ENCODE has a step (rule R110). -/
theorem runRequest_startEncode {s : State} (chunk : Bytes) (hwf : s.cfg.wf = true) :
    runRequest (.startEncode chunk) s = .next (s.quiet.enterEncode chunk) := by
  rw [runRequest]
  exact atomically_eq_next.2 ⟨hwf, rfl⟩

/-- Starting a CRC evaluation has a step where there is a generator (rules R21, R91). -/
theorem runRequest_startCrc {s : State} {poly len : Nat} (bytes : Bytes) (hwf : s.cfg.wf = true)
    (hc : s.cfg.scheme = .crc poly len) :
    runRequest (.startCrc bytes) s = .next (s.quiet.enterCrc (bitsOf (bytes ++ [0]))) := by
  rw [runRequest]
  exact withGenerator_eq_next.2 ⟨hwf, poly, len, hc, rfl⟩

/-- With nothing in progress the oldest request is taken where it has a step (rule R46). -/
theorem step_takes_oldest {s t : State} {r : Request} {rest : List Request} (hact : s.act = .idle)
    (hops : s.ops = r :: rest) (h : runRequest r { s with ops := rest } = .next t) :
    step s = .next t := by
  rw [step_of_idle hact, hops]
  exact takeRequest_of_next h

/-- With nothing in progress a request that has no step lets the oldest of the sender's behind it
through (rule R47). -/
theorem step_takes_send {s : State} {held send : Request} {before behind : List Request}
    (hact : s.act = .idle) (hops : s.ops = held :: (before ++ send :: behind))
    (hheld : ∀ t, runRequest held { s with ops := before ++ send :: behind } ≠ .next t)
    (hbefore : ∀ r ∈ before, r.isSend = false) (hsend : send.isSend = true) :
    step s = runRequest send { s with ops := held :: (before ++ behind) } := by
  rw [step_of_idle hact, hops]
  exact takeRequest_of_send hheld (takeSend_append hbefore hsend)

/-- Settles O8: a step inside an operation takes no request, and is the same whatever is waiting. -/
theorem noRequestIsTakenInsideAnOperation : Obligations.NoRequestIsTakenInsideAnOperation :=
  fun _ _ w hact h => ⟨step_ops hact h, step_withOps w hact h⟩

/-- Settles O7: each start request has a step, which sets the registers it starts with. -/
theorem startRequestsAndWaiting : Obligations.StartRequestsAndWaiting := by
  intro s rest hwf hact
  refine ⟨fun hops => ?attempt, fun chunk hops => ?encode,
    fun held before chunk hops hheld hbefore => ?encodeFromBehind,
    fun bytes poly len hops hc => ?crc, fun hops => ?waiting⟩
  case attempt => exact step_takes_oldest hact hops (runRequest_startAttempt hwf)
  case encode => exact step_takes_oldest hact hops (runRequest_startEncode chunk hwf)
  case encodeFromBehind =>
    rw [step_takes_send hact hops hheld hbefore rfl]
    exact runRequest_startEncode chunk hwf
  case crc => exact step_takes_oldest hact hops (runRequest_startCrc bytes hwf hc)
  case waiting => rw [step_of_idle hact, hops, takeRequest_nil]

end Sys2Proof.Machine

/-! SUPPORT. The operation map read both ways: a row is decoded exactly where its table line holds,
and what the encoder writes is decoded back (spec/30_encoding.md rules R68, R69, R75). -/

namespace Sys2Proof.Machine

/-! ### Decoding what the encoder wrote -/

/-- Decoding undoes encoding, row by row: each case is the row's law of Laws/PerInstr. -/
theorem decode_encode (i : Instr) : Laws.RoundTrip.Statement i := by
  cases i with
  | seekEnd => exact Laws.RoundTrip.seekEnd
  | seekStart => exact Laws.RoundTrip.seekStart
  | seekSkip b => exact Laws.RoundTrip.seekSkip b
  | accEnd => exact Laws.RoundTrip.accEnd
  | accEscPair x => exact Laws.RoundTrip.accEscPair x
  | accEscDangle => exact Laws.RoundTrip.accEscDangle
  | accStop => exact Laws.RoundTrip.accStop
  | accStart => exact Laws.RoundTrip.accStart
  | accData b => exact Laws.RoundTrip.accData b
  | doneValidate => exact Laws.RoundTrip.doneValidate
  | doneEmpty => exact Laws.RoundTrip.doneEmpty
  | encOpen => exact Laws.RoundTrip.encOpen
  | encStuff b => exact Laws.RoundTrip.encStuff b
  | encPlain b => exact Laws.RoundTrip.encPlain b
  | encTrailer => exact Laws.RoundTrip.encTrailer
  | encClose => exact Laws.RoundTrip.encClose
  | encode chunk => exact Laws.RoundTrip.encode chunk
  | encodeChunks payload => exact Laws.RoundTrip.encodeChunks payload
  | append fragment => exact Laws.RoundTrip.append fragment
  | extract => exact Laws.RoundTrip.extract
  | feed fragment => exact Laws.RoundTrip.feed fragment
  | reset => exact Laws.RoundTrip.reset
  | crcBit a bit => exact Laws.RoundTrip.crcBit a bit
  | crcRemainder bytes => exact Laws.RoundTrip.crcRemainder bytes
  | parityOf bytes => exact Laws.RoundTrip.parityOf bytes
  | trailerCompute p => exact Laws.RoundTrip.trailerCompute p
  | trailerIsValid p t => exact Laws.RoundTrip.trailerIsValid p t
  | chunks payload => exact Laws.RoundTrip.chunks payload
  | attempt buf => exact Laws.RoundTrip.attempt buf

/-- Settles O3, by the round trip of each row. -/
theorem decodeOfEncodeIsIdentity : Obligations.DecodeOfEncodeIsIdentity :=
  fun c i hwf hi => decode_encode i c hwf hi

/-! ### The receive side -/

/-- A byte is data exactly when it is none of the three tags (rule R15). -/
theorem classOf_eq_other_iff_ne {c : Cfg} {b : Byte} :
    c.classOf b = .other ↔ b ≠ c.startTag ∧ b ≠ c.stopTag ∧ b ≠ c.escapeTag := by
  simp [classOf_eq_other, Cfg.notTag, and_assoc]

/-- Where a table line holds, its row is the one decoded: the lines exclude each other, as the tags
of a well-formed configuration differ (rule R68). -/
theorem ScanRow.decodeScan_eq {c : Cfg} {st : RxState} {candEmpty : Bool} {rest : Bytes} {i : Instr}
    (hwf : c.wf = true) (h : ScanRow c st candEmpty rest i) :
    decodeScan c st candEmpty rest = i := by
  cases h with
  | seekEnd hst hrest | accEnd hst hrest | doneValidate hst hrest | doneEmpty hst hrest =>
    subst hst hrest
    rfl
  | seekStart tail hst hrest | accStart tail hst hrest => simp [decodeScan, hst, hrest]
  | seekSkip b tail hst hrest hb | accEscPair b x tail hst hrest hb | accEscDangle b hst hrest hb
  | accData b tail hst hrest hb => simp [decodeScan, hst, hrest, hb]
  | accStop tail hst hrest => simp [decodeScan, hst, hrest, classOf_stopTag hwf]

/-- The receive side of the decoder is the table (rule R68). -/
theorem decode_scan_eq_ok {c : Cfg} {st : RxState} {candEmpty : Bool} {rest : Bytes} {i : Instr}
    (hwf : c.wf = true) :
    decode c (.scan st candEmpty rest) = .ok i ↔ ScanRow c st candEmpty rest i := by
  rw [decode, Decoded.ok.injEq]
  exact ⟨fun h => h ▸ scanRow_decodeScan c st candEmpty rest, ScanRow.decodeScan_eq hwf⟩

/-- Settles O1: the lines of the table are those of the statement. -/
theorem receiveRowsFollowTheOperationMap : Obligations.ReceiveRowsFollowTheOperationMap := by
  intro c st candEmpty rest i hwf
  rw [decode_scan_eq_ok hwf]
  simp only [List.head?_eq_some_iff]
  constructor
  · intro h
    cases h with
    | seekEnd hst hrest | seekStart tail hst hrest | accEnd hst hrest | accStop tail hst hrest
    | accStart tail hst hrest | doneValidate hst hrest | doneEmpty hst hrest => simp [hst, hrest]
    | seekSkip b tail hst hrest hb => simp [hst, hrest, hb]
    | accEscPair e x tail hst hrest he | accEscDangle e hst hrest he =>
      simp [hst, hrest, eq_escapeTag_of_classOf he]
    | accData b tail hst hrest hb => simp [hst, hrest, classOf_eq_other_iff_ne.1 hb]
  · rintro (⟨rfl, hst, hrest⟩ | ⟨rfl, hst, tail, hrest⟩ | ⟨b, rfl, hst, ⟨tail, hrest⟩, hb⟩ |
      ⟨rfl, hst, hrest⟩ | ⟨x, tail, rfl, hst, hrest⟩ | ⟨rfl, hst, hrest⟩ | ⟨rfl, hst, tail, hrest⟩ |
      ⟨rfl, hst, tail, hrest⟩ | ⟨b, rfl, hst, ⟨tail, hrest⟩, hb⟩ | ⟨rfl, hst, hcand⟩ |
      ⟨rfl, hst, hcand⟩)
    · exact .seekEnd hst hrest
    · exact .seekStart tail hst hrest
    · exact .seekSkip b tail hst hrest hb
    · exact .accEnd hst hrest
    · exact .accEscPair _ x tail hst hrest (classOf_escapeTag hwf)
    · exact .accEscDangle _ hst hrest (classOf_escapeTag hwf)
    · exact .accStop tail hst hrest
    · exact .accStart tail hst hrest
    · exact .accData b tail hst hrest (classOf_eq_other_iff_ne.2 hb)
    · exact .doneValidate hst hcand
    · exact .doneEmpty hst hcand

/-! ### The transmit side -/

/-- Where a table line holds, its row is the one decoded (rule R69). -/
theorem TxRow.decodeTx_eq {c : Cfg} {phase : TxPhase} {rest : Bytes} {i : Instr}
    (h : TxRow c phase rest i) : decodeTx c phase rest = i := by
  cases h with
  | encOpen hphase | encClose hphase => simp [decodeTx, hphase]
  | encTrailer hphase hrest => simp [decodeTx, hphase, hrest]
  | encStuff b tail hphase hrest hb | encPlain b tail hphase hrest hb =>
    simp [decodeTx, hphase, hrest, hb]

/-- The transmit side of the decoder is the table (rule R69). -/
theorem decode_tx_eq_ok {c : Cfg} {phase : TxPhase} {rest : Bytes} {i : Instr} :
    decode c (.tx phase rest) = .ok i ↔ TxRow c phase rest i := by
  rw [decode, Decoded.ok.injEq]
  exact ⟨fun h => h ▸ txRow_decodeTx c phase rest, TxRow.decodeTx_eq⟩

/-- A payload byte goes out plain exactly when it is none of the three tags (rules R15, R69). -/
theorem isTag_eq_false {c : Cfg} {b : Byte} :
    c.isTag b = false ↔ b ≠ c.startTag ∧ b ≠ c.stopTag ∧ b ≠ c.escapeTag := by
  rw [← Bool.not_eq_true, isTag_eq_true]
  tauto

/-- Settles O2: the lines of the table are those of the statement. -/
theorem encoderRowsFollowTheOperationMap : Obligations.EncoderRowsFollowTheOperationMap := by
  intro c phase rest i _
  rw [decode_tx_eq_ok]
  simp only [List.head?_eq_some_iff]
  constructor
  · intro h
    cases h with
    | encOpen hphase | encClose hphase => simp [hphase]
    | encStuff b tail hphase hrest hb => simp [hphase, hrest, isTag_eq_true.1 hb]
    | encPlain b tail hphase hrest hb => simp [hphase, hrest, isTag_eq_false.1 hb]
    | encTrailer hphase hrest => simp [hphase, hrest]
  · rintro (⟨rfl, hphase⟩ | ⟨b, rfl, hphase, ⟨tail, hrest⟩, hb⟩ |
      ⟨b, rfl, hphase, ⟨tail, hrest⟩, hb⟩ | ⟨rfl, hphase, hrest⟩ | ⟨rfl, hphase⟩)
    · exact .encOpen hphase
    · exact .encStuff b tail hphase hrest (isTag_eq_true.2 hb)
    · exact .encPlain b tail hphase hrest (isTag_eq_false.2 hb)
    · exact .encTrailer hphase hrest
    · exact .encClose hphase

/-! ### What is decoded is well-formed -/

/-- A receive row is selected with an operand it admits (rule R68). -/
theorem ScanRow.wf {c : Cfg} {st : RxState} {candEmpty : Bool} {rest : Bytes} {i : Instr}
    (h : ScanRow c st candEmpty rest i) : i.wf c = true := by
  cases h with
  | seekSkip b tail hst hrest hb => simpa [Instr.wf] using hb
  | accData b tail hst hrest hb => exact classOf_eq_other.1 hb
  | _ => rfl

/-- An encoder row is selected with an operand it admits (rule R69). -/
theorem TxRow.wf {c : Cfg} {phase : TxPhase} {rest : Bytes} {i : Instr}
    (h : TxRow c phase rest i) : i.wf c = true := by
  cases h with
  | encStuff b tail hphase hrest hb | encPlain b tail hphase hrest hb =>
    simpa [Instr.wf, isTag_eq_not_notTag] using hb
  | _ => rfl

/-- Only micro-steps restrict their operand (rule R70). -/
theorem wf_of_not_microStep (c : Cfg) {i : Instr} (h : i.isMicroStep = false) : i.wf c = true := by
  cases i with
  | seekSkip | accData | encStuff | encPlain => cases h
  | _ => rfl

/-- A written operation has the mnemonic it was written with, and no micro-step can be written (rule
R75). -/
theorem mnemonic_of_decodeOp {name : String} {args : List Bytes} {i : Instr}
    (h : decodeOp name args = .ok i) : i.mnemonic = name ∧ i.isMicroStep = false := by
  unfold decodeOp at h
  split at h
  case h_14 => cases h
  all_goals
    cases h
    exact ⟨rfl, rfl⟩

/-- A name outside the list is no operation, whatever its arguments (rule R75). -/
theorem decodeOp_of_unknownName {name : String} (args : List Bytes) (h : name ∉ opNames) :
    decodeOp name args = .rejected (.unknownName name) := by
  unfold decodeOp
  split
  case h_14 => simp [h]
  all_goals exact absurd (by decide) h

/-- Settles O4: by the two tables, and by the names of the written operations. -/
theorem decodedOperationsAreWellFormed : Obligations.DecodedOperationsAreWellFormed := by
  intro c hwf
  refine ⟨fun st candEmpty rest i h => ((decode_scan_eq_ok hwf).1 h).wf,
    fun phase rest i h => (decode_tx_eq_ok.1 h).wf, fun name args i h => ?_,
    fun name args h => decodeOp_of_unknownName args h⟩
  obtain ⟨hname, hmicro⟩ := mnemonic_of_decodeOp h
  exact ⟨wf_of_not_microStep c hmicro, hname, hmicro⟩

end Sys2Proof.Machine

/-! SUPPORT. Where an operation stops, and that what is in progress goes on under the invariant
(spec/30_encoding.md rules R68, R69; spec/10_state.md rules R21, R24, R27). -/

namespace Sys2Proof.Machine

/-! ### What each shared operation can stop with -/

theorem underWF_eq_fault {s : State} {r : Result} {f : Fault} :
    underWF s r = .fault f ↔ s.cfg.wf = true ∧ r = .fault f := by
  by_cases h : s.cfg.wf = true <;> simp [underWF, h]

/-- A row that the operation map does not select does not apply (rules R68, R69). -/
theorem microStep_of_not_selects {i : Instr} {s : State} {f : State → State}
    (hwf : s.cfg.wf = true) (h : s.selects i = false) :
    microStep i s f = .fault .rowNotSelected := by
  simp [microStep, hwf, h]

/-- An operation on the generator stops where there is none (rule R21). -/
theorem withGenerator_of_parity {s : State} {f : Nat → Nat → State → State} {even odd : Byte}
    (hwf : s.cfg.wf = true) (hc : s.cfg.scheme = .parity even odd) :
    withGenerator s f = .fault .noGenerator := by
  simp [withGenerator, hwf, hc]

theorem atomically_ne_fault (s : State) (f : State → State) (e : Fault) :
    atomically s f ≠ .fault e := by
  simp [atomically, underWF_eq_fault]

theorem fault_of_whenFits {bytes : Bytes} {s : State} {f : State → State} {e : Fault}
    (h : whenFits bytes s f = .fault e) : e = .bufferFull := by
  obtain ⟨-, h⟩ := underWF_eq_fault.1 h
  split at h <;> cases h
  rfl

theorem fault_of_withGenerator {s : State} {f : Nat → Nat → State → State} {e : Fault}
    (h : withGenerator s f = .fault e) : e = .noGenerator := by
  obtain ⟨-, h⟩ := underWF_eq_fault.1 h
  split at h <;> cases h
  rfl

/-- The RX_SCAN and TX_STEP rows are micro-steps (rules R68, R69). -/
theorem exec_eq_microStep {i : Instr} (hi : i.isMicroStep = true) (s : State) :
    ∃ f, exec i s = microStep i s f := by
  cases i with
  | seekEnd | seekStart | seekSkip | accEnd | accEscPair | accEscDangle | accStop | accStart
  | accData | doneValidate | doneEmpty | encOpen | encStuff | encPlain | encTrailer | encClose =>
    rw [exec]
    exact ⟨_, rfl⟩
  | _ => cases hi

/-- Settles O10: a row is a micro-step, and the CRC functions are operations on the generator. -/
theorem whereRowsAndCrcFunctionsStop : Obligations.WhereRowsAndCrcFunctionsStop := by
  intro s hwf
  refine ⟨fun i hi hsel => ?row, fun even odd hc => ⟨fun a bit => ?crcBit, fun bytes => ?crc⟩⟩
  case row =>
    obtain ⟨f, hf⟩ := exec_eq_microStep hi s
    rw [hf, microStep_of_not_selects hwf hsel]
  case crcBit =>
    rw [exec]
    exact withGenerator_of_parity hwf hc
  case crc =>
    rw [exec]
    exact withGenerator_of_parity hwf hc

/-! ### A request stops with `bufferFull` or `noGenerator` only -/

/-- The two faults an operation or a request can stop with (rules R21, R27). -/
def Fault.ofOperation (e : Fault) : Prop := e = .bufferFull ∨ e = .noGenerator

/-- An operation that is no micro-step stops for want of room or of a generator only. -/
theorem fault_of_exec {i : Instr} {s : State} {e : Fault} (hi : i.isMicroStep = false)
    (h : exec i s = .fault e) : e.ofOperation := by
  cases i with
  | encode | encodeChunks | extract | reset | parityOf | trailerCompute | trailerIsValid | chunks
  | attempt =>
    rw [exec] at h
    exact absurd h (atomically_ne_fault s _ e)
  | append | feed =>
    rw [exec] at h
    exact .inl (fault_of_whenFits h)
  | crcBit | crcRemainder =>
    rw [exec] at h
    exact .inr (fault_of_withGenerator h)
  | _ => cases hi

theorem fault_of_runRequest {r : Request} {s : State} {e : Fault}
    (h : runRequest r s = .fault e) : e.ofOperation := by
  cases r with
  | line name args =>
    rw [runRequest, decode] at h
    cases hd : decodeOp name args with
    | ok i =>
      rw [hd, runDecoded] at h
      exact fault_of_exec (mnemonic_of_decodeOp hd).2 h
    | rejected e => simp [hd, runDecoded] at h
  | startAttempt | startEncode =>
    rw [runRequest] at h
    exact absurd h (atomically_ne_fault s _ e)
  | startCrc =>
    rw [runRequest] at h
    exact .inr (fault_of_withGenerator h)

/-- A list of requests answers what one request taken from it answers, or, with no request, the same
state. -/
theorem takeRequest_cases (l : List Request) (s : State) :
    takeRequest l s = .next s ∨
      ∃ r rest, takeRequest l s = runRequest r { s with ops := rest } := by
  induction l with
  | nil => exact .inl rfl
  | cons r rest ih =>
    by_cases hstep : ∃ t, runRequest r { s with ops := rest } = .next t
    · obtain ⟨t, ht⟩ := hstep
      exact .inr ⟨r, rest, by rw [ht, takeRequest_of_next ht]⟩
    · cases hs : takeSend rest with
      | some p => exact .inr ⟨p.1, r :: p.2, takeRequest_of_send (not_exists.1 hstep) hs⟩
      | none =>
        by_cases hheld : runRequest r { s with ops := rest } = .fault .bufferFull ∧ rest ≠ []
        · rwa [takeRequest_of_bufferFull hheld.1 hs hheld.2]
        · exact .inr ⟨r, rest, takeRequest_of_stop (by tauto) hs⟩

theorem fault_of_takeRequest {l : List Request} {s : State} {e : Fault}
    (h : takeRequest l s = .fault e) : e.ofOperation := by
  obtain hwait | ⟨r, rest, hrun⟩ := takeRequest_cases l s
  · rw [hwait] at h
    cases h
  · exact fault_of_runRequest (hrun ▸ h)

/-! ### What is in progress goes on -/

/-- A selected micro-step has its effect (rules R68, R69). -/
theorem exec_microStep_of_selects {i : Instr} {s : State} (hi : i.isMicroStep = true)
    (hwf : s.cfg.wf = true) (hsel : s.selects i = true) : ∃ t, exec i s = .next t := by
  obtain ⟨f, hf⟩ := exec_eq_microStep hi s
  exact ⟨f s.quiet, by rw [hf, microStep_eq_next]; exact ⟨hwf, hsel, rfl⟩⟩

theorem ScanRow.isMicroStep {c : Cfg} {st : RxState} {candEmpty : Bool} {rest : Bytes} {i : Instr}
    (h : ScanRow c st candEmpty rest i) : i.isMicroStep = true := by
  cases h <;> rfl

theorem TxRow.isMicroStep {c : Cfg} {phase : TxPhase} {rest : Bytes} {i : Instr}
    (h : TxRow c phase rest i) : i.isMicroStep = true := by
  cases h <;> rfl

/-- The invariant of an attempt has `sp` in its range (rule R24). -/
theorem scanInRange_of_scanInv {s : State} (h : s.scanInv = true) : s.scanInRange = true := by
  cases hst : s.st with
  | seekingStart => simp [State.scanInRange, hst, ((scanInv_of_seeking hst).1 h).1]
  | accumulating =>
    obtain ⟨region, rest, hbuf, hsp, -⟩ := (scanInv_of_accumulating hst).1 h
    simp [State.scanInRange, hst, hbuf, hsp]
  | done => simp [State.scanInRange, hst]

/-- The invariant of a CRC evaluation has a generator (rule R21). -/
theorem generator_of_divInv {s : State} (h : s.divInv = true) :
    ∃ poly len, s.cfg.scheme = .crc poly len := by
  cases hc : s.cfg.scheme with
  | crc poly len => exact ⟨poly, len, rfl⟩
  | parity even odd => simp [State.divInv, Scheme.mode, hc] at h

/-- Under the invariant an attempt, an ENCODE and a CRC evaluation in progress go on: a row is
selected, and it has its effect. -/
theorem step_next_of_inv {s : State} (hinv : s.inv = true) (hact : s.act ≠ .idle) :
    ∃ t, step s = .next t := by
  obtain ⟨hwf, -⟩ := wf_of_inv hinv
  obtain ⟨a, ha⟩ : ∃ a, s.act = a := ⟨_, rfl⟩
  cases a with
  | idle => exact absurd ha hact
  | scanning =>
    have hin := scanInRange_of_scanInv ((inv_of_scanning ha).1 hinv).2
    have hsel := (selects_of_scanning ha).2 ⟨hin, rfl⟩
    rw [step_of_selects hsel]
    exact exec_microStep_of_selects (scanRow_decodeScan ..).isMicroStep hwf hsel
  | encoding =>
    have hsel := (selects_of_encoding ha).2 rfl
    rw [step_of_selects hsel]
    exact exec_microStep_of_selects (txRow_decodeTx ..).isMicroStep hwf hsel
  | dividing =>
    obtain ⟨poly, len, hc⟩ := generator_of_divInv ((inv_of_dividing ha).1 hinv).2
    cases hbits : s.crcBits with
    | nil =>
      rw [step_of_bits_used ha hbits]
      exact ⟨_, withGenerator_eq_next.2 ⟨hwf, poly, len, hc, rfl⟩⟩
    | cons bit rest =>
      rw [step_of_selects ((selects_of_dividing ha).2 ⟨bit, rest, hbits, rfl⟩), exec]
      exact ⟨_, withGenerator_eq_next.2 ⟨hwf, poly, len, hc, rfl⟩⟩

/-- Under the invariant a step stops where a request does only. -/
theorem fault_of_step {s : State} {e : Fault} (hinv : s.inv = true) (h : step s = .fault e) :
    e.ofOperation := by
  by_cases hact : s.act = .idle
  · exact fault_of_takeRequest (step_of_idle hact ▸ h)
  · obtain ⟨t, ht⟩ := step_next_of_inv hinv hact
    rw [ht] at h
    cases h

/-- Settles O38: what is in progress goes on, and a request stops with neither fault. -/
theorem invariantRulesOutMicroStepFaults : Obligations.InvariantRulesOutMicroStepFaults :=
  fun _ hinv => ⟨fun h => by simpa [Fault.ofOperation] using fault_of_step hinv h,
    fun h => by simpa [Fault.ofOperation] using fault_of_step hinv h, step_next_of_inv hinv⟩

/-! ### The step -/

/-- The decoded operation is what taking its request runs (rules R73, R75). -/
theorem runRequest_line {s : State} {name : String} {args : List Bytes} {i : Instr}
    (h : decode s.cfg (.op name args) = .ok i) : runRequest (.line name args) s = exec i s := by
  rw [runRequest, h, runDecoded]

/-- A written ENCODE or ENCODE_CHUNKS is the sender's (rule R47). -/
theorem isSend_line {c : Cfg} {name : String} {args : List Bytes} {i : Instr}
    (h : decode c (.op name args) = .ok i)
    (hi : (∃ chunk, i = .encode chunk) ∨ ∃ payload, i = .encodeChunks payload) :
    (Request.line name args).isSend = true := by
  rw [decode] at h
  obtain ⟨chunk, rfl⟩ | ⟨payload, rfl⟩ := hi <;> simp [Request.isSend, h, sends]

/-- Which request is taken from a list does not depend on the requests the state holds. -/
theorem takeRequest_withOps {l : List Request} (hne : l ≠ []) (s : State) (w : List Request) :
    takeRequest l (s.withOps w) = takeRequest l s := by
  induction l with
  | nil => exact absurd rfl hne
  | cons r rest ih =>
    by_cases hrest : rest = []
    · subst hrest
      rw [takeRequest_of_stop (.inr rfl) rfl, takeRequest_of_stop (.inr rfl) rfl]
      rfl
    · simp only [takeRequest, ih hrest]
      rfl

/-- Settles O6: in progress by the row selected; with nothing in progress by which request is
taken. -/
theorem stepRunsTheDecodedInstruction : Obligations.StepRunsTheDecodedInstruction := by
  intro s i
  refine ⟨fun hact hin hdec => ?scanning, fun hact hdec => ?encoding,
    fun bit rest hact hbits hdec => ?dividing, fun name args rest hact hops hdec htaken => ?oldest,
    fun name args rest hact hops hdec hfull hsends hne => ?givenUp,
    fun held before name args behind hact hops hheld hbefore hdec hi => ?sender⟩
  case scanning =>
    exact step_of_selects ((selects_of_scanning hact).2 ⟨hin, Decoded.ok.inj hdec⟩)
  case encoding => exact step_of_selects ((selects_of_encoding hact).2 (Decoded.ok.inj hdec))
  case dividing =>
    exact step_of_selects ((selects_of_dividing hact).2 ⟨bit, rest, hbits, Decoded.ok.inj hdec⟩)
  case oldest =>
    have hrun := runRequest_line (s := { s with ops := rest }) hdec
    obtain ⟨t, ht⟩ | ⟨hsends, hstop⟩ := htaken
    · rw [step_takes_oldest hact hops (hrun.trans ht), ht]
    · rw [step_of_idle hact, hops, ← hrun]
      exact takeRequest_of_stop (hrun ▸ hstop.symm) (takeSend_eq_none.2 hsends)
  case givenUp =>
    have hrun := runRequest_line (s := { s with ops := rest }) hdec
    rw [step_of_idle hact, hops,
      takeRequest_of_bufferFull (hrun.trans hfull) (takeSend_eq_none.2 hsends) hne,
      step_of_idle (s := { s with ops := rest }) hact]
    exact (takeRequest_withOps hne s rest).symm
  case sender =>
    rw [step_takes_send hact hops hheld hbefore (isSend_line hdec hi)]
    exact runRequest_line (s := { s with ops := held :: (before ++ behind) }) hdec

end Sys2Proof.Machine

/-! SUPPORT. Un-stuffing undoes stuffing (spec/30_encoding.md rules R61, R65, R66;
spec/41_encode.md rule R115). -/

namespace Sys2Proof.Machine

theorem classOf_eq_other_of_isTag {c : Cfg} {b : Byte} (h : c.isTag b = false) :
    c.classOf b = .other := by
  simpa [Cfg.isTag] using h

/-- One data byte, escaped or not, un-stuffs to itself (rules R61, R66). -/
theorem unstuff_stuffed {c : Cfg} (hwf : c.wf = true) (b : Byte) :
    unstuff c (stuffed c b) = some [b] := by
  cases hb : c.isTag b with
  | true => simp [stuffed, hb, unstuff_cons_escape (classOf_escapeTag hwf)]
  | false => simp [stuffed, hb, unstuff_cons_other (classOf_eq_other_of_isTag hb)]

/-- The stuffed payload un-stuffs to the payload (rule R65). -/
theorem unstuff_stuffAll {c : Cfg} (hwf : c.wf = true) (p : Bytes) :
    unstuff c (stuffAll c p) = some p := by
  induction p with
  | nil => exact unstuff_nil c
  | cons b p ih => rw [stuffAll_cons, unstuff_append (unstuff_stuffed hwf b), ih]; rfl

/-- A tag value alone is no region: an escape has nothing after it, START and STOP end the region
(rule R66). -/
theorem unstuff_tag {c : Cfg} {t : Byte} (h : c.isTag t = true) : unstuff c [t] = none := by
  unfold unstuff
  cases ht : c.classOf t with
  | start | stop | escape => rfl
  | other => simp [Cfg.isTag, ht] at h

/-- Settles O48: un-stuffing goes on after the payload with the trailer alone. -/
theorem stuffedRegionParsesBackToThePayload : Obligations.StuffedRegionParsesBackToThePayload := by
  intro c p t hwf
  have hpayload := unstuff_stuffAll hwf p
  refine ⟨hpayload, fun ht => ?_, fun ht => ?_⟩
  · rw [unstuff_append hpayload, unstuff_cons_other (classOf_eq_other_of_isTag ht)]
    simp
  · rw [unstuff_append hpayload, unstuff_tag ht, Option.map_none]

end Sys2Proof.Machine

/-! SUPPORT. The division loop of the CRC on naturals: what a bit step and a run of bit steps leave
in the accumulator, and its range (spec/40_trailer_arithmetic.md rules R90 to R92). -/

namespace Sys2Proof.Machine

/-- What a well-formed configuration says of its generator (rule R11 clause 4). -/
def IsGenerator (poly len : Nat) : Prop :=
  2 ≤ len ∧ len ≤ 9 ∧ 2 ^ (len - 1) ≤ poly ∧ poly < 2 ^ len

theorem isGenerator_of_wf {c : Cfg} {poly len : Nat} (hwf : c.wf = true)
    (hc : c.scheme = .crc poly len) : IsGenerator poly len :=
  generator_bounds hwf hc

/-- A bit of a byte, by its value. -/
theorem toNat_getLsbD {w : Nat} (b : BitVec w) (i : Nat) :
    (b.getLsbD i).toNat = b.toNat / 2 ^ i % 2 := by
  rw [← BitVec.testBit_toNat, Nat.toNat_testBit]

/-- The shift and OR of a bit step lose nothing in 16 bits (rule R92). -/
theorem toNat_shiftLeft_or_bit {a : Acc} (bit : Bool) (ha : a.toNat < 2 ^ 15) :
    ((a <<< 1) ||| (if bit then 1 else 0)).toNat = 2 * a.toNat + bit.toNat := by
  have hbit : (if bit then 1 else 0 : Acc).toNat = bit.toNat := by cases bit <;> rfl
  rw [BitVec.toNat_or, hbit, BitVec.toNat_shiftLeft, Nat.mod_eq_of_lt (by omega),
    ← Nat.shiftLeft_add_eq_or_of_lt (by cases bit <;> decide), Nat.shiftLeft_eq]
  omega

section
variable {poly len : Nat} (hgen : IsGenerator poly len)
include hgen

theorem IsGenerator.two_pow_le : 2 ^ (len - 1) ≤ 2 ^ 8 := by
  obtain ⟨-, hlen, -⟩ := hgen
  exact Nat.pow_le_pow_right (by omega) (by omega)

theorem IsGenerator.poly_lt : poly < 2 ^ 9 := by
  obtain ⟨-, hlen, -, hhigh⟩ := hgen
  exact hhigh.trans_le (Nat.pow_le_pow_right (by omega) hlen)

/-- A bit step on an accumulator in its range is one step on unbounded naturals (rule R90). -/
theorem crcBit_toNat {a : Acc} (bit : Bool) (ha : a.toNat < 2 ^ (len - 1)) :
    (crcBit poly len a bit).toNat = crcStepNat poly len a.toNat bit.toNat := by
  have hshift := toNat_shiftLeft_or_bit bit (a := a) (by have := hgen.two_pow_le; omega)
  have htest : ((a <<< 1) ||| (if bit then 1 else 0)).getLsbD (len - 1)
      = decide ((2 * a.toNat + bit.toNat) / 2 ^ (len - 1) % 2 = 1) := by
    rw [← BitVec.testBit_toNat, hshift, Nat.testBit_eq_decide_div_mod_eq]
  simp only [crcBit, crcStepNat, htest, decide_eq_true_eq]
  split
  · rw [BitVec.toNat_xor, hshift, BitVec.toNat_ofNat,
      Nat.mod_eq_of_lt (by have := hgen.poly_lt; omega)]
  · exact hshift

/-- A run of bit steps keeps the accumulator in its range (rule R92). -/
theorem foldl_crcBit_lt (bits : List Bool) {a : Acc} (ha : a.toNat < 2 ^ (len - 1)) :
    (bits.foldl (crcBit poly len) a).toNat < 2 ^ (len - 1) := by
  obtain ⟨hlen, hlen9, hlow, hhigh⟩ := hgen
  induction bits generalizing a with
  | nil => exact ha
  | cons bit bits ih => exact ih (crcBit_lt bit hlen hlen9 hlow hhigh ha)

/-- A run of bit steps is the run on unbounded naturals (rules R90, R92). -/
theorem foldl_crcBit_toNat (bits : List Bool) {a : Acc} (ha : a.toNat < 2 ^ (len - 1)) :
    (bits.foldl (crcBit poly len) a).toNat
      = bits.foldl (fun n bit => crcStepNat poly len n bit.toNat) a.toNat := by
  induction bits generalizing a with
  | nil => rfl
  | cons bit bits ih =>
    rw [List.foldl_cons, List.foldl_cons, ← crcBit_toNat hgen bit ha]
    exact ih (foldl_crcBit_lt hgen [bit] ha)

theorem polyRem_lt (s : Bytes) : (polyRem poly len s).toNat < 2 ^ (len - 1) := by
  rw [polyRem, foldl_crcByte]
  exact foldl_crcBit_lt hgen (bitsOf s) (Nat.two_pow_pos _)

/-- The low eight bits of the accumulator are all of it (rule R92). -/
theorem crcRemainder_toNat (s : Bytes) :
    (crcRemainder poly len s).toNat = (polyRem poly len (s ++ [0])).toNat := by
  rw [crcRemainder, BitVec.toNat_setWidth]
  exact Nat.mod_eq_of_lt ((polyRem_lt hgen _).trans_le hgen.two_pow_le)

end

/-- The division loop on naturals takes the bits of the bytes in order (rule R91). -/
theorem divideNat_eq_foldl_bits (poly len : Nat) (s : Bytes) :
    divideNat poly len s
      = (bitsOf s).foldl (fun n bit => crcStepNat poly len n bit.toNat) 0 := by
  rw [divideNat, bitsOf, List.foldl_flatMap]
  congr 1
  funext n b
  simp only [bitsMsb, List.foldl_cons, List.foldl_nil, toNat_getLsbD]

/-- The CRC is the division loop on naturals (rules R91, R92). -/
theorem polyRem_toNat {poly len : Nat} (hgen : IsGenerator poly len) (s : Bytes) :
    (polyRem poly len s).toNat = divideNat poly len s := by
  rw [polyRem, foldl_crcByte, foldl_crcBit_toNat hgen _ (Nat.two_pow_pos _),
    divideNat_eq_foldl_bits]
  rfl

theorem crcRemainder_toNat_eq_divideNat {poly len : Nat} (hgen : IsGenerator poly len) (s : Bytes) :
    (crcRemainder poly len s).toNat = divideNat poly len (s ++ [0]) := by
  rw [crcRemainder_toNat hgen, polyRem_toNat hgen]

/-! ### The CRC functions -/

theorem exec_crcRemainder {s : State} {poly len : Nat} (bytes : Bytes) (hwf : s.cfg.wf = true)
    (hc : s.cfg.scheme = .crc poly len) :
    exec (.crcRemainder bytes) s
      = .next { s with out := { ret := some (.byte (crcRemainder poly len bytes)) } } := by
  rw [exec, execCrcRemainder]
  exact withGenerator_eq_next.2 ⟨hwf, poly, len, hc, rfl⟩

/-- CRC.BIT is the bit step of the evaluation in progress exactly with the operands of that step
(rules R90, R91). -/
theorem selects_crcBit_iff {s : State} {a : Acc} {bit : Bool} :
    s.selects (.crcBit a bit) = true
      ↔ s.act = .dividing ∧ s.acc = a ∧ s.crcBits.head? = some bit := by
  constructor
  · intro h
    obtain ⟨-, -, hrow⟩ | ⟨-, hrow⟩ | ⟨hact, -⟩ := selects_cases h
    · cases hrow
    · cases hrow
    · obtain ⟨bit', rest, hbits, heq⟩ := (selects_of_dividing hact).1 h
      cases heq
      exact ⟨hact, rfl, by rw [hbits, List.head?_cons]⟩
  · rintro ⟨hact, rfl, hhead⟩
    obtain ⟨rest, hbits⟩ := List.head?_eq_some_iff.1 hhead
    exact (selects_of_dividing hact).2 ⟨bit, rest, hbits, rfl⟩

theorem exec_crcBit_of_selects {s : State} {poly len : Nat} {a : Acc} {bit : Bool}
    (hwf : s.cfg.wf = true) (hc : s.cfg.scheme = .crc poly len)
    (hsel : s.selects (.crcBit a bit) = true) :
    exec (.crcBit a bit) s = .next { s with
      acc := crcBitValue poly len a bit, crcBits := s.crcBits.tail,
      out := { ret := some (.acc (crcBitValue poly len a bit)) } } := by
  rw [exec, execCrcBit]
  exact withGenerator_eq_next.2 ⟨hwf, poly, len, hc, if_pos hsel⟩

theorem exec_crcBit_of_not_selects {s : State} {poly len : Nat} {a : Acc} {bit : Bool}
    (hwf : s.cfg.wf = true) (hc : s.cfg.scheme = .crc poly len)
    (hsel : ¬ s.selects (.crcBit a bit) = true) :
    exec (.crcBit a bit) s
      = .next { s with out := { ret := some (.acc (crcBitValue poly len a bit)) } } := by
  rw [exec, execCrcBit]
  exact withGenerator_eq_next.2 ⟨hwf, poly, len, hc, if_neg hsel⟩

/-- Settles O27: the value in the range is the step on naturals; the row writes where it is
selected. -/
theorem crcBitIsOneStepOfLongDivision : Obligations.CrcBitIsOneStepOfLongDivision := by
  intro s poly len a bit hwf hc
  refine ⟨crcBitValue poly len a bit, fun ha => ?_, fun hact hacc hhead => ?_, fun hsel => ?_⟩
  · rw [crcBitValue, if_pos ha, crcBit_toNat (isGenerator_of_wf hwf hc) bit ha]
  · exact exec_crcBit_of_selects hwf hc (selects_crcBit_iff.2 ⟨hact, hacc, hhead⟩)
  · exact exec_crcBit_of_not_selects hwf hc (mt selects_crcBit_iff.1 hsel)

/-- Settles O28: the loop in 16 bits is the loop on naturals, and the remainder fits a byte. -/
theorem crcRemainderIsLongDivisionFromZero : Obligations.CrcRemainderIsLongDivisionFromZero := by
  intro s poly len bytes hwf hc
  have hgen := isGenerator_of_wf hwf hc
  exact ⟨crcRemainder poly len bytes, crcRemainder_toNat_eq_divideNat hgen bytes,
    crcRemainder_toNat hgen bytes ▸ polyRem_lt hgen _, exec_crcRemainder bytes hwf hc⟩

/-! ### The CRC evaluation bit by bit -/

theorem run_succ_of_step {M : Host.Core} {s t : M.State} (k : Nat) (h : M.step s = .next t) :
    M.run (k + 1) s = M.run k t := by
  rw [Host.Core.run, h]

theorem core_run_succ {s t : State} (k : Nat) (h : step s = .next t) :
    core.run (k + 1) s = core.run k t :=
  run_succ_of_step (M := core) k h

@[simp] theorem length_bitsOf (s : Bytes) : (bitsOf s).length = 8 * s.length := by
  have hbyte (b : Byte) : (bitsMsb b).length = 8 := rfl
  simp [bitsOf, List.length_flatMap, hbyte, Nat.mul_comm]

/-- A CRC evaluation in progress takes a step for each bit left and one that returns the low byte of
the accumulator (rule R91). -/
theorem run_of_dividing {s : State} {poly len : Nat} {bits : List Bool} (hwf : s.cfg.wf = true)
    (hc : s.cfg.scheme = .crc poly len) (hact : s.act = .dividing)
    (hacc : s.acc.toNat < 2 ^ (len - 1)) (hbits : s.crcBits = bits) :
    core.run (bits.length + 1) s = .next { s with
      act := .idle, acc := 0, crcBits := [],
      out := { ret := some (.byte ((bits.foldl (crcBit poly len) s.acc).setWidth 8)) } } := by
  induction bits generalizing s with
  | nil =>
    have hend := step_of_bits_used hact hbits
    rw [withGenerator_eq_next.2 ⟨hwf, poly, len, hc, rfl⟩] at hend
    exact core_run_succ 0 hend
  | cons bit rest ih =>
    have hsel : s.selects (.crcBit s.acc bit) = true :=
      (selects_of_dividing hact).2 ⟨bit, rest, hbits, rfl⟩
    have hstep := exec_crcBit_of_selects hwf hc hsel
    rw [← step_of_selects hsel, crcBitValue, if_pos hacc, hbits, List.tail_cons] at hstep
    rw [List.length_cons, core_run_succ _ hstep]
    exact ih hwf hc hact (foldl_crcBit_lt (isGenerator_of_wf hwf hc) [bit] hacc) rfl

/-- Settles O29: the start, the bit steps of the bytes and the zero byte, and the return. -/
theorem crcEvaluationTakesEightStepsPerByte : Obligations.CrcEvaluationTakesEightStepsPerByte := by
  intro s poly len bytes rest hwf hc hact hops
  have hstart := step_takes_oldest hact hops
    (runRequest_startCrc (s := { s with ops := rest }) bytes hwf hc)
  have hdivide := run_of_dividing (bits := bitsOf (bytes ++ [0]))
    (s := State.enterCrc { s with out := {}, ops := rest } (bitsOf (bytes ++ [0])))
    hwf hc rfl (Nat.two_pow_pos _) rfl
  refine ⟨_, _, exec_crcRemainder bytes hwf hc, ?_, rfl⟩
  have hcount : 1 + 8 * (bytes.length + 1) + 1 = ((bitsOf (bytes ++ [0])).length + 1) + 1 := by
    rw [length_bitsOf, List.length_append, List.length_singleton]
    omega
  rw [hcount]
  refine (core_run_succ _ hstart).trans (hdivide.trans ?_)
  rw [crcRemainder, crcAcc_eq_foldl_bits, ← hact]
  rfl

end Sys2Proof.Machine

/-! SUPPORT. Parity, and the strategy interface in both modes (spec/40_trailer_arithmetic.md rules
R94 to R96, R99). -/

namespace Sys2Proof.Machine

/-! ### Counting one bits -/

theorem count_true_eq_sum_toNat (bits : List Bool) :
    bits.count true = (bits.map Bool.toNat).sum := by
  induction bits with
  | nil => rfl
  | cons bit bits ih => cases bit <;> simp [ih, Nat.add_comm]

/-- The bits of a byte counted are its binary digits added up (rules R13, R94). -/
theorem popcount_eq_onesOf (b : Byte) : popcount b = onesOf b := by
  have hbits : bitsMsb b = ((List.range 8).map b.getLsbD).reverse := rfl
  rw [popcount, hbits, List.count_reverse, count_true_eq_sum_toNat, List.map_map, onesOf]
  exact congrArg List.sum (List.map_congr_left fun i _ => toNat_getLsbD b i)

theorem parityOf_eq (s : Bytes) : parityOf s = decide ((s.map onesOf).sum % 2 = 1) := by
  rw [parityOf, funext popcount_eq_onesOf]
  rfl

/-- XOR adds the ones of two bytes modulo 2. -/
theorem onesOf_xor_mod_two (a b : Byte) : onesOf (a ^^^ b) % 2 = (onesOf a + onesOf b) % 2 := by
  have hdigit (i : Nat) : (a ^^^ b).toNat / 2 ^ i % 2
      = (a.toNat / 2 ^ i % 2 + b.toNat / 2 ^ i % 2) % 2 := by
    rw [← toNat_getLsbD, ← toNat_getLsbD, ← toNat_getLsbD, BitVec.getLsbD_xor]
    cases a.getLsbD i <;> cases b.getLsbD i <;> rfl
  simp only [onesOf, hdigit]
  induction List.range 8 with
  | nil => rfl
  | cons i digits ih =>
    simp only [List.map_cons, List.sum_cons]
    omega

/-- The ones of the inverted bits tell how the parity of two sequences of one length differs. -/
theorem sum_onesOf_zipWith_xor_mod_two {p q : Bytes} (h : p.length = q.length) :
    ((List.zipWith (· ^^^ ·) p q).map onesOf).sum % 2
      = ((p.map onesOf).sum + (q.map onesOf).sum) % 2 := by
  induction p generalizing q with
  | nil => rw [List.length_eq_zero_iff.1 h.symm]; rfl
  | cons a p ih =>
    cases q with
    | nil => simp at h
    | cons b q =>
      have hhead := onesOf_xor_mod_two a b
      have htail := ih (Nat.succ.inj h)
      simp only [List.zipWith_cons_cons, List.map_cons, List.sum_cons]
      omega

/-! ### The trailer in PARITY mode -/

/-- The sentinels of a well-formed configuration are different bytes and no tags (rule R11 clauses 2
and 3). -/
theorem sentinels_of_wf {c : Cfg} {even odd : Byte} (hwf : c.wf = true)
    (hc : c.scheme = .parity even odd) :
    c.notTag even = true ∧ c.notTag odd = true ∧ even ≠ odd := by
  simp only [Cfg.wf, Cfg.sentinelsNoTags, Cfg.sentinelsDiffer, hc, Bool.and_eq_true,
    bne_iff_ne] at hwf
  obtain ⟨⟨⟨⟨-, hnotTag⟩, hne⟩, -⟩, -⟩ := hwf
  exact ⟨hnotTag.1, hnotTag.2, hne⟩

theorem notTag_eq_true {c : Cfg} {b : Byte} :
    c.notTag b = true ↔ b ≠ c.startTag ∧ b ≠ c.stopTag ∧ b ≠ c.escapeTag := by
  simp [Cfg.notTag, and_assoc]

theorem computeTrailer_of_crc {c : Cfg} {poly len : Nat} (hc : c.scheme = .crc poly len)
    (p : Bytes) :
    computeTrailer c p = crcRemainder poly len p := by
  rw [computeTrailer, hc]

/-- The sentinel names the parity of the ones (rule R95). -/
theorem computeTrailer_of_parity {c : Cfg} {even odd : Byte} (hc : c.scheme = .parity even odd)
    (p : Bytes) :
    computeTrailer c p = if (p.map onesOf).sum % 2 = 1 then odd else even := by
  simp only [computeTrailer, hc, parityOf_eq, decide_eq_true_eq]

/-- No sentinel is a tag, so no trailer is (rule R95). -/
theorem notTag_computeTrailer_of_parity {c : Cfg} {even odd : Byte} (hwf : c.wf = true)
    (hc : c.scheme = .parity even odd) (p : Bytes) : c.notTag (computeTrailer c p) = true := by
  obtain ⟨heven, hodd, -⟩ := sentinels_of_wf hwf hc
  rw [computeTrailer_of_parity hc]
  split
  · exact hodd
  · exact heven

/-- Recompute and compare (rule R96, decision D7). -/
theorem isValid_iff {c : Cfg} {p : Bytes} {t : Byte} :
    isValid c p t = true ↔ t = computeTrailer c p := by
  rw [isValid, beq_iff_eq]

/-- In PARITY mode a trailer passes for exactly the payloads of its parity (rules R96, R99). -/
theorem isValid_computeTrailer_of_parity {c : Cfg} (hwf : c.wf = true)
    (hmode : c.scheme.mode = .parity) (p q : Bytes) :
    isValid c q (computeTrailer c p) = true
      ↔ (p.map onesOf).sum % 2 = (q.map onesOf).sum % 2 := by
  cases hc : c.scheme with
  | crc poly len => simp [Scheme.mode, hc] at hmode
  | parity even odd =>
    obtain ⟨-, -, hne⟩ := sentinels_of_wf hwf hc
    rw [isValid_iff, computeTrailer_of_parity hc, computeTrailer_of_parity hc]
    obtain hp | hp := Nat.mod_two_eq_zero_or_one (p.map onesOf).sum <;>
      obtain hq | hq := Nat.mod_two_eq_zero_or_one (q.map onesOf).sum <;>
      simp [hp, hq, hne, hne.symm]

/-! ### The functions -/

/-- Settles O30: the count of the bits by value. -/
theorem parityOfTellsAnOddNumberOfOnes : Obligations.ParityOfTellsAnOddNumberOfOnes := by
  intro s bytes hwf
  rw [← parityOf_eq, exec, execParityOf]
  exact atomically_eq_next.2 ⟨hwf, rfl⟩

theorem exec_trailerCompute {s : State} (p : Bytes) (hwf : s.cfg.wf = true) :
    exec (.trailerCompute p) s
      = .next { s with out := { ret := some (.byte (computeTrailer s.cfg p)) } } := by
  rw [exec, execTrailerCompute]
  exact atomically_eq_next.2 ⟨hwf, rfl⟩

theorem exec_trailerIsValid {s : State} (p : Bytes) (t : Byte) (hwf : s.cfg.wf = true) :
    exec (.trailerIsValid p t) s
      = .next { s with out := { ret := some (.bool (isValid s.cfg p t)) } } := by
  rw [exec, execTrailerIsValid]
  exact atomically_eq_next.2 ⟨hwf, rfl⟩

/-- Settles O31: by the trailer of each mode. -/
theorem trailerIsRemainderOrParitySentinel : Obligations.TrailerIsRemainderOrParitySentinel := by
  intro s p hwf
  refine ⟨fun poly len hc => ⟨computeTrailer s.cfg p, ?_, exec_trailerCompute p hwf⟩,
    fun even odd hc => ⟨computeTrailer s.cfg p, computeTrailer_of_parity hc p, ?_⟩⟩
  · rw [computeTrailer_of_crc hc, crcRemainder_toNat_eq_divideNat (isGenerator_of_wf hwf hc)]
  · obtain ⟨hstart, hstop, hescape⟩ := notTag_eq_true.1 (notTag_computeTrailer_of_parity hwf hc p)
    exact ⟨hstart, hstop, hescape, exec_trailerCompute p hwf⟩

/-- Settles O32: the verdict compares with the recomputed trailer; the two parities give the two
sentinel forms. -/
theorem validityIsRecomputeAndCompare : Obligations.ValidityIsRecomputeAndCompare := by
  intro s p t hwf
  refine ⟨isValid s.cfg p t, exec_trailerIsValid p t hwf,
    ⟨computeTrailer s.cfg p, exec_trailerCompute p hwf, isValid_iff⟩, fun even odd hc => ?_⟩
  rw [isValid_iff, computeTrailer_of_parity hc]
  obtain hodd | heven := (Nat.mod_two_eq_zero_or_one (p.map onesOf).sum).symm
  · simp [hodd]
  · simp [heven]

/-- Settles O60: an odd number of inverted bits changes the parity, an even number keeps it. -/
theorem parityDetectsOddErrorsOnly : Obligations.ParityDetectsOddErrorsOnly := by
  intro c p p' t' hwf hmode hlen
  have hflips := sum_onesOf_zipWith_xor_mod_two hlen
  have hvalid := isValid_computeTrailer_of_parity hwf hmode p p'
  refine ⟨fun hodd => ?_, fun heven => hvalid.2 (by omega), fun hne => ?_⟩
  · exact Bool.eq_false_iff.2 fun h => by have := hvalid.1 h; omega
  · exact Bool.eq_false_iff.2 (mt isValid_iff.1 hne)

end Sys2Proof.Machine

/-! SUPPORT. The CRC as arithmetic of polynomials over GF(2) (spec/40_trailer_arithmetic.md
rules R93, R97, R98). -/

namespace Sys2Proof.Machine

open Polynomial

/-! ### Numbers as polynomials -/

theorem coeff_polyOfNat {n : Nat} (hn : n < 2 ^ 16) (j : Nat) :
    (polyOfNat n).coeff j = if n.testBit j then 1 else 0 := by
  have hterm (i : Nat) : (if n.testBit i then (X : (ZMod 2)[X]) ^ i else 0).coeff j
      = if j = i then if n.testBit i then 1 else 0 else 0 := by
    split <;> simp [coeff_X_pow]
  rw [polyOfNat, finsetSum_coeff, Finset.sum_congr rfl fun i _ => hterm i, Finset.sum_ite_eq]
  split
  · rfl
  next hj =>
    rw [Nat.testBit_lt_two_pow (hn.trans_le (Nat.pow_le_pow_right (by omega)
      (by simpa using hj)))]
    rfl

theorem polyOfNat_injective {m n : Nat} (hm : m < 2 ^ 16) (hn : n < 2 ^ 16)
    (h : polyOfNat m = polyOfNat n) : m = n := by
  refine Nat.eq_of_testBit_eq fun j => ?_
  have hj := congrArg (coeff · j) h
  simp only [coeff_polyOfNat hm, coeff_polyOfNat hn] at hj
  cases hmj : m.testBit j <;> cases hnj : n.testBit j <;> simp [hmj, hnj] at hj ⊢

theorem polyOfNat_toNat_inj {w : Nat} (hw : w ≤ 16) {a b : BitVec w} :
    polyOfNat a.toNat = polyOfNat b.toNat ↔ a = b := by
  have hle : 2 ^ w ≤ 2 ^ 16 := Nat.pow_le_pow_right (by omega) hw
  refine ⟨fun h => BitVec.eq_of_toNat_eq ?_, fun h => h ▸ rfl⟩
  exact polyOfNat_injective (a.isLt.trans_le hle) (b.isLt.trans_le hle) h

@[simp] theorem polyOfNat_zero : polyOfNat 0 = 0 := by simp [polyOfNat]

theorem polyOfNat_toNat_eq_zero_iff {w : Nat} (hw : w ≤ 16) {a : BitVec w} :
    a = 0 ↔ polyOfNat a.toNat = 0 := by
  rw [← polyOfNat_toNat_inj hw, BitVec.ofNat_eq_ofNat, BitVec.toNat_ofNat, Nat.zero_mod,
    polyOfNat_zero]

theorem polyOfNat_two_pow {k : Nat} (hk : k < 16) : polyOfNat (2 ^ k) = X ^ k := by
  simp only [polyOfNat, Nat.testBit_two_pow, decide_eq_true_eq]
  rw [Finset.sum_ite_eq, if_pos (Finset.mem_range.2 hk)]

/-- XOR is addition over GF(2) (rule R93). -/
theorem polyOfNat_xor (m n : Nat) : polyOfNat (m ^^^ n) = polyOfNat m + polyOfNat n := by
  rw [polyOfNat, polyOfNat, polyOfNat, ← Finset.sum_add_distrib]
  refine Finset.sum_congr rfl fun j _ => ?_
  rw [Nat.testBit_xor]
  cases m.testBit j <;> cases n.testBit j <;> simp [CharTwo.add_self_eq_zero]

/-- Shifting a bit in multiplies by `x` and adds the bit (rule R93). -/
theorem polyOfNat_shift {n : Nat} (bit : Bool) (hn : n < 2 ^ 15) :
    polyOfNat (2 * n + bit.toNat) = polyOfNat n * X + (if bit then 1 else 0) := by
  have hbit := bit.toNat_le
  ext j
  rw [coeff_polyOfNat (by omega), coeff_add]
  cases j with
  | zero => cases bit <;> simp [Nat.testBit_zero]
  | succ j =>
    have hdiv : (2 * n + bit.toNat) / 2 = n := by omega
    rw [coeff_mul_X, coeff_polyOfNat (by omega), Nat.testBit_succ, hdiv]
    cases bit <;> simp [coeff_one]

theorem degree_polyOfNat_lt {n k : Nat} (hn : n < 2 ^ k) (hk : k ≤ 16) :
    (polyOfNat n).degree < k := by
  refine (degree_lt_iff_coeff_zero _ _).2 fun j hj => ?_
  rw [coeff_polyOfNat (hn.trans_le (Nat.pow_le_pow_right (by omega) hk)),
    Nat.testBit_lt_two_pow (hn.trans_le (Nat.pow_le_pow_right (by omega) hj))]
  rfl

/-! ### The generator -/

section
variable {poly len : Nat} (hgen : IsGenerator poly len)
include hgen

theorem IsGenerator.degree_le : (polyOfNat poly).degree ≤ (len - 1 : Nat) := by
  obtain ⟨hlen, hlen9, -, hhigh⟩ := hgen
  have := degree_polyOfNat_lt hhigh (by omega)
  rw [degree_lt_iff_coeff_zero] at this
  refine (degree_le_iff_coeff_zero _ _).2 fun j hj => this j ?_
  have hj : len - 1 < j := by exact_mod_cast hj
  omega

/-- The highest set bit of the generator is bit `GEN_LEN-1` (rule R11 clause 4). -/
theorem IsGenerator.coeff_top : (polyOfNat poly).coeff (len - 1) = 1 := by
  have hpoly := hgen.poly_lt
  obtain ⟨hlen, hlen9, hlow, hhigh⟩ := hgen
  rw [coeff_polyOfNat (by omega), if_pos]
  by_contra htop
  have := lt_two_pow_of_testBit_eq_false (k := len - 1) (by rwa [Nat.sub_add_cancel (by omega)])
    (Bool.not_eq_true _ ▸ htop)
  omega

theorem IsGenerator.monic : (polyOfNat poly).Monic :=
  monic_of_degree_le _ hgen.degree_le hgen.coeff_top

theorem IsGenerator.degree_eq : (polyOfNat poly).degree = (len - 1 : Nat) :=
  degree_eq_of_le_of_coeff_ne_zero hgen.degree_le (by rw [hgen.coeff_top]; exact one_ne_zero)

/-- A number in the accumulator's range is its own remainder. -/
theorem IsGenerator.degree_lt {n : Nat} (hn : n < 2 ^ (len - 1)) :
    (polyOfNat n).degree < (polyOfNat poly).degree := by
  rw [hgen.degree_eq]
  exact degree_polyOfNat_lt hn (by obtain ⟨-, hlen9, -⟩ := hgen; omega)

end

/-! ### Bit sequences as polynomials -/

@[simp] theorem polyOfBits_nil : polyOfBits [] = 0 := rfl

@[simp] theorem polyOfBits_concat (bits : List Bool) (bit : Bool) :
    polyOfBits (bits ++ [bit]) = polyOfBits bits * X + (if bit then 1 else 0) := by
  rw [polyOfBits, List.foldl_concat]
  rfl

/-- The first bits stand at the higher powers (rule R93). -/
theorem polyOfBits_append (u v : List Bool) :
    polyOfBits (u ++ v) = polyOfBits u * X ^ v.length + polyOfBits v := by
  induction v using List.reverseRecOn with
  | nil => simp
  | append_singleton v bit ih =>
    rw [← List.append_assoc, polyOfBits_concat, ih, polyOfBits_concat, List.length_append,
      List.length_singleton]
    ring

/-- The bits of a byte and its value are one polynomial (rules R42, R93). -/
theorem polyOfBits_bitsMsb (b : Byte) : polyOfBits (bitsMsb b) = polyOfNat b.toNat := by
  have hterm (j : Nat) : (if b.toNat.testBit j then (X : (ZMod 2)[X]) ^ j else 0)
      = (if b.getLsbD j then 1 else 0) * X ^ j := by
    rw [BitVec.testBit_toNat]
    split <;> simp
  have hhigh (j : Nat) : b.getLsbD (8 + j) = false := BitVec.getLsbD_of_ge b _ (by omega)
  simp only [polyOfNat, hterm, Finset.sum_range_add _ 8 8, hhigh]
  simp only [polyOfBits, bitsMsb, List.foldl_cons, List.foldl_nil, Finset.sum_range_succ,
    Finset.sum_range_zero, Bool.false_eq_true, if_false, zero_mul]
  ring

theorem bitsOf_append (s t : Bytes) : bitsOf (s ++ t) = bitsOf s ++ bitsOf t :=
  List.flatMap_append

theorem polyOfBits_bitsOf_append (s t : Bytes) :
    polyOfBits (bitsOf (s ++ t))
      = polyOfBits (bitsOf s) * X ^ (8 * t.length) + polyOfBits (bitsOf t) := by
  rw [bitsOf_append, polyOfBits_append, length_bitsOf]

theorem polyOfBits_bitsOf_singleton (b : Byte) : polyOfBits (bitsOf [b]) = polyOfNat b.toNat := by
  rw [← polyOfBits_bitsMsb, bitsOf, List.flatMap_singleton]

theorem polyOfBits_bitsOf_concat (s : Bytes) (b : Byte) :
    polyOfBits (bitsOf (s ++ [b])) = polyOfBits (bitsOf s) * X ^ 8 + polyOfNat b.toNat := by
  rw [polyOfBits_bitsOf_append, polyOfBits_bitsOf_singleton, List.length_singleton, mul_one]

/-- The appended zero byte multiplies by `x^8` (rule R93). -/
theorem polyOfBits_bitsOf_concat_zero (s : Bytes) :
    polyOfBits (bitsOf (s ++ [0])) = polyOfBits (bitsOf s) * X ^ 8 := by
  rw [polyOfBits_bitsOf_concat, BitVec.ofNat_eq_ofNat, BitVec.toNat_ofNat, Nat.zero_mod,
    polyOfNat_zero, add_zero]

/-! ### The division loop is the division -/

section
variable {poly len : Nat} (hgen : IsGenerator poly len)
include hgen

/-- A bit step takes a multiple of the generator away from the shifted accumulator (rules R90,
R93). -/
theorem dvd_shift_sub_crcBit {a : Acc} (bit : Bool) (ha : a.toNat < 2 ^ (len - 1)) :
    polyOfNat poly ∣
      polyOfNat a.toNat * X + (if bit then 1 else 0) - polyOfNat (crcBit poly len a bit).toNat := by
  have hlow : a.toNat < 2 ^ 15 := by have := hgen.two_pow_le; omega
  rw [crcBit_toNat hgen bit ha, ← polyOfNat_shift bit hlow, crcStepNat]
  split
  · rw [polyOfNat_xor, sub_add_cancel_left]
    exact (dvd_refl _).neg_right
  · rw [sub_self]
    exact dvd_zero _

/-- A run of bit steps from zero takes a multiple of the generator away from the polynomial of the
bits (rule R93). -/
theorem dvd_polyOfBits_sub_foldl (bits : List Bool) :
    polyOfNat poly ∣ polyOfBits bits - polyOfNat (bits.foldl (crcBit poly len) 0).toNat := by
  induction bits using List.reverseRecOn with
  | nil => simp
  | append_singleton bits bit ih =>
    have hlt := foldl_crcBit_lt hgen bits (a := 0) (Nat.two_pow_pos _)
    have hstep := dvd_shift_sub_crcBit hgen bit hlt
    rw [List.foldl_concat, polyOfBits_concat]
    convert (ih.mul_right X).add hstep using 1
    ring

theorem polyRem_eq_modByMonic (s : Bytes) :
    polyOfNat (polyRem poly len s).toNat = polyOfBits (bitsOf s) %ₘ polyOfNat poly := by
  have hdvd := dvd_polyOfBits_sub_foldl hgen (bitsOf s)
  rw [← foldl_crcByte] at hdvd
  obtain ⟨q, hq⟩ := hdvd
  exact (div_modByMonic_unique q _ hgen.monic
    ⟨by rw [← hq]; exact add_sub_cancel _ _, hgen.degree_lt (polyRem_lt hgen s)⟩).2.symm

theorem crcRemainder_eq_modByMonic (s : Bytes) :
    polyOfNat (crcRemainder poly len s).toNat
      = (polyOfBits (bitsOf s) * X ^ 8) %ₘ polyOfNat poly := by
  rw [crcRemainder_toNat hgen, polyRem_eq_modByMonic hgen, polyOfBits_bitsOf_concat_zero]

/-- The loop ends at zero exactly for the multiples of the generator (rule R93). -/
theorem polyRem_eq_zero_iff_dvd (s : Bytes) :
    polyRem poly len s = 0 ↔ polyOfNat poly ∣ polyOfBits (bitsOf s) := by
  rw [polyOfNat_toNat_eq_zero_iff (by decide), polyRem_eq_modByMonic hgen,
    modByMonic_eq_zero_iff_dvd hgen.monic]

theorem crcRemainder_eq_zero_iff_dvd (s : Bytes) :
    crcRemainder poly len s = 0 ↔ polyOfNat poly ∣ polyOfBits (bitsOf s) * X ^ 8 := by
  rw [polyOfNat_toNat_eq_zero_iff (by decide), crcRemainder_eq_modByMonic hgen,
    modByMonic_eq_zero_iff_dvd hgen.monic]

end

/-- Settles O57: by the remainder of the loop and of the loop over one zero byte more. -/
theorem crcIsThePolynomialRemainder : Obligations.CrcIsThePolynomialRemainder := by
  intro c poly len bytes hwf hc
  have hgen := isGenerator_of_wf hwf hc
  exact ⟨polyRem_eq_modByMonic hgen bytes, crcRemainder_eq_modByMonic hgen bytes⟩

/-! ### The zero-remainder forms of the check -/

/-- With a 9-bit generator a trailer is its own remainder, so it is the recomputed one exactly when
payload and trailer divide to zero (rule R97 item 1). -/
theorem eq_crcRemainder_iff_polyRem_eq_zero {poly : Nat} (hgen : IsGenerator poly 9) (p : Bytes)
    (t : Byte) : t = crcRemainder poly 9 p ↔ polyRem poly 9 (p ++ [t]) = 0 := by
  have hself : polyOfNat t.toNat %ₘ polyOfNat poly = polyOfNat t.toNat :=
    (modByMonic_eq_self_iff hgen.monic).2 (hgen.degree_lt t.isLt)
  rw [polyRem_eq_zero_iff_dvd hgen, polyOfBits_bitsOf_concat,
    ← modByMonic_eq_zero_iff_dvd hgen.monic, add_modByMonic, hself,
    ← crcRemainder_eq_modByMonic hgen, CharTwo.add_eq_zero,
    polyOfNat_toNat_inj (by decide), eq_comm]

/-- `x` is invertible modulo a generator with a constant term (rule R97 item 2). -/
theorem isCoprime_polyOfNat_X_pow {poly : Nat} (hpoly : poly < 2 ^ 16) (hodd : poly % 2 = 1)
    (k : Nat) :
    IsCoprime (polyOfNat poly) (X ^ k) := by
  refine (IsCoprime.pow_left ((irreducible_X.coprime_iff_not_dvd).2 fun hdvd => ?_)).symm
  have hcoeff := X_dvd_iff.1 hdvd
  simp [coeff_polyOfNat hpoly, Nat.testBit_zero, hodd] at hcoeff

theorem isValid_iff_polyRem_eq_zero {c : Cfg} {poly : Nat} (hwf : c.wf = true)
    (hc : c.scheme = .crc poly 9) (p : Bytes) (t : Byte) :
    isValid c p t = true ↔ polyRem poly 9 (p ++ [t]) = 0 := by
  rw [isValid_iff, computeTrailer_of_crc hc,
    eq_crcRemainder_iff_polyRem_eq_zero (isGenerator_of_wf hwf hc)]

/-- Settles O58: by the multiples of the generator; the counter-examples are closed. -/
theorem zeroRemainderFormsOfTheCheck : Obligations.ZeroRemainderFormsOfTheCheck := by
  refine ⟨fun c poly p t hwf hc => ⟨isValid_iff_polyRem_eq_zero hwf hc p t, fun hodd => ?_⟩,
    by decide +kernel, by decide +kernel⟩
  have hgen := isGenerator_of_wf hwf hc
  have hcoprime := isCoprime_polyOfNat_X_pow (by have := hgen.poly_lt; omega) hodd 8
  rw [isValid_iff_polyRem_eq_zero hwf hc, polyRem_eq_zero_iff_dvd hgen,
    crcRemainder_eq_zero_iff_dvd hgen]
  exact ⟨fun h => h.mul_right _, hcoprime.dvd_of_dvd_mul_right⟩

/-! ### Single-bit errors -/

/-- Inverting bit `k` of a byte adds `x^k` (rules R93, R98). -/
theorem polyOfNat_flipBit (b : Byte) {k : Nat} (hk : k < 8) :
    polyOfNat (flipBit b k).toNat = polyOfNat b.toNat + X ^ k := by
  have hpow : 2 ^ k < 2 ^ 8 := Nat.pow_lt_pow_right (by omega) hk
  rw [flipBit, BitVec.toNat_xor, BitVec.toNat_ofNat, Nat.mod_eq_of_lt hpow, polyOfNat_xor,
    polyOfNat_two_pow (by omega)]

/-- One inverted bit of a byte sequence adds one power of `x` (rule R98). -/
theorem polyOfBits_modify_flipBit (s : Bytes) {i k : Nat} (hi : i < s.length) (hk : k < 8) :
    ∃ j, polyOfBits (bitsOf (s.modify i fun b => flipBit b k)) = polyOfBits (bitsOf s) + X ^ j := by
  obtain ⟨u, b, v, rfl, -, hmodify⟩ := List.exists_of_modify (fun b => flipBit b k) hi
  refine ⟨k + 8 * v.length, ?_⟩
  have hbytes (x : Byte) : polyOfBits (bitsOf (u ++ x :: v))
      = (polyOfBits (bitsOf u) * X ^ 8 + polyOfNat x.toNat) * X ^ (8 * v.length)
        + polyOfBits (bitsOf v) := by
    rw [List.append_cons, polyOfBits_bitsOf_append, polyOfBits_bitsOf_concat]
  rw [hmodify, hbytes, hbytes, polyOfNat_flipBit b hk]
  ring

/-- A generator of at least two bits divides no power of `x` (rule R98). -/
theorem not_dvd_X_pow {poly : Nat} (hgen : IsGenerator poly 9) (hne : poly ≠ 0x100) (j : Nat) :
    ¬ polyOfNat poly ∣ X ^ j := by
  intro hdvd
  obtain ⟨m, -, hassoc⟩ := (dvd_prime_pow prime_X j).1 hdvd
  have hpow : polyOfNat poly = X ^ m := eq_of_monic_of_associated hgen.monic (monic_X_pow m) hassoc
  have hdeg := hgen.degree_eq
  rw [hpow, degree_X_pow, Nat.cast_inj] at hdeg
  rw [hdeg, ← polyOfNat_two_pow (by omega)] at hpow
  exact hne (polyOfNat_injective (by have := hgen.poly_lt; omega) (by decide) hpow)

/-- Settles O59: payload and trailer are a multiple of the generator, and a power of `x` added makes
them none. -/
theorem crcDetectsEverySingleBitError : Obligations.CrcDetectsEverySingleBitError := by
  refine ⟨fun c poly p p' t' i k hwf hc hne hi hk hflip => ?_,
    by decide +kernel, by decide +kernel⟩
  have hgen := isGenerator_of_wf hwf hc
  have hsent := (eq_crcRemainder_iff_polyRem_eq_zero hgen p _).1 rfl
  rw [polyRem_eq_zero_iff_dvd hgen] at hsent
  obtain ⟨j, hj⟩ := polyOfBits_modify_flipBit (p ++ [crcRemainder poly 9 p]) (i := i)
    (by simpa using hi) hk
  refine Bool.eq_false_iff.2 fun hvalid => not_dvd_X_pow hgen hne j ?_
  rw [isValid_iff_polyRem_eq_zero hwf hc, hflip, polyRem_eq_zero_iff_dvd hgen, hj] at hvalid
  exact (dvd_add_right hsent).1 hvalid

end Sys2Proof.Machine

/-! SUPPORT. ENCODE, as one operation and byte step by byte step (spec/41_encode.md,
spec/30_encoding.md rules R60, R61, R64). -/

namespace Sys2Proof.Machine

/-! ### The rows of an ENCODE -/

/-- In an ENCODE in progress a row is selected where its table line holds (rule R69). -/
theorem selects_of_txRow {s : State} {i : Instr} (hact : s.act = .encoding)
    (hrow : TxRow s.cfg s.txPhase (s.txChunk.drop s.txPos) i) : s.selects i = true :=
  (selects_of_encoding hact).2 hrow.decodeTx_eq

section Rows

variable {s : State} (hwf : s.cfg.wf = true) (hact : s.act = .encoding)
include hwf hact

theorem exec_encOpen (hphase : s.txPhase = .opening) :
    exec .encOpen s
      = .next { s with txBuf := [s.cfg.startTag], txPhase := .body, out := {} } := by
  rw [exec, execEncOpen]
  exact microStep_eq_next.2 ⟨hwf, selects_of_txRow hact (.encOpen hphase), rfl⟩

theorem exec_encStuff {b : Byte} {tail : Bytes} (hphase : s.txPhase = .body)
    (hrest : s.txChunk.drop s.txPos = b :: tail) (hb : s.cfg.isTag b = true) :
    exec (.encStuff b) s = .next { s with
      txBuf := s.txBuf ++ [s.cfg.escapeTag, b], txPos := s.txPos + 1, out := {} } := by
  rw [exec, execEncStuff]
  exact microStep_eq_next.2 ⟨hwf, selects_of_txRow hact (.encStuff b tail hphase hrest hb), rfl⟩

theorem exec_encPlain {b : Byte} {tail : Bytes} (hphase : s.txPhase = .body)
    (hrest : s.txChunk.drop s.txPos = b :: tail) (hb : s.cfg.isTag b = false) :
    exec (.encPlain b) s
      = .next { s with txBuf := s.txBuf ++ [b], txPos := s.txPos + 1, out := {} } := by
  rw [exec, execEncPlain]
  exact microStep_eq_next.2 ⟨hwf, selects_of_txRow hact (.encPlain b tail hphase hrest hb), rfl⟩

theorem exec_encTrailer (hphase : s.txPhase = .body) (hrest : s.txChunk.drop s.txPos = []) :
    exec .encTrailer s = .next { s with
      txBuf := s.txBuf ++ [computeTrailer s.cfg s.txChunk], txPhase := .closing, out := {} } := by
  rw [exec, execEncTrailer]
  exact microStep_eq_next.2 ⟨hwf, selects_of_txRow hact (.encTrailer hphase hrest), rfl⟩

theorem exec_encClose (hphase : s.txPhase = .closing) :
    exec .encClose s = .next { s with
      act := .idle, txChunk := [], txPos := 0, txPhase := .opening, txBuf := [],
      out := { txOut := some (s.txBuf ++ [s.cfg.stopTag]) } } := by
  rw [exec, execEncClose]
  exact microStep_eq_next.2 ⟨hwf, selects_of_txRow hact (.encClose hphase), rfl⟩

end Rows

/-- What is left of a list from a position on begins with the byte at that position. -/
theorem drop_eq_cons_of_getElem? {l : Bytes} {k : Nat} {b : Byte} (h : l[k]? = some b) :
    l.drop k = b :: l.drop (k + 1) := by
  rw [List.drop_eq_getElem?_toList_append, h]
  rfl

/-- Settles O17: the row of the byte's own class is the selected one. -/
theorem payloadBytesAreStuffedByTheirValue : Obligations.PayloadBytesAreStuffedByTheirValue := by
  intro s b hwf hact hphase hb
  have hrest := drop_eq_cons_of_getElem? hb
  exact ⟨fun htag => exec_encStuff hwf hact hphase hrest (isTag_eq_true.2 htag),
    fun h1 h2 h3 => exec_encPlain hwf hact hphase hrest (isTag_eq_false.2 ⟨h1, h2, h3⟩)⟩

/-- Settles O18: the rows before, after and behind the payload. -/
theorem frameOpensAndClosesWithUnstuffedTrailer :
    Obligations.FrameOpensAndClosesWithUnstuffedTrailer := fun _ hwf hact =>
  ⟨exec_encOpen hwf hact,
    fun hphase hwalked => exec_encTrailer hwf hact hphase (List.drop_eq_nil_iff.2 hwalked),
    exec_encClose hwf hact⟩

/-! ### The frame -/

theorem exec_encode {s : State} (chunk : Bytes) (hwf : s.cfg.wf = true) :
    exec (.encode chunk) s = .next { s with out := { txOut := some (frameOf s.cfg chunk) } } := by
  rw [exec, execEncode]
  exact atomically_eq_next.2 ⟨hwf, rfl⟩

/-- One byte for each payload byte and one for each escape (rules R61, R64). -/
theorem length_stuffAll (c : Cfg) (p : Bytes) :
    (stuffAll c p).length = p.length + p.countP c.isTag := by
  induction p with
  | nil => rfl
  | cons b rest ih =>
    cases hb : c.isTag b <;> simp [stuffed, hb, ih] <;> omega

theorem length_frameOf (c : Cfg) (p : Bytes) :
    (frameOf c p).length = p.length + p.countP c.isTag + 3 := by
  simp [frameOf, length_stuffAll]

theorem stuffed_eq (c : Cfg) (b : Byte) :
    stuffed c b = if b = c.startTag ∨ b = c.stopTag ∨ b = c.escapeTag then [c.escapeTag, b]
      else [b] :=
  if_congr isTag_eq_true rfl rfl

theorem isTag_eq_decide (c : Cfg) (b : Byte) :
    c.isTag b = decide (b = c.startTag ∨ b = c.stopTag ∨ b = c.escapeTag) :=
  Bool.eq_iff_iff.2 (isTag_eq_true.trans decide_eq_true_iff.symm)

/-- Settles O19: the frame is the model's `frameOf`, with `isTag` in the words of the rule. -/
theorem encodeEmitsExactlyOneFrame : Obligations.EncodeEmitsExactlyOneFrame := by
  intro s chunk hwf
  refine ⟨frameOf s.cfg chunk, ?_, exec_encode chunk hwf, rfl, List.getLast?_concat, ?_⟩
  · rw [frameOf, stuffAll, funext (stuffed_eq s.cfg)]
  · rw [length_frameOf, funext (isTag_eq_decide s.cfg)]

/-! ### ENCODE byte step by byte step -/

/-- A micro-step that answers is what the step runs (rules R68, R69). -/
theorem step_of_exec_microStep {i : Instr} {s t : State} (hi : i.isMicroStep = true)
    (h : exec i s = .next t) : step s = .next t :=
  (step_of_selects (selects_of_exec_microStep hi h)).trans h

/-- The step on a payload byte emits its stuffed form, whichever row it is (rules R111, R112). -/
theorem step_of_payload_byte {s : State} {b : Byte} {tail : Bytes} (hwf : s.cfg.wf = true)
    (hact : s.act = .encoding) (hphase : s.txPhase = .body)
    (hrest : s.txChunk.drop s.txPos = b :: tail) :
    step s = .next { s with
      txBuf := s.txBuf ++ stuffed s.cfg b, txPos := s.txPos + 1, out := {} } := by
  cases hb : s.cfg.isTag b with
  | true =>
    rw [step_of_exec_microStep rfl (exec_encStuff hwf hact hphase hrest hb), stuffed, if_pos hb]
  | false =>
    rw [step_of_exec_microStep rfl (exec_encPlain hwf hact hphase hrest hb), stuffed, hb]
    rfl

/-- From inside the payload an ENCODE takes a step for each byte left, one for the trailer and one
for the STOP, and keeps nothing (rules R110, R49). -/
theorem run_of_encoding {s : State} {rest : Bytes} (hwf : s.cfg.wf = true)
    (hact : s.act = .encoding) (hphase : s.txPhase = .body)
    (hrest : s.txChunk.drop s.txPos = rest) :
    core.run (rest.length + 2) s = .next (s.quiet.emitTx (s.txBuf ++ stuffAll s.cfg rest
      ++ [computeTrailer s.cfg s.txChunk] ++ [s.cfg.stopTag])).endEncode := by
  induction rest generalizing s with
  | nil =>
    have htrailer := step_of_exec_microStep rfl (exec_encTrailer hwf hact hphase hrest)
    rw [List.length_nil, core_run_succ _ htrailer, stuffAll_nil, List.append_nil]
    exact core_run_succ 0 (step_of_exec_microStep rfl (exec_encClose hwf hact rfl))
  | cons b rest ih =>
    have hbyte := step_of_payload_byte hwf hact hphase hrest
    have htail : s.txChunk.drop (s.txPos + 1) = rest := by
      rw [← List.drop_drop, hrest, List.drop_one, List.tail_cons]
    rw [List.length_cons, Nat.add_right_comm, core_run_succ _ hbyte, stuffAll_cons,
      ← List.append_assoc]
    exact ih hwf hact hphase htail

/-- An ENCODE just started takes three steps more than the chunk has bytes, and sends the frame. -/
theorem run_of_enterEncode {s : State} (chunk : Bytes) (hwf : s.cfg.wf = true) :
    core.run (chunk.length + 3) (s.enterEncode chunk)
      = .next (s.quiet.emitTx (frameOf s.cfg chunk)).endEncode := by
  have hopen := step_of_exec_microStep rfl
    (exec_encOpen (s := s.enterEncode chunk) hwf rfl rfl)
  rw [core_run_succ _ hopen]
  exact run_of_encoding hwf rfl rfl rfl

/-- Settles O35: the start request, and the steps of the ENCODE it starts. -/
theorem encodeIsItsByteSteps : Obligations.EncodeIsItsByteSteps := by
  intro s chunk rest hwf hact hops
  have hstart := step_takes_oldest hact hops
    (runRequest_startEncode (s := { s with ops := rest }) chunk hwf)
  have hencode := run_of_enterEncode (s := State.quiet { s with ops := rest }) chunk hwf
  refine ⟨_, _, exec_encode chunk hwf, ?_, rfl⟩
  rw [Nat.add_comm, core_run_succ _ hstart, hact]
  exact hencode

end Sys2Proof.Machine

/-! SUPPORT. The rows of an attempt, and their obligations (spec/42_decode.md rules R121 to R131). -/

namespace Sys2Proof.Machine

/-! ### Where a scan row is selected -/

/-- In an attempt in progress a row is selected where its table line holds (rule R68). -/
theorem selects_of_scanRow {s : State} {i : Instr} (hwf : s.cfg.wf = true)
    (hact : s.act = .scanning) (hin : s.scanInRange = true)
    (hrow : ScanRow s.cfg s.st s.cand.isEmpty (s.rxbuf.drop s.sp) i) : s.selects i = true :=
  (selects_of_scanning hact).2 ⟨hin, hrow.decodeScan_eq hwf⟩

theorem scanInRange_of_seeking {s : State} (hst : s.st = .seekingStart) (hsp : s.sp = 0) :
    s.scanInRange = true := by
  simp [State.scanInRange, hst, hsp]

theorem scanInRange_of_accumulating {s : State} (hst : s.st = .accumulating)
    (hsp : s.sp ≤ s.rxbuf.length) : s.scanInRange = true := by
  simp [State.scanInRange, hst, hsp]

theorem scanInRange_of_done {s : State} (hst : s.st = .done) : s.scanInRange = true := by
  simp [State.scanInRange, hst]

/-! ### The rows of SEEKING_START -/

section SeekRows

variable {s : State} (hwf : s.cfg.wf = true) (hact : s.act = .scanning)
  (hst : s.st = .seekingStart) (hsp : s.sp = 0)
include hwf hact hst hsp

/-- While seeking, the row is selected by the head of RXBUF (rule R24). -/
theorem selects_of_seekRow {i : Instr}
    (hrow : ScanRow s.cfg s.st s.cand.isEmpty s.rxbuf i) : s.selects i = true :=
  selects_of_scanRow hwf hact (scanInRange_of_seeking hst hsp) (by rwa [hsp, List.drop_zero])

theorem exec_seekEnd (hbuf : s.rxbuf = []) :
    exec .seekEnd s = .next (s.quiet.emitRx (.outcome (.noFrame .noStart))).endAttempt := by
  rw [exec, execSeekEnd]
  exact microStep_eq_next.2 ⟨hwf, selects_of_seekRow hwf hact hst hsp (.seekEnd hst hbuf), rfl⟩

theorem exec_seekStart {tail : Bytes} (hbuf : s.rxbuf = s.cfg.startTag :: tail) :
    exec .seekStart s = .next { s with st := .accumulating, sp := 1, cand := [], out := {} } := by
  rw [exec, execSeekStart]
  exact microStep_eq_next.2
    ⟨hwf, selects_of_seekRow hwf hact hst hsp (.seekStart tail hst hbuf), rfl⟩

theorem exec_seekSkip {b : Byte} {tail : Bytes} (hbuf : s.rxbuf = b :: tail)
    (hb : b ≠ s.cfg.startTag) :
    exec (.seekSkip b) s = .next { s with rxbuf := tail, out := {} } := by
  rw [exec, execSeekSkip]
  refine microStep_eq_next.2
    ⟨hwf, selects_of_seekRow hwf hact hst hsp (.seekSkip b tail hst hbuf hb), ?_⟩
  rw [State.raise_garbage, State.consume, State.quiet_rxbuf, hbuf]
  rfl

end SeekRows

/-- Settles O11: by the row of an empty buffer. -/
theorem seekEndReportsNoStart : Obligations.SeekEndReportsNoStart :=
  fun _ hwf hact hst hsp hbuf => exec_seekEnd hwf hact hst hsp hbuf

/-- Settles O12: by the two rows that look at the head of RXBUF. -/
theorem seekingStartsAtStartAndDropsGarbage : Obligations.SeekingStartsAtStartAndDropsGarbage := by
  intro s b hwf hact hst hsp hread
  have hbuf := drop_eq_cons_of_getElem? hread
  rw [List.drop_zero] at hbuf
  refine ⟨?_, exec_seekSkip hwf hact hst hsp hbuf⟩
  rintro rfl
  exact exec_seekStart hwf hact hst hsp hbuf

/-! ### The rows of ACCUMULATING -/

section AccRows

variable {s : State} (hwf : s.cfg.wf = true) (hact : s.act = .scanning)
  (hst : s.st = .accumulating)
include hwf hact hst

/-- While accumulating, a byte under the scan pointer is in range (rule R24). -/
theorem selects_of_accRow {i : Instr} {b : Byte} {tail : Bytes}
    (hrest : s.rxbuf.drop s.sp = b :: tail)
    (hrow : ScanRow s.cfg s.st s.cand.isEmpty (s.rxbuf.drop s.sp) i) : s.selects i = true :=
  selects_of_scanRow hwf hact
    (scanInRange_of_accumulating hst (lt_length_of_drop_eq_cons hrest).le) hrow

theorem exec_accEnd (hsp : s.sp = s.rxbuf.length) :
    exec .accEnd s = .next (s.quiet.emitRx (.outcome (.noFrame .incomplete))).endAttempt := by
  rw [exec, execAccEnd]
  refine microStep_eq_next.2 ⟨hwf, selects_of_scanRow hwf hact
    (scanInRange_of_accumulating hst hsp.le) (.accEnd hst (by rw [hsp, List.drop_length])), ?_⟩
  rw [State.raise_incomplete]

theorem exec_accEscPair {e x : Byte} {tail : Bytes} (hrest : s.rxbuf.drop s.sp = e :: x :: tail)
    (he : s.cfg.classOf e = .escape) :
    exec (.accEscPair x) s
      = .next { s with cand := s.cand ++ [x], sp := s.sp + 2, out := {} } := by
  rw [exec, execAccEscPair]
  exact microStep_eq_next.2
    ⟨hwf, selects_of_accRow hwf hact hst hrest (.accEscPair e x tail hst hrest he), rfl⟩

theorem exec_accEscDangle {e : Byte} (hrest : s.rxbuf.drop s.sp = [e])
    (he : s.cfg.classOf e = .escape) :
    exec .accEscDangle s
      = .next (s.quiet.emitRx (.outcome (.noFrame .danglingEscape))).endAttempt := by
  rw [exec, execAccEscDangle]
  refine microStep_eq_next.2
    ⟨hwf, selects_of_accRow hwf hact hst hrest (.accEscDangle e hst hrest he), ?_⟩
  rw [State.raise_incomplete]

theorem exec_accStop {tail : Bytes} (hrest : s.rxbuf.drop s.sp = s.cfg.stopTag :: tail) :
    exec .accStop s
      = .next { s with rxbuf := s.rxbuf.drop (s.sp + 1), st := .done, out := {} } := by
  rw [exec, execAccStop]
  exact microStep_eq_next.2
    ⟨hwf, selects_of_accRow hwf hact hst hrest (.accStop tail hst hrest), rfl⟩

theorem exec_accStart {tail : Bytes} (hrest : s.rxbuf.drop s.sp = s.cfg.startTag :: tail) :
    exec .accStart s
      = .next { s with rxbuf := s.rxbuf.drop s.sp, sp := 1, cand := [], out := {} } := by
  rw [exec, execAccStart]
  refine microStep_eq_next.2
    ⟨hwf, selects_of_accRow hwf hact hst hrest (.accStart tail hst hrest), ?_⟩
  rw [State.raise_superseded]
  rfl

theorem exec_accData {b : Byte} {tail : Bytes} (hrest : s.rxbuf.drop s.sp = b :: tail)
    (hb : s.cfg.classOf b = .other) :
    exec (.accData b) s
      = .next { s with cand := s.cand ++ [b], sp := s.sp + 1, out := {} } := by
  rw [exec, execAccData]
  exact microStep_eq_next.2
    ⟨hwf, selects_of_accRow hwf hact hst hrest (.accData b tail hst hrest hb), rfl⟩

end AccRows

/-- Settles O13: by the row of each byte class and that of the end of RXBUF. -/
theorem accumulatingRowsGatherStopAndWait : Obligations.AccumulatingRowsGatherStopAndWait := by
  intro s hwf hact hst
  have hescape := classOf_escapeTag hwf
  refine ⟨fun x hread hnext => ?pair, fun hread hlast => ?dangle, fun hread => ⟨s.sp, ?stop⟩,
    fun b hread h1 h2 h3 => ?data, exec_accEnd hwf hact hst⟩
  case pair =>
    have hrest := drop_eq_cons_of_getElem? hread
    rw [drop_eq_cons_of_getElem? hnext] at hrest
    exact exec_accEscPair hwf hact hst hrest hescape
  case dangle =>
    have hrest := drop_eq_cons_of_getElem? hread
    rw [hlast, List.drop_length] at hrest
    exact exec_accEscDangle hwf hact hst hrest hescape
  case stop => exact exec_accStop hwf hact hst (drop_eq_cons_of_getElem? hread)
  case data =>
    exact exec_accData hwf hact hst (drop_eq_cons_of_getElem? hread)
      (classOf_eq_other_iff_ne.2 ⟨h1, h2, h3⟩)

/-- Settles O14: by the row of a START met while accumulating. -/
theorem embeddedStartSupersedesSilently : Obligations.EmbeddedStartSupersedesSilently :=
  fun _ hwf hact hst hread => exec_accStart hwf hact hst (drop_eq_cons_of_getElem? hread)

/-! ### The rows of DONE -/

/-- The state in which an attempt in progress ends when it comes to what `a` says (rules R123, R125,
R129 to R132): the buffer, the outcome and the DIAG events of `a`, and nothing of the scan. -/
def State.finishAttempt (s : State) (a : Attempt) : State :=
  { s with
    rxbuf := a.buf, act := .idle, st := .seekingStart, sp := 0, cand := [],
    out := { rxOut := some (.outcome a.outcome), diag := diagEvents s.cfg a.raised } }

/-- Ended by conditions without a record, an attempt emits its outcome and no DIAG event (rules R180
to R183). -/
theorem finishAttempt_of_silent {raised : List Condition} (s : State) (o : RxOutcome)
    (h : raised.filterMap Condition.record? = []) :
    s.finishAttempt ⟨o, s.rxbuf, raised⟩ = (s.quiet.emitRx (.outcome o)).endAttempt := by
  rw [State.finishAttempt, diagEvents_eq_nil h]
  rfl

/-- The check of the split candidate ends the attempt as step 3 of rule R132 says. -/
theorem validateCandidate_eq_finishAttempt (s : State) (p : Bytes) (t : Byte) :
    validateCandidate s.quiet p t = s.finishAttempt (conclude s.cfg (p ++ [t]) s.rxbuf) := by
  rw [conclude, verdict_append, validateCandidate, State.quiet_cfg]
  split
  next => exact (finishAttempt_of_silent s _ rfl).symm
  next => rfl

section DoneRows

variable {s : State} (hwf : s.cfg.wf = true) (hact : s.act = .scanning) (hst : s.st = .done)
include hwf hact hst

theorem exec_doneEmpty (hcand : s.cand = []) :
    exec .doneEmpty s = .next (s.finishAttempt (conclude s.cfg [] s.rxbuf)) := by
  rw [exec, execDoneEmpty]
  exact microStep_eq_next.2 ⟨hwf, selects_of_scanRow hwf hact (scanInRange_of_done hst)
    (.doneEmpty hst (by rw [hcand, List.isEmpty_nil])), rfl⟩

theorem exec_doneValidate {p : Bytes} {t : Byte} (hcand : s.cand = p ++ [t]) :
    exec .doneValidate s = .next (s.finishAttempt (conclude s.cfg (p ++ [t]) s.rxbuf)) := by
  rw [exec, execDoneValidate]
  refine microStep_eq_next.2 ⟨hwf, selects_of_scanRow hwf hact (scanInRange_of_done hst)
    (.doneValidate hst (by simp [hcand])), ?_⟩
  rw [State.quiet_cand, hcand, splitCandidate_append]
  exact validateCandidate_eq_finishAttempt s p t

end DoneRows

/-- Settles O15: the verdict on the candidate is the check of its last byte. -/
theorem validationDeliversOrReportsCorrupt : Obligations.ValidationDeliversOrReportsCorrupt := by
  intro s p t hwf hact hst hcand
  rw [exec_doneValidate hwf hact hst hcand, conclude, verdict_append]
  refine ⟨fun ht => ?valid, fun ht => ?corrupt⟩
  case valid =>
    rw [if_pos (isValid_iff.2 ht), finishAttempt_of_silent s _ rfl]
    rfl
  case corrupt =>
    rw [if_neg (mt isValid_iff.1 ht)]
    rfl

/-- Settles O16: the verdict on the empty candidate is corrupt. -/
theorem emptyCandidateIsCorrupt : Obligations.EmptyCandidateIsCorrupt :=
  fun _ hwf hact hst hcand => exec_doneEmpty hwf hact hst hcand

end Sys2Proof.Machine

/-! SUPPORT. An attempt shown micro-step by micro-step is `attempt` (spec/42_decode.md rules R120,
R132, R133). -/

namespace Sys2Proof.Machine

/-- Garbage or a superseded frame is not reported where the attempt ends (rules R182, R183). -/
theorem finishAttempt_after {k : Condition} (s : State) (a : Attempt) (hk : k.record? = none) :
    s.finishAttempt (a.after k) = s.finishAttempt a := by
  simp only [State.finishAttempt, Attempt.after, diagEvents, List.filterMap_cons_none hk]

/-! ### Runs of bounded length -/

/-- `t` is reached from `s` in at most `k` steps. -/
def ReachesWithin (k : Nat) (s t : State) : Prop := ∃ n ≤ k, core.run n s = .next t

theorem reachesWithin_zero (s : State) : ReachesWithin 0 s s := ⟨0, le_rfl, rfl⟩

theorem ReachesWithin.after_step {k : Nat} {s t u : State} (h : step s = .next t)
    (ht : ReachesWithin k t u) : ReachesWithin (k + 1) s u := by
  obtain ⟨n, hn, hrun⟩ := ht
  exact ⟨n + 1, by omega, (core_run_succ n h).trans hrun⟩

theorem ReachesWithin.mono {k m : Nat} {s t : State} (h : ReachesWithin k s t) (hkm : k ≤ m) :
    ReachesWithin m s t := by
  obtain ⟨n, hn, hrun⟩ := h
  exact ⟨n, hn.trans hkm, hrun⟩

theorem reachesWithin_succ_of_step {s t : State} (k : Nat) (h : step s = .next t) :
    ReachesWithin (k + 1) s t :=
  ((reachesWithin_zero t).after_step h).mono (by omega)

/-! ### The steps of an attempt -/

/-- In DONE one step ends the attempt with the verdict on the candidate (rules R130, R131). -/
theorem step_of_done {s : State} (hwf : s.cfg.wf = true) (hact : s.act = .scanning)
    (hst : s.st = .done) : step s = .next (s.finishAttempt (conclude s.cfg s.cand s.rxbuf)) := by
  obtain hcand | ⟨p, t, hcand⟩ := s.cand.eq_nil_or_concat'
  · rw [hcand]
    exact step_of_exec_microStep rfl (exec_doneEmpty hwf hact hst hcand)
  · rw [hcand]
    exact step_of_exec_microStep rfl (exec_doneValidate hwf hact hst hcand)

/-- From inside a frame an attempt ends as step 2 of rule R132 says, within one step for each byte
not looked at yet and one more (rule R133). -/
theorem reachesWithin_of_accumulating {s : State} {c : Cfg} {raw cand rest : Bytes}
    (hwf : c.wf = true) (hcfg : s.cfg = c) (hact : s.act = .scanning) (hst : s.st = .accumulating)
    (hbuf : s.rxbuf = raw ++ rest) (hsp : s.sp = raw.length) (hcand : s.cand = cand) :
    ReachesWithin (rest.length + 1) s (s.finishAttempt (accumulate c raw cand rest)) := by
  have hrest : s.rxbuf.drop s.sp = rest := by rw [hbuf, hsp, List.drop_left]
  fun_induction accumulate c raw cand rest generalizing s with
  | case1 raw cand =>
    have hraw : s.rxbuf = raw := by rw [hbuf, List.append_nil]
    rw [← hraw, finishAttempt_of_silent s _ rfl]
    exact reachesWithin_succ_of_step _ (step_of_exec_microStep rfl
      (exec_accEnd (hcfg ▸ hwf) hact hst (by rw [hsp, hraw])))
  | case2 raw cand b hb =>
    rw [← hbuf, finishAttempt_of_silent s _ rfl]
    exact reachesWithin_succ_of_step _ (step_of_exec_microStep rfl
      (exec_accEscDangle (hcfg ▸ hwf) hact hst hrest (hcfg ▸ hb)))
  | case3 raw cand b hb x rest ih =>
    subst hcfg hcand
    have hstep := step_of_exec_microStep rfl (exec_accEscPair hwf hact hst hrest hb)
    refine (ReachesWithin.after_step hstep
      (ih rfl hact hst (by simp [hbuf]) (by simp [hsp]) rfl ?_)).mono (by simp)
    rw [← List.drop_drop, hrest]
    rfl
  | case4 raw cand b rest hb =>
    subst hcfg hcand
    obtain rfl := eq_stopTag_of_classOf hb
    have hstop := step_of_exec_microStep rfl (exec_accStop hwf hact hst hrest)
    rw [← List.drop_drop, hrest] at hstop
    have hdone := step_of_done (s := { s with rxbuf := rest, st := .done, out := {} }) hwf hact rfl
    exact (reachesWithin_succ_of_step _ hdone).after_step hstop
  | case5 raw cand b rest hb ih =>
    subst hcfg hcand
    obtain rfl := eq_startTag_of_classOf hb
    have hstep := step_of_exec_microStep rfl (exec_accStart hwf hact hst hrest)
    rw [hrest] at hstep
    rw [finishAttempt_after s _ rfl]
    exact ReachesWithin.after_step hstep (ih rfl hact hst rfl rfl rfl rfl)
  | case6 raw cand b rest hb ih =>
    subst hcfg hcand
    have hstep := step_of_exec_microStep rfl (exec_accData hwf hact hst hrest hb)
    refine ReachesWithin.after_step hstep (ih rfl hact hst (by simp [hbuf]) (by simp [hsp]) rfl ?_)
    rw [← List.drop_drop, hrest]
    rfl

/-- From SEEKING_START an attempt ends as rule R132 says, within one step for each byte and one more
(rule R133). -/
theorem reachesWithin_of_seeking {s : State} {buf : Memory} (hwf : s.cfg.wf = true)
    (hact : s.act = .scanning) (hst : s.st = .seekingStart) (hsp : s.sp = 0)
    (hbuf : s.rxbuf = buf) :
    ReachesWithin (buf.length + 1) s (s.finishAttempt (attempt s.cfg buf)) := by
  induction buf generalizing s with
  | nil =>
    rw [attempt, ← hbuf, finishAttempt_of_silent s _ rfl]
    exact reachesWithin_succ_of_step _ (step_of_exec_microStep rfl
      (exec_seekEnd hwf hact hst hsp hbuf))
  | cons b rest ih =>
    rw [attempt]
    by_cases hb : b = s.cfg.startTag
    · rw [if_pos hb]
      subst hb
      have hstep := step_of_exec_microStep rfl (exec_seekStart hwf hact hst hsp hbuf)
      exact ReachesWithin.after_step hstep
        (reachesWithin_of_accumulating hwf rfl hact rfl hbuf rfl rfl)
    · rw [if_neg hb, finishAttempt_after s _ rfl]
      have hstep := step_of_exec_microStep rfl (exec_seekSkip hwf hact hst hsp hbuf hb)
      exact ReachesWithin.after_step hstep (ih hwf hact hst hsp rfl)

/-- Settles O34: the start request, and the steps of the attempt it starts. -/
theorem attemptIsItsMicroSteps : Obligations.AttemptIsItsMicroSteps := by
  intro s rest hwf hact hops
  have hstart := step_takes_oldest hact hops
    (runRequest_startAttempt (s := { s with ops := rest }) hwf)
  obtain ⟨n, hn, hrun⟩ := reachesWithin_of_seeking
    (s := (State.quiet { s with ops := rest }).enterAttempt) hwf rfl rfl rfl rfl
  refine ⟨n, _, _, hn.trans (Nat.le_succ _), exec_extract hwf, ?_, rfl⟩
  rw [Nat.add_comm, core_run_succ _ hstart, hact]
  exact hrun

end Sys2Proof.Machine

/-! SUPPORT. The receive buffer: what the owner's operations answer (spec/43_receive_buffer.md rules
R140 to R143). -/

namespace Sys2Proof.Machine

/-! ### Room in RXBUF -/

/-- Bytes fit when every finite capacity has room for them (rules R27, R140). -/
theorem Memory.fits_iff {cap : Option Nat} {m : Memory} {s : Bytes} :
    Memory.fits cap m s = true ↔ ∀ n, cap = some n → m.length + s.length ≤ n := by
  cases cap <;> simp [Memory.fits]

/-- An operation that appends bytes has no step when they do not fit (rule R27). -/
theorem whenFits_ne_next_of_lt {s t : State} {bytes : Bytes} {f : State → State} {cap : Nat}
    (hcap : s.cfg.bufCap = some cap) (hlt : cap < s.rxbuf.length + bytes.length) :
    whenFits bytes s f ≠ .next t := by
  intro h
  obtain ⟨-, hfits, -⟩ := whenFits_eq_next.1 h
  exact absurd (Memory.fits_iff.1 hfits cap hcap) (Nat.not_le.2 hlt)

/-! ### What each operation answers -/

theorem exec_append {s : State} {bytes : Bytes} (hwf : s.cfg.wf = true)
    (hfits : Memory.fits s.cfg.bufCap s.rxbuf bytes = true) :
    exec (.append bytes) s = .next { s with rxbuf := s.rxbuf ++ bytes, out := {} } := by
  rw [exec]
  exact whenFits_eq_next.2 ⟨hwf, hfits, rfl⟩

theorem exec_feed {s : State} {bytes : Bytes} (hwf : s.cfg.wf = true)
    (hfits : Memory.fits s.cfg.bufCap s.rxbuf bytes = true) :
    exec (.feed bytes) s = .next { s with
      rxbuf := (drain s.cfg (s.rxbuf ++ bytes)).buf
      out := { rxOut := some (.outcomes (drain s.cfg (s.rxbuf ++ bytes)).outs)
               diag := diagEvents s.cfg (drain s.cfg (s.rxbuf ++ bytes)).raised } } := by
  rw [exec]
  exact whenFits_eq_next.2 ⟨hwf, hfits, rfl⟩

theorem exec_attempt {s : State} (buf : Memory) (hwf : s.cfg.wf = true) :
    exec (.attempt buf) s = .next { s with
      out := { ret := some (.attempt (attempt s.cfg buf).outcome (attempt s.cfg buf).buf) } } := by
  rw [exec]
  exact atomically_eq_next.2 ⟨hwf, rfl⟩

/-- Settles O21: APPEND asks for room and for nothing else. -/
theorem appendAddsAtTheTail : Obligations.AppendAddsAtTheTail := by
  intro s bytes hwf
  refine ⟨fun hfits => exec_append hwf (Memory.fits_iff.2 hfits), fun cap hcap hlt t => ?_⟩
  rw [exec]
  exact whenFits_ne_next_of_lt hcap hlt

/-- Settles O25: RESET is one atomic effect. -/
theorem resetOperationEmptiesTheBuffer : Obligations.ResetOperationEmptiesTheBuffer := by
  intro s hwf
  rw [exec]
  exact atomically_eq_next.2 ⟨hwf, rfl⟩

/-! ### What an attempt records -/

/-- A delimited frame is recorded exactly when it is corrupt (rules R130, R131, R184). -/
theorem length_records_verdict (c : Cfg) (cand : Bytes) :
    ((verdict c cand).2.filterMap Condition.record?).length
      = if (verdict c cand).1 = .corrupt then 1 else 0 := by
  obtain rfl | ⟨p, t, rfl⟩ := cand.eq_nil_or_concat'
  · rfl
  · rw [verdict_append]
    split <;> rfl

theorem length_records_accumulate (c : Cfg) (raw cand rest : Bytes) :
    ((accumulate c raw cand rest).raised.filterMap Condition.record?).length
      = if (accumulate c raw cand rest).outcome = .corrupt then 1 else 0 := by
  fun_induction accumulate c raw cand rest with
  | case1 | case2 => rfl
  | case3 _ _ _ _ _ _ ih | case5 _ _ _ _ _ ih | case6 _ _ _ _ _ ih => exact ih
  | case4 raw cand b rest hb => exact length_records_verdict c cand

/-- An attempt makes one record when its outcome is CORRUPT, else none (rules R31, R184). -/
theorem length_records_attempt (c : Cfg) (buf : Memory) :
    ((attempt c buf).raised.filterMap Condition.record?).length
      = if (attempt c buf).outcome = .corrupt then 1 else 0 := by
  induction buf with
  | nil => rfl
  | cons b rest ih =>
    rw [attempt]
    split
    · exact length_records_accumulate c [b] [] rest
    · exact ih

/-- Settles O23: both are `attempt`, and DIAG carries its records when the channel exists. -/
theorem extractIsOneAttemptOnTheBuffer : Obligations.ExtractIsOneAttemptOnTheBuffer := by
  intro s buf hwf
  have hlen := length_records_attempt s.cfg buf
  refine ⟨_, _, _, exec_attempt buf hwf, exec_extract (s := { s with rxbuf := buf }) hwf, ?_⟩
  change (diagEvents s.cfg (attempt s.cfg buf).raised).length ≤ 1 ∧ _
  rw [← List.length_pos_iff_ne_nil]
  cases hdiag : s.cfg.diagEn with
  | false => simp [diagEvents, hdiag]
  | true =>
    simp only [diagEvents, hdiag, if_true, hlen]
    split <;> simp [*]

end Sys2Proof.Machine

/-! SUPPORT. The drain loop of FEED, pass by pass (spec/43_receive_buffer.md rules R142, R144). -/

namespace Sys2Proof.Machine

/-! ### The drain loop without its bound -/

theorem decoded?_eq_none_iff {o : RxOutcome} : o.decoded? = none ↔ ∃ r, o = .noFrame r := by
  cases o <;> simp [RxOutcome.decoded?]

theorem ne_noFrame_of_decoded? {o : RxOutcome} {d : DecodeOutcome} (h : o.decoded? = some d)
    (r : Reason) : o ≠ .noFrame r := by
  rintro rfl
  cases h

/-- A resolved frame is gone from the buffer (rule R144). -/
theorem length_buf_lt_of_decoded? {c : Cfg} {buf : Memory} {o : DecodeOutcome}
    (h : (attempt c buf).outcome.decoded? = some o) : (attempt c buf).buf.length < buf.length := by
  cases attempt_end c buf with
  | noStart ho | incomplete _ _ ho | dangling _ _ ho => exact absurd ho (ne_noFrame_of_decoded? h _)
  | resolved _ hlen => omega

/-- Any number of passes above the length of the buffer does the same (rule R144). -/
theorem drainFuel_congr {c : Cfg} {buf : Memory} {m n : Nat} (hm : buf.length < m)
    (hn : buf.length < n) : drainFuel c m buf = drainFuel c n buf := by
  induction m generalizing buf n with
  | zero => omega
  | succ m ih =>
    obtain ⟨n, rfl⟩ := Nat.exists_eq_add_one_of_ne_zero (Nat.ne_zero_of_lt hn)
    cases ho : (attempt c buf).outcome.decoded? with
    | none => simp only [drainFuel, ho]
    | some o =>
      have hlt := length_buf_lt_of_decoded? ho
      have hrest : drainFuel c m (attempt c buf).buf = drainFuel c n (attempt c buf).buf :=
        ih (by omega) (by omega)
      simp only [drainFuel, ho, hrest]

/-- The pass that finds no frame is the last one. -/
theorem drain_of_noFrame {c : Cfg} {buf : Memory} {r : Reason}
    (h : (attempt c buf).outcome = .noFrame r) :
    drain c buf = ⟨[], (attempt c buf).buf, (attempt c buf).raised⟩ := by
  simp only [drain, drainFuel, h, RxOutcome.decoded?]

/-- After a resolved frame the loop drains what followed it. -/
theorem drain_of_decoded? {c : Cfg} {buf : Memory} {o : DecodeOutcome}
    (h : (attempt c buf).outcome.decoded? = some o) :
    drain c buf = ⟨o :: (drain c (attempt c buf).buf).outs, (drain c (attempt c buf).buf).buf,
      (attempt c buf).raised ++ (drain c (attempt c buf).buf).raised⟩ := by
  have hlt := length_buf_lt_of_decoded? h
  simp only [drain, drainFuel, h,
    drainFuel_congr hlt (Nat.lt_succ_self (attempt c buf).buf.length)]

/-- Induction along the passes of the drain loop. -/
theorem drain_induction {c : Cfg} {motive : Memory → Prop}
    (noFrame : ∀ buf r, (attempt c buf).outcome = .noFrame r → motive buf)
    (resolved : ∀ buf o, (attempt c buf).outcome.decoded? = some o → motive (attempt c buf).buf →
      motive buf)
    (buf : Memory) : motive buf := by
  cases ho : (attempt c buf).outcome.decoded? with
  | none =>
    obtain ⟨r, hr⟩ := decoded?_eq_none_iff.1 ho
    exact noFrame buf r hr
  | some o =>
    have hlt := length_buf_lt_of_decoded? ho
    exact resolved buf o ho (drain_induction noFrame resolved (attempt c buf).buf)
termination_by buf.length

/-! ### FEED as EXTRACT after EXTRACT -/

theorem diagEvents_append (c : Cfg) (k l : List Condition) :
    diagEvents c (k ++ l) = diagEvents c k ++ diagEvents c l := by
  unfold diagEvents
  split <;> simp

theorem history_cons {i : Instr} {rest : List Instr} {s t : State} {h : History}
    (hstep : exec i s = .next t) (hrest : history rest t = some h) :
    history (i :: rest) s = some ⟨t.out.delivered ++ h.outs, t.out.diag ++ h.diag, h.final⟩ := by
  simp only [history, hstep, hrest, Option.map_some]

theorem history_cons_eq_some {i : Instr} {rest : List Instr} {s : State} {h : History}
    (hh : history (i :: rest) s = some h) :
    ∃ t g, exec i s = .next t ∧ history rest t = some g ∧
      h = ⟨t.out.delivered ++ g.outs, t.out.diag ++ g.diag, g.final⟩ := by
  rw [history] at hh
  split at hh
  next t ht =>
    obtain ⟨g, hg, rfl⟩ := Option.map_eq_some_iff.1 hh
    exact ⟨t, g, ht, hg, rfl⟩
  all_goals cases hh

/-- As many EXTRACTs as the drain loop finds frames give its outcomes and its events, and one more
answers `NO_FRAME` and leaves its buffer (rule R142). -/
theorem history_replicate_extract {c : Cfg} (hwf : c.wf = true) (buf : Memory) {s : State}
    (hcfg : s.cfg = c) (hbuf : s.rxbuf = buf) :
    ∃ h t r, history (List.replicate (drain c buf).outs.length .extract) s = some h ∧
      h.outs = (drain c buf).outs ∧ h.diag = diagEvents c (drain c buf).raised ∧
      exec .extract h.final = .next t ∧ t.out.rxOut = some (.outcome (.noFrame r)) ∧
      t.rxbuf = (drain c buf).buf := by
  induction buf using drain_induction (c := c) generalizing s with
  | noFrame buf r ho =>
    subst hcfg hbuf
    obtain ⟨hsilent, -⟩ := attempt_again hwf ho
    rw [drain_of_noFrame ho]
    exact ⟨_, _, r, rfl, rfl, hsilent.symm, exec_extract hwf, by rw [ho], rfl⟩
  | resolved buf o ho ih =>
    subst hcfg hbuf
    have hstep := exec_extract hwf
    obtain ⟨h, t, r, hh, houts, hdiag, hlast, hr, hleft⟩ := ih (exec_cfg hstep) rfl
    rw [drain_of_decoded? ho]
    refine ⟨_, t, r, history_cons hstep hh, ?_, ?_, hlast, hr, hleft⟩
    · simp [Outputs.delivered, ho, houts]
    · rw [diagEvents_append, hdiag]

/-- Settles O24: the drain loop on the buffer its APPEND leaves is EXTRACT after EXTRACT. -/
theorem feedIsAppendThenExtractUntilNoFrame : Obligations.FeedIsAppendThenExtractUntilNoFrame := by
  intro s bytes hwf
  refine ⟨fun hroom => ?_, fun cap hcap hlt t => ?_⟩
  · have hfits := Memory.fits_iff.2 hroom
    have happend := exec_append hwf hfits
    obtain ⟨h, t, r, hh, houts, hdiag, hlast, hr, hleft⟩ :=
      history_replicate_extract hwf (s.rxbuf ++ bytes) (exec_cfg happend) rfl
    refine ⟨_, _, t, r, history_cons happend hh, houts, hlast, hr, ?_⟩
    rw [exec_feed hwf hfits, ← hdiag, ← hleft]
    rfl
  · rw [exec]
    exact whenFits_ne_next_of_lt hcap hlt

end Sys2Proof.Machine

/-! SUPPORT. What is reported depends on the bytes alone, however they came
(spec/43_receive_buffer.md rule R145). -/

namespace Sys2Proof.Machine

/-! ### An attempt when more bytes follow -/

/-- What an attempt shows the owner: the outcome, the buffer it leaves and the DIAG events. -/
def Attempt.shown (c : Cfg) (a : Attempt) : RxOutcome × Memory × List Bytes :=
  (a.outcome, a.buf, diagEvents c a.raised)

/-- Garbage and superseded frames are not shown (rules R182, R183). -/
theorem shown_after {k : Condition} (c : Cfg) (a : Attempt) (hk : k.record? = none) :
    (a.after k).shown c = a.shown c := by
  simp only [Attempt.shown, Attempt.after, diagEvents, List.filterMap_cons_none hk]

theorem accumulate_cons_escape {c : Cfg} {b : Byte} (hb : c.classOf b = .escape) (x : Byte)
    (raw cand rest : Bytes) : accumulate c raw cand (b :: x :: rest)
      = accumulate c (raw ++ [b, x]) (cand ++ [x]) rest := by
  rw [accumulate.eq_def]
  simp only [hb]

theorem accumulate_cons_stop {c : Cfg} {b : Byte} (hb : c.classOf b = .stop)
    (raw cand rest : Bytes) : accumulate c raw cand (b :: rest) = conclude c cand rest := by
  rw [accumulate.eq_def]
  simp only [hb]

theorem accumulate_cons_start {c : Cfg} {b : Byte} (hb : c.classOf b = .start)
    (raw cand rest : Bytes) : accumulate c raw cand (b :: rest)
      = (accumulate c [b] [] rest).after (.superseded raw) := by
  rw [accumulate.eq_def]
  simp only [hb]

theorem accumulate_cons_other {c : Cfg} {b : Byte} (hb : c.classOf b = .other)
    (raw cand rest : Bytes) : accumulate c raw cand (b :: rest)
      = accumulate c (raw ++ [b]) (cand ++ [b]) rest := by
  rw [accumulate.eq_def]
  simp only [hb]

/-- A frame once delimited is resolved in the same way whatever follows its STOP (rule R188). -/
theorem accumulate_append_of_resolved {c : Cfg} {raw cand rest : Bytes} (more : Bytes)
    (h : ∀ r, (accumulate c raw cand rest).outcome ≠ .noFrame r) :
    accumulate c raw cand (rest ++ more) =
      { accumulate c raw cand rest with buf := (accumulate c raw cand rest).buf ++ more } := by
  fun_induction accumulate c raw cand rest with
  | case1 | case2 => exact absurd rfl (h _)
  | case3 raw cand b hb x rest ih =>
    rw [List.cons_append, List.cons_append, accumulate_cons_escape hb, ih h]
  | case4 raw cand b rest hb =>
    rw [List.cons_append, accumulate_cons_stop hb]
    rfl
  | case5 raw cand b rest hb ih =>
    rw [List.cons_append, accumulate_cons_start hb, ih h]
    rfl
  | case6 raw cand b rest hb ih => rw [List.cons_append, accumulate_cons_other hb, ih h]

/-- So the outcome and the conditions of a resolved attempt stay when more bytes follow. -/
theorem attempt_append_of_resolved {c : Cfg} {buf : Memory} (more : Bytes)
    (h : ∀ r, (attempt c buf).outcome ≠ .noFrame r) :
    attempt c (buf ++ more) = { attempt c buf with buf := (attempt c buf).buf ++ more } := by
  induction buf with
  | nil => exact absurd rfl (h _)
  | cons b rest ih =>
    rw [List.cons_append, attempt, attempt]
    rw [attempt] at h
    split
    next hb =>
      rw [if_pos hb] at h
      exact accumulate_append_of_resolved more h
    next hb =>
      rw [if_neg hb] at h
      rw [ih h]
      rfl

/-- An attempt on a START and a region that un-stuffs goes on behind the region. -/
theorem attempt_of_scanned {c : Cfg} {region cand : Bytes} (h : unstuff c region = some cand)
    (rest : Bytes) : attempt c (c.startTag :: region ++ rest)
      = accumulate c (c.startTag :: region) cand rest := by
  rw [List.cons_append, attempt, if_pos rfl, accumulate_append h]
  rfl

/-- What an unfinished frame leaves in the buffer is enough to go on with when more bytes come. -/
theorem shown_accumulate_append {c : Cfg} {raw region cand rest : Bytes} {r : Reason}
    (more : Bytes) (hraw : raw = c.startTag :: region) (hcand : unstuff c region = some cand)
    (h : (accumulate c raw cand rest).outcome = .noFrame r) :
    (accumulate c raw cand (rest ++ more)).shown c
      = (attempt c ((accumulate c raw cand rest).buf ++ more)).shown c := by
  fun_induction accumulate c raw cand rest generalizing region with
  | case1 raw cand => rw [hraw, attempt_of_scanned hcand, List.nil_append]
  | case2 raw cand b hb => rw [hraw, List.append_assoc, attempt_of_scanned hcand]
  | case3 raw cand b hb x rest ih =>
    have hparsed : unstuff c (region ++ [b, x]) = some (cand ++ [x]) := by
      simp [unstuff_append hcand, unstuff_cons_escape hb]
    rw [← ih (by simp [hraw]) hparsed h, List.cons_append, List.cons_append,
      accumulate_cons_escape hb]
  | case4 raw cand b rest hb => exact absurd h (verdict_ne_noFrame c cand r)
  | case5 raw cand b rest hb ih =>
    have hstart : [b] = [c.startTag] := by rw [eq_startTag_of_classOf hb]
    rw [List.cons_append, accumulate_cons_start hb, shown_after c _ rfl]
    exact ih (region := []) hstart (unstuff_nil c) h
  | case6 raw cand b rest hb ih =>
    have hparsed : unstuff c (region ++ [b]) = some (cand ++ [b]) := by
      simp [unstuff_append hcand, unstuff_cons_other hb]
    rw [← ih (by simp [hraw]) hparsed h, List.cons_append, accumulate_cons_other hb]

/-- After an attempt that found no frame, what it left and more bytes show what the whole buffer and
those bytes show: only garbage and superseded frames are gone. -/
theorem shown_attempt_append {c : Cfg} {buf : Memory} {r : Reason} (more : Bytes)
    (h : (attempt c buf).outcome = .noFrame r) :
    (attempt c (buf ++ more)).shown c = (attempt c ((attempt c buf).buf ++ more)).shown c := by
  induction buf with
  | nil => rfl
  | cons b rest ih =>
    rw [attempt] at h
    rw [List.cons_append, attempt, attempt]
    split
    next hb =>
      rw [if_pos hb] at h
      exact shown_accumulate_append more (by rw [hb]) (unstuff_nil c) h
    next hb =>
      rw [if_neg hb] at h
      rw [shown_after c _ rfl]
      exact ih h

/-! ### What a drain reports -/

/-- What draining a buffer shows the owner: the outcomes, the DIAG events and the buffer left. -/
structure DrainReport where
  outs : List DecodeOutcome
  diag : List Bytes
  buf : Memory

/-- The report of the drain loop: its conditions are shown as their DIAG events (rule R31). -/
def drainReport (c : Cfg) (buf : Memory) : DrainReport :=
  ⟨(drain c buf).outs, diagEvents c (drain c buf).raised, (drain c buf).buf⟩

/-- A report of which the owner has seen some outcomes and events before. -/
def DrainReport.after (outs : List DecodeOutcome) (diag : List Bytes) (r : DrainReport) :
    DrainReport := ⟨outs ++ r.outs, diag ++ r.diag, r.buf⟩

theorem DrainReport.after_after (o p : List DecodeOutcome) (d e : List Bytes) (r : DrainReport) :
    (r.after p e).after o d = r.after (o ++ p) (d ++ e) := by
  simp [DrainReport.after]

/-- The report of a buffer that begins with a resolved frame. -/
theorem drainReport_of_decoded? {c : Cfg} {buf : Memory} {o : DecodeOutcome}
    (h : (attempt c buf).outcome.decoded? = some o) :
    drainReport c buf = (drainReport c (attempt c buf).buf).after [o]
      (diagEvents c (attempt c buf).raised) := by
  rw [drainReport, drain_of_decoded? h, diagEvents_append]
  rfl

/-- The report follows from what the first attempt shows. -/
theorem drainReport_congr {c : Cfg} {buf buf' : Memory}
    (h : (attempt c buf).shown c = (attempt c buf').shown c) :
    drainReport c buf = drainReport c buf' := by
  simp only [Attempt.shown, Prod.mk.injEq] at h
  obtain ⟨houtcome, hbuf, hdiag⟩ := h
  cases ho : (attempt c buf).outcome.decoded? with
  | none =>
    obtain ⟨r, hr⟩ := decoded?_eq_none_iff.1 ho
    have hr' : (attempt c buf').outcome = .noFrame r := houtcome ▸ hr
    rw [drainReport, drainReport, drain_of_noFrame hr, drain_of_noFrame hr', hbuf, hdiag]
  | some o =>
    have ho' : (attempt c buf').outcome.decoded? = some o := houtcome ▸ ho
    rw [drainReport_of_decoded? ho, drainReport_of_decoded? ho', hbuf, hdiag]

/-- One attempt before more bytes come shows the first part of the report on all of them. -/
theorem drainReport_append_of_attempt {c : Cfg} (hwf : c.wf = true) (buf : Memory) (more : Bytes) :
    drainReport c (buf ++ more) = (drainReport c ((attempt c buf).buf ++ more)).after
      (attempt c buf).outcome.decoded?.toList (diagEvents c (attempt c buf).raised) := by
  cases ho : (attempt c buf).outcome.decoded? with
  | none =>
    obtain ⟨r, hr⟩ := decoded?_eq_none_iff.1 ho
    rw [drainReport_congr (shown_attempt_append more hr), (attempt_again hwf hr).1]
    rfl
  | some o =>
    have hmore := attempt_append_of_resolved more (ne_noFrame_of_decoded? ho)
    rw [drainReport_of_decoded? (o := o) (by rw [hmore]; exact ho), hmore]
    rfl

/-- A whole drain before more bytes come shows the first part of the report on all of them. -/
theorem drainReport_append {c : Cfg} (hwf : c.wf = true) (buf : Memory) (more : Bytes) :
    drainReport c (buf ++ more) = (drainReport c ((drain c buf).buf ++ more)).after
      (drain c buf).outs (diagEvents c (drain c buf).raised) := by
  induction buf using drain_induction (c := c) with
  | noFrame buf r ho =>
    rw [drainReport_append_of_attempt hwf, drain_of_noFrame ho, ho]
    rfl
  | resolved buf o ho ih =>
    rw [drainReport_append_of_attempt hwf, ih, drain_of_decoded? ho, DrainReport.after_after, ho,
      diagEvents_append]
    rfl

/-- What an attempt that found no frame leaves gives an empty report. -/
theorem drainReport_of_noFrame {c : Cfg} (hwf : c.wf = true) {buf : Memory} {r : Reason}
    (h : (attempt c buf).outcome = .noFrame r) :
    drainReport c (attempt c buf).buf = ⟨[], [], (attempt c buf).buf⟩ := by
  obtain ⟨-, raised, hagain, hsilent⟩ := attempt_again hwf h
  rw [drainReport, drain_of_noFrame (r := r) (by rw [hagain]), hagain, hsilent]

/-- What a drain leaves gives an empty report. -/
theorem drainReport_of_drained {c : Cfg} (hwf : c.wf = true) (buf : Memory) :
    drainReport c (drain c buf).buf = ⟨[], [], (drain c buf).buf⟩ := by
  induction buf using drain_induction (c := c) with
  | noFrame buf r ho =>
    rw [drain_of_noFrame ho]
    exact drainReport_of_noFrame hwf ho
  | resolved buf o ho ih =>
    rw [drain_of_decoded? ho]
    exact ih

/-! ### Histories -/

/-- What an operation of the owner shows is the first part of the report on RXBUF with its bytes,
and what it leaves in RXBUF gives the rest, whatever bytes come later. -/
theorem drainReport_of_exec {i : Instr} {s t : State} (hi : i.receives = true)
    (h : exec i s = .next t) (more : Bytes) :
    drainReport s.cfg (s.rxbuf ++ i.appends ++ more) =
      (drainReport s.cfg (t.rxbuf ++ more)).after t.out.delivered t.out.diag := by
  cases i with
  | append bytes =>
    rw [exec] at h
    obtain ⟨-, -, rfl⟩ := whenFits_eq_next.1 h
    rfl
  | extract =>
    rw [exec] at h
    obtain ⟨hwf, rfl⟩ := atomically_eq_next.1 h
    have hnone : Instr.extract.appends = [] := rfl
    rw [hnone, List.append_nil]
    exact drainReport_append_of_attempt hwf s.rxbuf more
  | feed bytes =>
    rw [exec] at h
    obtain ⟨hwf, -, rfl⟩ := whenFits_eq_next.1 h
    exact drainReport_append hwf (s.rxbuf ++ bytes) more
  | _ => cases hi

theorem history_cfg {l : List Instr} {s : State} {h : History} (hh : history l s = some h) :
    h.final.cfg = s.cfg := by
  induction l generalizing s h with
  | nil => cases hh; rfl
  | cons i rest ih =>
    obtain ⟨t, g, ht, hg, rfl⟩ := history_cons_eq_some hh
    exact (ih hg).trans (exec_cfg ht)

/-- What a history of them shows is the first part of the report on RXBUF with all their bytes, and
what it leaves in RXBUF gives the rest. -/
theorem drainReport_of_history {l : List Instr} {s : State} {h : History}
    (hl : ∀ i ∈ l, i.receives = true) (hh : history l s = some h) (more : Bytes) :
    drainReport s.cfg (s.rxbuf ++ l.flatMap Instr.appends ++ more) =
      (drainReport s.cfg (h.final.rxbuf ++ more)).after h.outs h.diag := by
  induction l generalizing s h with
  | nil =>
    cases hh
    rw [List.flatMap_nil, List.append_nil]
    rfl
  | cons i rest ih =>
    obtain ⟨t, g, ht, hg, rfl⟩ := history_cons_eq_some hh
    rw [List.forall_mem_cons] at hl
    have hstep := drainReport_of_exec hl.1 ht (rest.flatMap Instr.appends ++ more)
    have hrest := ih hl.2 hg
    rw [exec_cfg ht, List.append_assoc] at hrest
    rw [hrest, DrainReport.after_after] at hstep
    simpa using hstep

/-- A FEED, and an EXTRACT that answers `NO_FRAME`, leave nothing to report. -/
theorem drainReport_of_drains {last : Instr} {s t : State} (h : exec last s = .next t)
    (hlast : (∃ bytes, last = .feed bytes)
      ∨ (last = .extract ∧ ∃ r, t.out.rxOut = some (.outcome (.noFrame r)))) :
    last.receives = true ∧ drainReport s.cfg t.rxbuf = ⟨[], [], t.rxbuf⟩ := by
  obtain ⟨bytes, rfl⟩ | ⟨rfl, r, hr⟩ := hlast
  · rw [exec] at h
    obtain ⟨hwf, -, rfl⟩ := whenFits_eq_next.1 h
    exact ⟨rfl, drainReport_of_drained hwf _⟩
  · rw [exec] at h
    obtain ⟨hwf, rfl⟩ := atomically_eq_next.1 h
    have ho : (attempt s.cfg s.rxbuf).outcome = .noFrame r := by simpa using hr
    exact ⟨rfl, drainReport_of_noFrame hwf ho⟩

/-- Settles O51: what the history showed is the report on all its bytes, and it left nothing to
report. -/
theorem historyDependsOnlyOnAppendedBytes : Obligations.HistoryDependsOnlyOnAppendedBytes := by
  intro s before last h u hwf hfits _ hbefore hhist hlast hdrains
  obtain ⟨hreceives, hdrained⟩ := drainReport_of_drains hlast hdrains
  have hbytes : (before ++ [last]).flatMap Instr.appends
      = before.flatMap Instr.appends ++ last.appends := by simp
  have hreport : drainReport s.cfg (s.rxbuf ++ (before ++ [last]).flatMap Instr.appends)
      = DrainReport.after (h.outs ++ u.out.delivered) (h.diag ++ u.out.diag) ⟨[], [], u.rxbuf⟩ := by
    have hstep := drainReport_of_exec hreceives hlast []
    rw [List.append_nil, List.append_nil, hdrained, history_cfg hhist] at hstep
    rw [hbytes, ← List.append_assoc, drainReport_of_history hbefore hhist, hstep,
      DrainReport.after_after]
  simp only [drainReport, DrainReport.after, List.append_nil, DrainReport.mk.injEq] at hreport
  obtain ⟨houts, hdiag, hleft⟩ := hreport
  exact ⟨_, exec_feed hwf hfits, houts.symm, hdiag.symm, hleft.symm⟩

end Sys2Proof.Machine

/-! SUPPORT. Chunking: the pieces of a payload and their frames (spec/44_chunking.md rules R150,
R151, decision D16). -/

namespace Sys2Proof.Machine

/-! ### The pieces -/

theorem one_le_maxChunk {c : Cfg} (h : c.wf = true) : 1 ≤ c.maxChunk := by
  simp only [Cfg.wf, Bool.and_eq_true] at h
  exact of_decide_eq_true h.2

section Pieces

variable {size fuel : Nat} {payload : Bytes} (hsize : 1 ≤ size) (hfuel : payload.length ≤ fuel)
include hsize

/-- A piece takes at least one byte, so what is left needs less fuel. -/
theorem length_drop_le_of_cons {b : Byte} {rest : Bytes} (h : (b :: rest).length ≤ fuel + 1) :
    ((b :: rest).drop size).length ≤ fuel := by
  rw [List.length_drop]
  omega

include hfuel

/-- The pieces put together are the payload (rule R151). -/
theorem flatten_chunksFuel : (chunksFuel size fuel payload).flatten = payload := by
  fun_induction chunksFuel size fuel payload with
  | case1 payload => exact (List.length_eq_zero_iff.1 (Nat.le_zero.1 hfuel)).symm
  | case2 => rfl
  | case3 fuel b rest ih =>
    rw [List.flatten_cons, ih (length_drop_le_of_cons hsize hfuel), List.take_append_drop]

/-- A first piece and as many as the rest has: none when it took everything. -/
theorem length_chunksFuel :
    (chunksFuel size fuel payload).length = (payload.length + size - 1) / size := by
  fun_induction chunksFuel size fuel payload with
  | case1 payload =>
    rw [Nat.le_zero.1 hfuel]
    exact (Nat.div_eq_of_lt (by omega)).symm
  | case2 => exact (Nat.div_eq_of_lt (by rw [List.length_nil]; omega)).symm
  | case3 fuel b rest ih =>
    have hlength : (b :: rest).length + size - 1 = rest.length + size := by
      rw [List.length_cons]
      omega
    rw [List.length_cons, ih (length_drop_le_of_cons hsize hfuel), List.length_drop, hlength,
      Nat.add_div_right _ hsize, List.length_cons]
    obtain hlast | hmore := Nat.lt_or_ge rest.length size
    · rw [Nat.div_eq_of_lt hlast, Nat.div_eq_of_lt (by omega)]
    · congr 2
      omega

theorem length_of_mem_chunksFuel {piece : Bytes} (h : piece ∈ chunksFuel size fuel payload) :
    1 ≤ piece.length ∧ piece.length ≤ size := by
  fun_induction chunksFuel size fuel payload with
  | case1 | case2 => cases h
  | case3 fuel b rest ih =>
    obtain rfl | h := List.mem_cons.1 h
    · rw [List.length_take, List.length_cons]
      omega
    · exact ih (length_drop_le_of_cons hsize hfuel) h

/-- A piece with another one after it took `size` bytes. -/
theorem length_of_mem_dropLast_chunksFuel {piece : Bytes}
    (h : piece ∈ (chunksFuel size fuel payload).dropLast) : piece.length = size := by
  fun_induction chunksFuel size fuel payload with
  | case1 | case2 => cases h
  | case3 fuel b rest ih =>
    have hleft := length_drop_le_of_cons hsize hfuel
    by_cases hlast : chunksFuel size fuel ((b :: rest).drop size) = []
    · simp [hlast] at h
    · rw [List.dropLast_cons_of_ne_nil hlast] at h
      obtain rfl | h := List.mem_cons.1 h
      · have hmore : (b :: rest).drop size ≠ [] := by
          intro hnil
          rw [hnil] at hlast
          cases fuel <;> exact hlast rfl
        rw [Ne, List.drop_eq_nil_iff] at hmore
        rw [List.length_take]
        omega
      · exact ih hleft h

end Pieces

theorem exec_chunks {s : State} (payload : Bytes) (hwf : s.cfg.wf = true) :
    exec (.chunks payload) s
      = .next { s with out := { ret := some (.chunks (chunksOf s.cfg payload)) } } := by
  rw [exec, execChunks]
  exact atomically_eq_next.2 ⟨hwf, rfl⟩

/-- Settles O33: each piece takes `MAX_CHUNK` bytes or what is left, and leaves the rest. -/
theorem chunksAreFullPiecesInOrder : Obligations.ChunksAreFullPiecesInOrder := by
  intro s payload hwf
  have hsize := one_le_maxChunk hwf
  exact ⟨chunksOf s.cfg payload, exec_chunks payload hwf, flatten_chunksFuel hsize le_rfl,
    length_chunksFuel hsize le_rfl, fun _ => length_of_mem_dropLast_chunksFuel hsize le_rfl,
    fun _ => length_of_mem_chunksFuel hsize le_rfl⟩

/-! ### The frames of the pieces -/

theorem exec_encodeChunks {s : State} (payload : Bytes) (hwf : s.cfg.wf = true) :
    exec (.encodeChunks payload) s
      = .next { s with out := { txOut := some (framesOf s.cfg payload) } } := by
  rw [exec, execEncodeChunks]
  exact atomically_eq_next.2 ⟨hwf, rfl⟩

/-- At most one escape per payload byte (rule R64). -/
theorem length_frameOf_le (c : Cfg) (p : Bytes) : (frameOf c p).length ≤ 2 * p.length + 3 := by
  have hescapes : p.countP c.isTag ≤ p.length := List.countP_le_length
  rw [length_frameOf]
  omega

/-- Settles O20: the frames are those of the pieces, one each. -/
theorem encodeChunksConcatenatesTheFramesOfTheChunks :
    Obligations.EncodeChunksConcatenatesTheFramesOfTheChunks := by
  intro s payload hwf
  refine ⟨(chunksOf s.cfg payload).map (frameOf s.cfg), exec_encodeChunks payload hwf,
    ⟨_, exec_chunks payload hwf, ?_⟩, ?_, ?_⟩
  · exact List.forall₂_map_right_iff.2 (List.forall₂_same.2 fun c _ => exec_encode c hwf)
  · rintro rfl
    rfl
  · intro f hf
    obtain ⟨c, hc, rfl⟩ := List.mem_map.1 hf
    have hlen := length_of_mem_chunksFuel (one_le_maxChunk hwf) le_rfl hc
    have hframe := length_frameOf_le s.cfg c
    omega

end Sys2Proof.Machine

/-! SUPPORT. Only chunking reads `MAX_CHUNK` (spec/44_chunking.md rule R152, spec/41_encode.md rule
R114). -/

namespace Sys2Proof.Machine

/-- The configuration with another `MAX_CHUNK`. -/
def withMaxChunk (c : Cfg) (m : Nat) : Cfg := { c with maxChunk := m }

/-- The state under another `MAX_CHUNK`. -/
def State.withMaxChunk (s : State) (m : Nat) : State :=
  { s with cfg := Machine.withMaxChunk s.cfg m }

@[simp] theorem State.withMaxChunk_cfg (s : State) (m : Nat) :
    (s.withMaxChunk m).cfg = Machine.withMaxChunk s.cfg m := rfl
@[simp] theorem State.withMaxChunk_rxbuf (s : State) (m : Nat) :
    (s.withMaxChunk m).rxbuf = s.rxbuf := rfl
@[simp] theorem State.withMaxChunk_cand (s : State) (m : Nat) :
    (s.withMaxChunk m).cand = s.cand := rfl
/-- The operation map selects without `MAX_CHUNK` (rules R68, R69). -/
@[simp] theorem State.withMaxChunk_selects (s : State) (m : Nat) (i : Instr) :
    (s.withMaxChunk m).selects i = s.selects i := rfl

/-- `WF` asks of `MAX_CHUNK` only that it is positive (rule R11 clause 5). -/
theorem wf_withMaxChunk {c : Cfg} {m : Nat} (hm : 1 ≤ m) (h : c.wf = true) :
    (withMaxChunk c m).wf = true := by
  simp only [Cfg.wf, Bool.and_eq_true] at h ⊢
  exact ⟨h.1, decide_eq_true hm⟩

/-! ### The receive side -/

/-- The recursion uses the tags and the scheme only, which are the same fields of both. -/
@[simp] theorem accumulate_withMaxChunk (c : Cfg) (m : Nat) :
    accumulate (withMaxChunk c m) = accumulate c := by
  delta accumulate
  rfl

@[simp] theorem attempt_withMaxChunk (c : Cfg) (m : Nat) (buf : Memory) :
    attempt (withMaxChunk c m) buf = attempt c buf := by
  have hstart : (withMaxChunk c m).startTag = c.startTag := rfl
  induction buf with
  | nil => rfl
  | cons b rest ih => rw [attempt, attempt, hstart, ih, accumulate_withMaxChunk]

theorem drainFuel_withMaxChunk (c : Cfg) (m fuel : Nat) (buf : Memory) :
    drainFuel (withMaxChunk c m) fuel buf = drainFuel c fuel buf := by
  induction fuel generalizing buf with
  | zero => rfl
  | succ fuel ih => simp only [drainFuel, attempt_withMaxChunk, ih]

@[simp] theorem drain_withMaxChunk (c : Cfg) (m : Nat) (buf : Memory) :
    drain (withMaxChunk c m) buf = drain c buf := drainFuel_withMaxChunk c m _ buf

/-! ### Every operation

One rule per shared operation: under another `MAX_CHUNK` it answers the same when the effect
does. -/

section Rules

variable {s t : State} {m : Nat} (hm : 1 ≤ m)
include hm

theorem microStep_withMaxChunk {i : Instr} {f : State → State} (h : microStep i s f = .next t)
    (hf : ∀ q, f (q.withMaxChunk m) = (f q).withMaxChunk m) :
    microStep i (s.withMaxChunk m) f = .next (t.withMaxChunk m) := by
  obtain ⟨hwf, hsel, rfl⟩ := microStep_eq_next.1 h
  exact microStep_eq_next.2 ⟨wf_withMaxChunk hm hwf, hsel, hf s.quiet⟩

theorem atomically_withMaxChunk {f : State → State} (h : atomically s f = .next t)
    (hf : ∀ q, f (q.withMaxChunk m) = (f q).withMaxChunk m) :
    atomically (s.withMaxChunk m) f = .next (t.withMaxChunk m) := by
  obtain ⟨hwf, rfl⟩ := atomically_eq_next.1 h
  exact atomically_eq_next.2 ⟨wf_withMaxChunk hm hwf, hf s.quiet⟩

theorem whenFits_withMaxChunk {bytes : Bytes} {f : State → State}
    (h : whenFits bytes s f = .next t)
    (hf : ∀ q, f (q.withMaxChunk m) = (f q).withMaxChunk m) :
    whenFits bytes (s.withMaxChunk m) f = .next (t.withMaxChunk m) := by
  obtain ⟨hwf, hfits, rfl⟩ := whenFits_eq_next.1 h
  exact whenFits_eq_next.2 ⟨wf_withMaxChunk hm hwf, hfits, hf s.quiet⟩

/-- The two effects may differ, as that of CRC.BIT looks at the state the operation started in. -/
theorem withGenerator_withMaxChunk {f g : Nat → Nat → State → State}
    (h : withGenerator s f = .next t)
    (hfg : ∀ poly len q, g poly len (q.withMaxChunk m) = (f poly len q).withMaxChunk m) :
    withGenerator (s.withMaxChunk m) g = .next (t.withMaxChunk m) := by
  obtain ⟨hwf, poly, len, hc, rfl⟩ := withGenerator_eq_next.1 h
  exact withGenerator_eq_next.2 ⟨wf_withMaxChunk hm hwf, poly, len, hc, hfg poly len s.quiet⟩

end Rules

theorem validateCandidate_withMaxChunk (s : State) (m : Nat) (p : Bytes) (tr : Byte) :
    validateCandidate (s.withMaxChunk m) p tr = (validateCandidate s p tr).withMaxChunk m := by
  have hvalid : isValid (s.withMaxChunk m).cfg p tr = isValid s.cfg p tr := rfl
  unfold validateCandidate
  rw [hvalid]
  split <;> rfl

/-- An operation that does not chunk and answers, answers the same under any other `MAX_CHUNK` (rule
R152). -/
theorem exec_withMaxChunk {i : Instr} {s t : State} {m : Nat} (hm : 1 ≤ m)
    (h : exec i s = .next t) (hframes : ∀ payload, i ≠ .encodeChunks payload)
    (hpieces : ∀ payload, i ≠ .chunks payload) :
    exec i (s.withMaxChunk m) = .next (t.withMaxChunk m) := by
  cases i with
  | encodeChunks payload => exact absurd rfl (hframes payload)
  | chunks payload => exact absurd rfl (hpieces payload)
  | seekEnd | seekStart | seekSkip | accEnd | accEscPair | accEscDangle | accStop | accStart
  | accData | doneEmpty | encOpen | encStuff | encPlain | encTrailer | encClose =>
    rw [exec] at h
    exact microStep_withMaxChunk hm h fun _ => rfl
  | doneValidate =>
    rw [exec] at h
    refine microStep_withMaxChunk hm h fun q => ?_
    rw [State.withMaxChunk_cand]
    split
    · exact validateCandidate_withMaxChunk q m _ _
    · rfl
  | encode | reset | parityOf | trailerCompute | trailerIsValid =>
    rw [exec] at h
    exact atomically_withMaxChunk hm h fun _ => rfl
  | extract | attempt =>
    rw [exec] at h
    refine atomically_withMaxChunk hm h fun q => ?_
    simp only [State.withMaxChunk_cfg, State.withMaxChunk_rxbuf, attempt_withMaxChunk]
    rfl
  | append =>
    rw [exec] at h
    exact whenFits_withMaxChunk hm h fun _ => rfl
  | feed =>
    rw [exec] at h
    refine whenFits_withMaxChunk hm h fun q => ?_
    simp only [State.withMaxChunk_cfg, State.withMaxChunk_rxbuf, drain_withMaxChunk]
    rfl
  | crcBit a bit =>
    rw [exec, execCrcBit] at h ⊢
    refine withGenerator_withMaxChunk hm h fun _ _ _ => ?_
    rw [State.withMaxChunk_selects]
    dsimp only
    split <;> rfl
  | crcRemainder =>
    rw [exec, execCrcRemainder] at h ⊢
    exact withGenerator_withMaxChunk hm h fun _ _ _ => rfl

/-- Settles O45: what does not chunk answers the same under any other `MAX_CHUNK`. -/
theorem onlyChunkingKnowsMaxChunk : Obligations.OnlyChunkingKnowsMaxChunk :=
  fun _ _ _ _ hm h => exec_withMaxChunk hm h

end Sys2Proof.Machine

/-! SUPPORT. The streaming machine retains what the drain loop leaves and emits what it reports
(spec/45_properties_and_streaming_view.md rules R162 to R164). -/

namespace Sys2Proof.Machine

/-! ### The report when one more byte is looked at -/

/-- Garbage before a frame is not shown (rule R182). -/
theorem drainReport_garbage {c : Cfg} {b : Byte} (hb : b ≠ c.startTag) (rest : Bytes) :
    drainReport c (b :: rest) = drainReport c rest := by
  refine drainReport_congr ?_
  rw [attempt, if_neg hb, shown_after c _ rfl]

/-- A frame in progress that a START supersedes is not shown (rules R127, R183). -/
theorem drainReport_superseded {c : Cfg} {region cand : Bytes} (h : unstuff c region = some cand)
    (rest : Bytes) : drainReport c (c.startTag :: region ++ c.startTag :: rest)
      = drainReport c (c.startTag :: rest) := by
  refine drainReport_congr ?_
  rw [attempt_of_scanned h, accumulate_cons_start (classOf_startTag c), shown_after c _ rfl,
    attempt, if_pos rfl]

@[simp] theorem streamVerdict_nil (c : Cfg) : streamVerdict c [] = .corruptFrame := rfl

theorem streamVerdict_append (c : Cfg) (p : Bytes) (t : Byte) :
    streamVerdict c (p ++ [t]) = if isValid c p t then .payload p else .corruptFrame := by
  simp [streamVerdict]

@[simp] theorem streamRecord_nil (c : Cfg) : streamRecord c [] = some [] := rfl

theorem streamRecord_append (c : Cfg) (p : Bytes) (t : Byte) :
    streamRecord c (p ++ [t]) = if isValid c p t then none else some p := by
  simp [streamRecord]

/-- The drain loop and the streaming machine make the same of a delimited candidate (rules R130,
R163). -/
theorem decoded?_verdict (c : Cfg) (cand : Bytes) :
    (verdict c cand).1.decoded? = some (streamVerdict c cand) := by
  obtain rfl | ⟨p, t, rfl⟩ := cand.eq_nil_or_concat'
  · rfl
  · rw [verdict_append, streamVerdict_append]
    split <;> rfl

/-- The conditions of a verdict are recorded as the streaming machine records them (rule R164). -/
theorem records_verdict (c : Cfg) (cand : Bytes) :
    (verdict c cand).2.filterMap Condition.record? = (streamRecord c cand).toList := by
  obtain rfl | ⟨p, t, rfl⟩ := cand.eq_nil_or_concat'
  · rfl
  · rw [verdict_append, streamRecord_append]
    split <;> rfl

/-- What DIAG is given with a delimited candidate (rules R31, R164). -/
def diagOfCandidate (c : Cfg) (cand : Bytes) : Option Bytes :=
  if c.diagEn then streamRecord c cand else none

theorem diagEvents_verdict (c : Cfg) (cand : Bytes) :
    diagEvents c (verdict c cand).2 = (diagOfCandidate c cand).toList := by
  rw [diagEvents, diagOfCandidate, records_verdict]
  split <;> rfl

/-- A delimited frame is reported with its candidate's verdict, and what follows its STOP after it
(rules R126, R130, R131). -/
theorem drainReport_delimited {c : Cfg} {region cand : Bytes} (hwf : c.wf = true)
    (h : unstuff c region = some cand) (rest : Bytes) :
    drainReport c (c.startTag :: region ++ c.stopTag :: rest) =
      (drainReport c rest).after [streamVerdict c cand] (diagOfCandidate c cand).toList := by
  have hattempt : attempt c (c.startTag :: region ++ c.stopTag :: rest) = conclude c cand rest := by
    rw [attempt_of_scanned h, accumulate_cons_stop (classOf_stopTag hwf)]
  have hdecoded : (conclude c cand rest).outcome.decoded? = some (streamVerdict c cand) :=
    decoded?_verdict c cand
  rw [← diagEvents_verdict, drainReport_of_decoded? (by rw [hattempt, hdecoded]), hattempt]
  rfl

/-! ### What the machine retains -/

/-- The states the machine reaches: it retains nothing while seeking, and otherwise its START and a
region that un-stuffs to the candidate, with the escape in force behind it (rules R134, R162). -/
inductive Stream.Sound (c : Cfg) : Stream → Prop
  | seek : Sound c ⟨.seek, [], []⟩
  | acc (region cand : Bytes) : unstuff c region = some cand →
      Sound c ⟨.acc, cand, c.startTag :: region⟩
  | esc (region cand : Bytes) : unstuff c region = some cand →
      Sound c ⟨.esc, cand, c.startTag :: region ++ [c.escapeTag]⟩

/-- What an EXTRACT on the retained bytes answers in a mode (rule R164). -/
def StreamMode.reason : StreamMode → Reason
  | .seek => .noStart
  | .acc => .incomplete
  | .esc => .danglingEscape

theorem StreamMode.eq_esc_iff {m : StreamMode} : m = .esc ↔ m.reason = .danglingEscape := by
  cases m <;> simp [StreamMode.reason]

theorem StreamMode.eq_acc_iff {m : StreamMode} : m = .acc ↔ m.reason = .incomplete := by
  cases m <;> simp [StreamMode.reason]

theorem Stream.Sound.initial (c : Cfg) : Stream.initial.Sound c := .seek

section Retained

variable {c : Cfg} {σ : Stream}

/-- An attempt on the retained bytes finds no frame, for the mode's reason, and leaves them. -/
theorem Stream.Sound.attempt_retained (hwf : c.wf = true) (h : σ.Sound c) :
    (attempt c σ.h).outcome = .noFrame σ.m.reason ∧ (attempt c σ.h).buf = σ.h := by
  cases h with
  | seek => exact ⟨rfl, rfl⟩
  | acc region cand hu => rw [attempt_of_region hu]; exact ⟨rfl, rfl⟩
  | esc region cand hu => rw [attempt_of_dangling hwf hu]; exact ⟨rfl, rfl⟩

/-- So the retained bytes alone have nothing to report. -/
theorem Stream.Sound.drainReport_retained (hwf : c.wf = true) (h : σ.Sound c) :
    drainReport c σ.h = ⟨[], [], σ.h⟩ := by
  obtain ⟨houtcome, hbuf⟩ := h.attempt_retained hwf
  simpa only [hbuf] using drainReport_of_noFrame hwf houtcome

theorem Stream.Sound.seek_iff (h : σ.Sound c) : σ.m = .seek ↔ σ.h = [] := by
  cases h <;> simp

/-- One streaming step keeps what the machine retains sound, and emits the first part of the report
on the retained bytes and those that arrive (rules R163, R164). -/
theorem Stream.Sound.step (hwf : c.wf = true) (h : σ.Sound c) (b : Byte) :
    (σ.step c b).1.Sound c ∧ ∀ rest, drainReport c (σ.h ++ b :: rest) =
      (drainReport c ((σ.step c b).1.h ++ rest)).after
        (σ.step c b).2.toList (σ.diagOf c b).toList := by
  cases h with
  | seek =>
    cases hb : c.classOf b with
    | start =>
      obtain rfl := eq_startTag_of_classOf hb
      simp only [Stream.step, Stream.diagOf, hb]
      exact ⟨.acc [] [] (unstuff_nil c), fun _ => rfl⟩
    | stop | escape | other =>
      have hne : b ≠ c.startTag := by rintro rfl; simp at hb
      simp only [Stream.step, Stream.diagOf, hb]
      exact ⟨.seek, drainReport_garbage hne⟩
  | acc region cand hu =>
    cases hb : c.classOf b with
    | start =>
      obtain rfl := eq_startTag_of_classOf hb
      simp only [Stream.step, Stream.diagOf, hb]
      exact ⟨.acc [] [] (unstuff_nil c), drainReport_superseded hu⟩
    | stop =>
      obtain rfl := eq_stopTag_of_classOf hb
      simp only [Stream.step, Stream.diagOf, hb]
      exact ⟨.seek, drainReport_delimited hwf hu⟩
    | escape =>
      obtain rfl := eq_escapeTag_of_classOf hb
      simp only [Stream.step, Stream.diagOf, hb]
      exact ⟨.esc region cand hu, fun rest => by rw [List.append_cons]; rfl⟩
    | other =>
      have hmore : unstuff c (region ++ [b]) = some (cand ++ [b]) := by
        simp [unstuff_append hu, unstuff_cons_other hb]
      simp only [Stream.step, Stream.diagOf, hb]
      exact ⟨.acc _ _ hmore, fun rest => by rw [List.append_cons]; rfl⟩
  | esc region cand hu =>
    have hmore : unstuff c (region ++ [c.escapeTag, b]) = some (cand ++ [b]) := by
      simp [unstuff_append hu, unstuff_cons_escape (classOf_escapeTag hwf)]
    refine ⟨?_, fun rest => by rw [List.append_cons]; rfl⟩
    simpa [Stream.step] using Stream.Sound.acc _ _ hmore

/-- The machine over any bytes: what it emits is the report on them behind the retained bytes. -/
theorem Stream.Sound.run (hwf : c.wf = true) (h : σ.Sound c) (bytes : Bytes) :
    (Stream.run c σ bytes).stream.Sound c ∧ drainReport c (σ.h ++ bytes) =
      ⟨(Stream.run c σ bytes).outs, (Stream.run c σ bytes).diag,
        (Stream.run c σ bytes).stream.h⟩ := by
  induction bytes generalizing σ with
  | nil => exact ⟨h, by rw [List.append_nil, h.drainReport_retained hwf]; rfl⟩
  | cons b rest ih =>
    obtain ⟨hsound, hstep⟩ := h.step hwf b
    obtain ⟨hfinal, hrest⟩ := ih hsound
    exact ⟨hfinal, by rw [hstep, hrest]; rfl⟩

end Retained

/-! ### The operations of the owner -/

/-- What FEED answers from an empty RXBUF, by the report on its bytes. -/
theorem exec_feed_of_report {s : State} {bytes : Bytes} {r : DrainReport} (hwf : s.cfg.wf = true)
    (hfits : Memory.fits s.cfg.bufCap s.rxbuf bytes = true) (hempty : s.rxbuf = [])
    (hr : drainReport s.cfg bytes = r) :
    exec (.feed bytes) s = .next { s with
      rxbuf := r.buf, out := { rxOut := some (.outcomes r.outs), diag := r.diag } } := by
  rw [exec_feed hwf hfits, hempty, ← hr]
  rfl

/-- EXTRACT on bytes the streaming machine retains says why there is no frame, and changes nothing
else (rules R133, R164). -/
theorem exec_extract_of_sound {s : State} {σ : Stream} (hwf : s.cfg.wf = true) (h : σ.Sound s.cfg)
    (hbuf : s.rxbuf = σ.h) : exec .extract s
      = .next { s with out := { rxOut := some (.outcome (.noFrame σ.m.reason)) } } := by
  obtain ⟨houtcome, hleft⟩ := h.attempt_retained hwf
  obtain ⟨hsilent, -⟩ := attempt_again hwf houtcome
  rw [exec_extract hwf, hbuf, houtcome, hleft, hsilent]

/-- Settles O36: the machine's run is the report, and its mode says what the retained bytes lack. -/
theorem streamingMachineEqualsFeed : Obligations.StreamingMachineEqualsFeed := by
  intro s bytes hwf hfits hempty
  obtain ⟨hsound, hreport⟩ := (Stream.Sound.initial s.cfg).run hwf bytes
  refine ⟨_, _, _, exec_feed_of_report hwf hfits hempty hreport, rfl, rfl,
    exec_extract_of_sound hwf hsound rfl, rfl, hsound.seek_iff, ?_, ?_⟩
  · rw [StreamMode.eq_esc_iff, RxOutcome.noFrame.injEq]
  · rw [StreamMode.eq_acc_iff, RxOutcome.noFrame.injEq]

end Sys2Proof.Machine

/-! SUPPORT. What FEED delivers of the bytes on the wire: frames sound, cut in pieces, damaged or
behind garbage (spec/45_properties_and_streaming_view.md rules R155 to R161). -/

namespace Sys2Proof.Machine

theorem drainReport_nil {c : Cfg} (hwf : c.wf = true) : drainReport c [] = ⟨[], [], []⟩ :=
  (Stream.Sound.initial c).drainReport_retained hwf

/-- What ENCODE emits is the frame. -/
theorem eq_frameOf_of_encode {s : State} {chunk wire : Bytes} (hwf : s.cfg.wf = true)
    (h : ∃ t, exec (.encode chunk) s = .next t ∧ t.out.txOut = some wire) :
    wire = frameOf s.cfg chunk := by
  obtain ⟨t, ht, hwire⟩ := h
  rw [exec_encode chunk hwf, Host.Outcome.next.injEq] at ht
  subst ht
  exact (Option.some.inj hwire).symm

/-! ### Round trip -/

theorem diagOfCandidate_of_valid {c : Cfg} {p : Bytes} {t : Byte} (h : isValid c p t = true) :
    diagOfCandidate c (p ++ [t]) = none := by
  rw [diagOfCandidate, streamRecord_append, if_pos h, ite_self]

/-- Two regions that parse make one that does (rule R66). -/
theorem unstuff_append_of_some {c : Cfg} {region more p q : Bytes}
    (h : unstuff c region = some p) (hmore : unstuff c more = some q) :
    unstuff c (region ++ more) = some (p ++ q) := by
  rw [unstuff_append h, hmore, Option.map_some]

/-- A byte that is no tag un-stuffs to itself (rule R66). -/
theorem unstuff_of_not_isTag {c : Cfg} {b : Byte} (h : c.isTag b = false) :
    unstuff c [b] = some [b] := by
  simp [unstuff_cons_other (classOf_eq_other_of_isTag h)]

/-- An escape pair un-stuffs to its operand, whatever it is (rule R66). -/
theorem unstuff_escape_pair {c : Cfg} (hwf : c.wf = true) (x : Byte) :
    unstuff c [c.escapeTag, x] = some [x] := by
  simp [unstuff_cons_escape (classOf_escapeTag hwf)]

/-- A frame whose trailer is no tag is delivered, with nothing on DIAG (rules R130, R155). -/
theorem drainReport_frameOf {c : Cfg} {chunk : Bytes} (hwf : c.wf = true)
    (htag : c.isTag (computeTrailer c chunk) = false) (rest : Bytes) :
    drainReport c (frameOf c chunk ++ rest) = (drainReport c rest).after [.payload chunk] [] := by
  have hregion := unstuff_append_of_some (unstuff_stuffAll hwf chunk) (unstuff_of_not_isTag htag)
  have hvalid : isValid c chunk (computeTrailer c chunk) = true := isValid_iff.2 rfl
  have hreport := drainReport_delimited hwf hregion rest
  rw [streamVerdict_append, if_pos hvalid, diagOfCandidate_of_valid hvalid] at hreport
  simpa [frameOf] using hreport

theorem drainReport_frameOf_alone {c : Cfg} {chunk : Bytes} (hwf : c.wf = true)
    (htag : c.isTag (computeTrailer c chunk) = false) :
    drainReport c (frameOf c chunk) = ⟨[.payload chunk], [], []⟩ := by
  have hreport := drainReport_frameOf hwf htag []
  rwa [List.append_nil, drainReport_nil hwf] at hreport

/-- Frames back to back are delivered in order (rule R155). -/
theorem drainReport_frames {c : Cfg} {cs : List Bytes} (hwf : c.wf = true)
    (htags : ∀ chunk ∈ cs, c.isTag (computeTrailer c chunk) = false) :
    drainReport c (cs.flatMap (frameOf c)) = ⟨cs.map .payload, [], []⟩ := by
  induction cs with
  | nil => exact drainReport_nil hwf
  | cons chunk cs ih =>
    rw [List.forall_mem_cons] at htags
    rw [List.flatMap_cons, drainReport_frameOf hwf htags.1, ih htags.2]
    rfl

/-- FEED of bytes whose report leaves nothing changes the channels only. -/
theorem exec_feed_of_report_nil {s : State} {bytes : Bytes} {outs : List DecodeOutcome}
    {diag : List Bytes} (hwf : s.cfg.wf = true)
    (hfits : Memory.fits s.cfg.bufCap s.rxbuf bytes = true) (hempty : s.rxbuf = [])
    (hr : drainReport s.cfg bytes = ⟨outs, diag, []⟩) :
    exec (.feed bytes) s
      = .next { s with out := { rxOut := some (.outcomes outs), diag := diag } } := by
  rw [exec_feed_of_report hwf hfits hempty hr, hempty]

theorem isTag_computeTrailer_of_parity {c : Cfg} (hwf : c.wf = true)
    (hmode : c.scheme.mode = .parity) (p : Bytes) : c.isTag (computeTrailer c p) = false := by
  cases hc : c.scheme with
  | crc poly len => simp [Scheme.mode, hc] at hmode
  | parity even odd => simp [isTag_eq_not_notTag, notTag_computeTrailer_of_parity hwf hc]

/-- Settles O49: frame by frame, and no sentinel is a tag. -/
theorem roundTripDeliversTheChunks : Obligations.RoundTripDeliversTheChunks := by
  intro s payload cs wire hwf hfits hempty
  refine ⟨?_, fun hencode htag => ?_, fun hmode => isTag_computeTrailer_of_parity hwf hmode payload⟩
  · rintro ⟨t, ht, hwire⟩ ⟨u, hu, hcs⟩ htags
    rw [exec_encodeChunks payload hwf, Host.Outcome.next.injEq] at ht
    rw [exec_chunks payload hwf, Host.Outcome.next.injEq] at hu
    subst ht hu
    cases hcs
    cases hwire
    exact exec_feed_of_report_nil hwf hfits hempty (drainReport_frames hwf htags)
  · obtain rfl := eq_frameOf_of_encode hwf hencode
    exact exec_feed_of_report_nil hwf hfits hempty (drainReport_frameOf_alone hwf htag)

/-- Settles O55: the two letters have seven one bits, so the trailer is the odd sentinel. -/
theorem parityFrameOfTheTwoLetterPayload : Obligations.ParityFrameOfTheTwoLetterPayload := by
  intro s even odd hwf hempty hc h43 h53
  have hodd : parityOf [0x43, 0x53] = true := by decide
  have htrailer : computeTrailer s.cfg [0x43, 0x53] = odd := by
    simp only [computeTrailer, hc, hodd, if_true]
  have hframe : frameOf s.cfg [0x43, 0x53]
      = [s.cfg.startTag, 0x43, 0x53, odd, s.cfg.stopTag] := by
    simp only [frameOf, stuffAll_cons, stuffAll_nil, stuffed, h43, h53, htrailer]
    rfl
  have htag := isTag_computeTrailer_of_parity hwf (by rw [hc]; rfl) [0x43, 0x53]
  rw [← hframe]
  exact ⟨exec_encode _ hwf, fun hfits =>
    exec_feed_of_report_nil hwf hfits hempty (drainReport_frameOf_alone hwf htag)⟩

/-! ### A dangling escape -/

/-- Settles O54: START, d and the escape leave the frame in progress, and so does its operand. -/
theorem danglingEscapeTakesTheNextByte : Obligations.DanglingEscapeTakesTheNextByte := by
  intro s d x hwf hbuf hd
  have hregion := unstuff_of_not_isTag hd
  have hpair : unstuff s.cfg [d, s.cfg.escapeTag, x] = some [d, x] :=
    unstuff_append_of_some hregion (unstuff_escape_pair hwf x)
  refine ⟨?_, fun hfits => ?_⟩
  · rw [exec_extract_of_sound hwf (.esc _ _ hregion) hbuf]
    rfl
  · have happend := exec_append hwf hfits
    have hextract := exec_extract_of_sound (s := { s with rxbuf := s.rxbuf ++ [x], out := {} }) hwf
      (.acc _ _ hpair) (by rw [hbuf]; rfl)
    refine ⟨_, history_cons happend (history_cons hextract rfl), rfl, ?_, hpair⟩
    dsimp only
    rw [hbuf]
    rfl

/-! ### Fragments -/

/-- What is left after a FEED and bytes that fit behind what was fed fit (rules R22, R27). -/
theorem Memory.fits_of_suffix {cap : Option Nat} {m m' : Memory} {before after : Bytes}
    (hs : m' <:+ m ++ before) (h : Memory.fits cap m (before ++ after) = true) :
    Memory.fits cap m' after = true := by
  rw [Memory.fits_iff] at h ⊢
  intro n hn
  have hlen := hs.length_le
  have hroom := h n hn
  simp only [List.length_append] at hlen hroom
  omega

theorem Memory.fits_of_append {cap : Option Nat} {m : Memory} {before after : Bytes}
    (h : Memory.fits cap m (before ++ after) = true) : Memory.fits cap m before = true := by
  rw [Memory.fits_iff] at h ⊢
  intro n hn
  have hroom := h n hn
  rw [List.length_append] at hroom
  omega

/-- FEED after FEED answers when all the fragments fit, and leaves nothing to report when there was
nothing before them. -/
theorem exists_history_feeds {s : State} {fragments : List Bytes} (hwf : s.cfg.wf = true)
    (hfits : Memory.fits s.cfg.bufCap s.rxbuf fragments.flatten = true)
    (hsilent : drainReport s.cfg s.rxbuf = ⟨[], [], s.rxbuf⟩) :
    ∃ h, history (fragments.map .feed) s = some h ∧
      drainReport s.cfg h.final.rxbuf = ⟨[], [], h.final.rxbuf⟩ := by
  induction fragments generalizing s with
  | nil => exact ⟨_, rfl, hsilent⟩
  | cons fragment fragments ih =>
    rw [List.flatten_cons] at hfits
    have hfeed := exec_feed hwf (Memory.fits_of_append hfits)
    have hsuffix := exec_rxbuf_suffix (by simp) hfeed
    obtain ⟨h, hh, hleft⟩ := ih (s := { s with
        rxbuf := (drain s.cfg (s.rxbuf ++ fragment)).buf
        out := _ }) hwf (Memory.fits_of_suffix hsuffix hfits) (drainReport_of_drained hwf _)
    exact ⟨_, history_cons hfeed hh, hleft⟩

/-- Settles O50: the FEEDs show the report on all their bytes and leave nothing to report. -/
theorem fragmentationDoesNotMatter : Obligations.FragmentationDoesNotMatter := by
  intro s fragments hwf hfits hempty
  obtain ⟨h, hh, hsilent⟩ :=
    exists_history_feeds hwf hfits (by rw [hempty]; exact drainReport_nil hwf)
  have hreceives : ∀ i ∈ fragments.map Instr.feed, i.receives = true := by simp [Instr.receives]
  have hbytes : (fragments.map Instr.feed).flatMap Instr.appends = fragments.flatten := by
    rw [List.flatMap_map]
    exact List.flatMap_id
  have hreport := drainReport_of_history hreceives hh []
  rw [hbytes, List.append_nil, List.append_nil, hempty, List.nil_append, hsilent] at hreport
  refine ⟨h, _, hh, exec_feed_of_report hwf hfits hempty hreport, ?_, ?_, rfl⟩
  · exact (List.append_nil h.outs).symm
  · exact (List.append_nil h.diag).symm

/-! ### Damage -/

/-- One inverted bit changes the parity of a byte. -/
theorem onesOf_flipBit_mod_two (b : Byte) {k : Nat} (hk : k < 8) :
    onesOf (flipBit b k) % 2 = (onesOf b + 1) % 2 := by
  have hone : ∀ k < 8, onesOf (BitVec.ofNat 8 (2 ^ k)) = 1 := by decide
  rw [flipBit, onesOf_xor_mod_two, Nat.add_mod, hone k hk, ← Nat.add_mod]

theorem flipBit_ne (b : Byte) {k : Nat} (hk : k < 8) : flipBit b k ≠ b := by
  intro h
  have hparity := onesOf_flipBit_mod_two b hk
  rw [h] at hparity
  omega

/-- The trailer of a payload fails for the payload with one bit inverted (rules R98, R99). -/
theorem isValid_flipBit {c : Cfg} {pre post : Bytes} {b : Byte} {k : Nat} (hwf : c.wf = true)
    (hdetects : c.detectsSingleBit = true) (hk : k < 8) :
    isValid c (pre ++ flipBit b k :: post) (computeTrailer c (pre ++ b :: post)) = false := by
  cases hc : c.scheme with
  | crc poly len =>
    simp only [Cfg.detectsSingleBit, hc, Bool.and_eq_true, decide_eq_true_eq] at hdetects
    obtain ⟨rfl, hpoly⟩ := hdetects
    refine crcDetectsEverySingleBitError.1 c poly (pre ++ b :: post) _ _ pre.length k hwf hc hpoly
      ?_ hk ?_
    · simp only [List.length_append, List.length_cons]
      omega
    · rw [computeTrailer_of_crc hc]
      simp [List.modify_eq_take_drop]
  | parity even odd =>
    have hparity := isValid_computeTrailer_of_parity hwf (by rw [hc]; rfl) (pre ++ b :: post)
      (pre ++ flipBit b k :: post)
    have hflip := onesOf_flipBit_mod_two b hk
    simp only [List.map_append, List.map_cons, List.sum_append, List.sum_cons] at hparity
    exact Bool.eq_false_iff.2 fun hvalid => by have := hparity.1 hvalid; omega

/-- FEED of one delimited candidate whose check fails answers one CORRUPT and leaves nothing (rule
R130). -/
theorem exec_feed_of_invalid {s : State} {region p : Bytes} {t : Byte} (hwf : s.cfg.wf = true)
    (hfits : Memory.fits s.cfg.bufCap s.rxbuf (s.cfg.startTag :: region ++ [s.cfg.stopTag]) = true)
    (hempty : s.rxbuf = []) (hregion : unstuff s.cfg region = some (p ++ [t]))
    (hinvalid : isValid s.cfg p t = false) :
    ∃ u, exec (.feed (s.cfg.startTag :: region ++ [s.cfg.stopTag])) s = .next u ∧
      u.out.delivered = [.corruptFrame] ∧ u.rxbuf = [] := by
  have hreport := drainReport_delimited hwf hregion []
  rw [streamVerdict_append, hinvalid, drainReport_nil hwf] at hreport
  exact ⟨_, exec_feed_of_report hwf hfits hempty hreport, rfl, rfl⟩

/-- The altered byte, behind its escape or no tag, un-stuffs to itself (rule R157). -/
theorem unstuff_flipped {c : Cfg} {b x : Byte} (hwf : c.wf = true)
    (h : c.isTag b = true ∨ c.isTag x = false) :
    unstuff c (if c.isTag b then [c.escapeTag, x] else [x]) = some [x] := by
  split
  · exact unstuff_escape_pair hwf x
  next hb => exact unstuff_of_not_isTag (h.resolve_left hb)

/-- Settles O52: the altered frame still parses to its altered bytes, and its check fails. -/
theorem singleBitFlipIsReportedCorrupt : Obligations.SingleBitFlipIsReportedCorrupt := by
  intro s pre post wire b k hwf hfits hempty hdetects hk
  have hpre := unstuff_stuffAll hwf pre
  refine ⟨fun htag hflip hwire => ?_, fun _ hflip hwire => ?_⟩
  · have hpayload := unstuff_append_of_some
      (unstuff_append_of_some hpre (unstuff_flipped hwf hflip)) (unstuff_stuffAll hwf post)
    rw [← List.append_cons] at hpayload
    subst hwire
    exact exec_feed_of_invalid hwf hfits hempty
      (unstuff_append_of_some hpayload (unstuff_of_not_isTag htag))
      (isValid_flipBit hwf hdetects hk)
  · have hinvalid : isValid s.cfg pre (flipBit (computeTrailer s.cfg pre) k) = false :=
      Bool.eq_false_iff.2 fun h => flipBit_ne _ hk (isValid_iff.1 h)
    subst hwire
    exact exec_feed_of_invalid hwf hfits hempty
      (unstuff_append_of_some hpre (unstuff_of_not_isTag hflip)) hinvalid

/-! ### Resynchronization -/

/-- A START begins afresh wherever the machine is, except behind an escape (rules R127, R158). -/
theorem Stream.Sound.drainReport_start {c : Cfg} {σ : Stream} (h : σ.Sound c) (hm : σ.m ≠ .esc)
    (rest : Bytes) :
    drainReport c (σ.h ++ c.startTag :: rest) = drainReport c (c.startTag :: rest) := by
  cases h with
  | seek => rfl
  | acc region cand hu => exact drainReport_superseded hu rest
  | esc => exact absurd rfl hm

/-- Garbage that ends in no dangling escape does not change how what follows a START is reported. -/
theorem drainReport_append_start {c : Cfg} {garbage : Bytes} (hwf : c.wf = true)
    (hm : (Stream.run c Stream.initial garbage).stream.m ≠ .esc) (rest : Bytes) :
    drainReport c (garbage ++ c.startTag :: rest) = (drainReport c (c.startTag :: rest)).after
      (drainReport c garbage).outs (drainReport c garbage).diag := by
  obtain ⟨hsound, hreport⟩ := (Stream.Sound.initial c).run hwf garbage
  have hleft : (drain c garbage).buf = (Stream.run c Stream.initial garbage).stream.h :=
    congrArg DrainReport.buf hreport
  rw [drainReport_append hwf, hleft, hsound.drainReport_start hm]
  rfl

/-- What FEED from an empty RXBUF delivers, and what an EXTRACT after it answers. -/
theorem delivered_feed_and_answer_of_extract {s t u : State} {bytes : Bytes} (hwf : s.cfg.wf = true)
    (hfits : Memory.fits s.cfg.bufCap s.rxbuf bytes = true) (hempty : s.rxbuf = [])
    (hfeed : exec (.feed bytes) s = .next t) (hextract : exec .extract t = .next u) :
    t.out.delivered = (drainReport s.cfg bytes).outs ∧ u.out.rxOut
      = some (.outcome (.noFrame (Stream.run s.cfg Stream.initial bytes).stream.m.reason)) := by
  obtain ⟨hsound, hreport⟩ := (Stream.Sound.initial s.cfg).run hwf bytes
  rw [exec_feed_of_report hwf hfits hempty hreport, Host.Outcome.next.injEq] at hfeed
  subst hfeed
  have hanswer := hextract.symm.trans (exec_extract_of_sound hwf hsound rfl)
  rw [Host.Outcome.next.injEq] at hanswer
  exact ⟨(congrArg DrainReport.outs hreport).symm, by rw [hanswer]⟩

/-- Settles O53: the frame's START begins afresh behind what the garbage left. -/
theorem wellFormedFrameIsDeliveredAfterAnything :
    Obligations.WellFormedFrameIsDeliveredAfterAnything := by
  intro s t u garbage chunk wire o hwf hfits hempty hfeed hextract ho hne htag hencode
  obtain rfl := eq_frameOf_of_encode hwf hencode
  obtain ⟨hdelivered, hanswer⟩ :=
    delivered_feed_and_answer_of_extract hwf (Memory.fits_of_append hfits) hempty hfeed hextract
  obtain rfl : o = _ := RxResult.outcome.inj (Option.some.inj (ho.symm.trans hanswer))
  have hm : (Stream.run s.cfg Stream.initial garbage).stream.m ≠ .esc := fun hesc =>
    hne (by rw [StreamMode.eq_esc_iff.1 hesc])
  have hframe : drainReport s.cfg (garbage ++ frameOf s.cfg chunk)
      = (drainReport s.cfg (frameOf s.cfg chunk)).after
        (drainReport s.cfg garbage).outs (drainReport s.cfg garbage).diag :=
    drainReport_append_start hwf hm _
  rw [drainReport_frameOf_alone hwf htag] at hframe
  exact ⟨_, exec_feed_of_report hwf hfits hempty hframe, by rw [hdelivered]; rfl, rfl⟩

/-! ### Trailers with a tag value -/

theorem frameOf_eq (c : Cfg) (chunk : Bytes) : frameOf c chunk
    = c.startTag :: stuffAll c chunk ++ computeTrailer c chunk :: [c.stopTag] := by
  simp [frameOf]

section TagTrailer

variable {c : Cfg} {chunk : Bytes} (hwf : c.wf = true)
include hwf

/-- A START for a trailer supersedes the frame, and the STOP ends an empty one (rules R131,
R161). -/
theorem drainReport_frameOf_of_start (ht : computeTrailer c chunk = c.startTag) :
    (drainReport c (frameOf c chunk)).outs = [.corruptFrame] ∧
      (drainReport c (frameOf c chunk)).buf = [] := by
  have hempty := drainReport_delimited hwf (unstuff_nil c) []
  rw [drainReport_nil hwf] at hempty
  rw [frameOf_eq, ht, drainReport_superseded (unstuff_stuffAll hwf chunk)]
  exact ⟨congrArg DrainReport.outs hempty, congrArg DrainReport.buf hempty⟩

/-- A STOP for a trailer ends the frame with the chunk as its candidate, and the STOP behind it is
garbage (rule R161). -/
theorem drainReport_frameOf_of_stop (ht : computeTrailer c chunk = c.stopTag) :
    (drainReport c (frameOf c chunk)).outs = [streamVerdict c chunk] ∧
      (drainReport c (frameOf c chunk)).buf = [] := by
  obtain ⟨hne, -⟩ := tags_ne hwf
  rw [frameOf_eq, ht, drainReport_delimited hwf (unstuff_stuffAll hwf chunk),
    drainReport_garbage hne.symm, drainReport_nil hwf]
  exact ⟨rfl, rfl⟩

/-- An escape for a trailer takes the STOP as its operand, so the frame never ends (rule R161). -/
theorem drainReport_frameOf_of_escape (ht : computeTrailer c chunk = c.escapeTag) :
    drainReport c (frameOf c chunk) = ⟨[], [], frameOf c chunk⟩ := by
  have hregion := unstuff_append_of_some (unstuff_stuffAll hwf chunk)
    (unstuff_escape_pair hwf c.stopTag)
  rw [frameOf_eq, ht]
  exact (Stream.Sound.acc _ _ hregion).drainReport_retained hwf

end TagTrailer

/-- Settles O56: by what each tag does in place of a trailer. -/
theorem tagValuedTrailerBreaksTheFrame : Obligations.TagValuedTrailerBreaksTheFrame := by
  intro s poly len chunk wire hwf hfits hempty hc hencode
  obtain rfl := eq_frameOf_of_encode hwf hencode
  rw [← computeTrailer_of_crc hc]
  refine ⟨_, exec_feed_of_report hwf hfits hempty rfl, drainReport_frameOf_of_start hwf,
    fun hstop => ?_, fun hescape => ?_⟩
  · obtain ⟨houts, hleft⟩ := drainReport_frameOf_of_stop hwf hstop
    refine ⟨hleft, ?_, fun hne => houts.trans ?_⟩
    · rintro p b rfl hb
      rw [← computeTrailer_of_crc hc] at hb
      exact houts.trans (by rw [streamVerdict_append, if_pos (isValid_iff.2 hb)])
    · obtain rfl | ⟨p, b, rfl⟩ := chunk.eq_nil_or_concat'
      · rfl
      · have hb := hne p b rfl
        rw [← computeTrailer_of_crc hc] at hb
        rw [streamVerdict_append, if_neg (mt isValid_iff.1 hb)]
  · have hreport := drainReport_frameOf_of_escape hwf hescape
    exact ⟨congrArg DrainReport.outs hreport, congrArg DrainReport.buf hreport⟩

end Sys2Proof.Machine

/-! SUPPORT. What an attempt reports of a frame, and the conditions it raises on the way
(spec/60_exceptions.md rules R180, R187, R188). -/

namespace Sys2Proof.Machine

/-! ### A resolved frame is judged by its bytes alone -/

/-- A scan that resolves stops at a STOP, and the bytes behind that STOP are the buffer it leaves,
whatever they are (rules R126, R188). -/
theorem accumulate_stops_at_stop {c : Cfg} {raw cand rest : Bytes}
    (h : ∀ r, (accumulate c raw cand rest).outcome ≠ .noFrame r) :
    ∃ scanned, rest = scanned ++ c.stopTag :: (accumulate c raw cand rest).buf ∧
      ∀ other, accumulate c raw cand (scanned ++ c.stopTag :: other)
        = { accumulate c raw cand rest with buf := other } := by
  fun_induction accumulate c raw cand rest with
  | case1 | case2 => exact absurd rfl (h _)
  | case3 raw cand b hb x rest ih =>
    obtain ⟨scanned, hrest, hother⟩ := ih h
    exact ⟨b :: x :: scanned, congrArg (b :: x :: ·) hrest,
      fun other => (accumulate_cons_escape hb ..).trans (hother other)⟩
  | case4 raw cand b rest hb =>
    obtain rfl := eq_stopTag_of_classOf hb
    exact ⟨[], rfl, fun other => accumulate_cons_stop hb raw cand other⟩
  | case5 raw cand b rest hb ih =>
    obtain ⟨scanned, hrest, hother⟩ := ih h
    refine ⟨b :: scanned, congrArg (b :: ·) hrest, fun other => ?_⟩
    rw [List.cons_append, accumulate_cons_start hb, hother]
    rfl
  | case6 raw cand b rest hb ih =>
    obtain ⟨scanned, hrest, hother⟩ := ih h
    exact ⟨b :: scanned, congrArg (b :: ·) hrest,
      fun other => (accumulate_cons_other hb ..).trans (hother other)⟩

theorem attempt_cons_start {c : Cfg} {b : Byte} (hb : b = c.startTag) (rest : Bytes) :
    attempt c (b :: rest) = accumulate c [b] [] rest := if_pos hb

theorem attempt_cons_garbage {c : Cfg} {b : Byte} (hb : b ≠ c.startTag) (rest : Bytes) :
    attempt c (b :: rest) = (attempt c rest).after (.garbage b) := if_neg hb

/-- The same of a whole attempt: garbage before START is dealt with before the frame. -/
theorem attempt_stops_at_stop {c : Cfg} {buf : Memory}
    (h : ∀ r, (attempt c buf).outcome ≠ .noFrame r) :
    ∃ scanned, buf = scanned ++ c.stopTag :: (attempt c buf).buf ∧
      ∀ other, attempt c (scanned ++ c.stopTag :: other) = { attempt c buf with buf := other } := by
  induction buf with
  | nil => exact absurd rfl (h _)
  | cons b rest ih =>
    by_cases hb : b = c.startTag
    · rw [attempt_cons_start hb] at h ⊢
      obtain ⟨scanned, hrest, hother⟩ := accumulate_stops_at_stop h
      exact ⟨b :: scanned, congrArg (b :: ·) hrest,
        fun other => (attempt_cons_start hb _).trans (hother other)⟩
    · rw [attempt_cons_garbage hb] at h ⊢
      obtain ⟨scanned, hrest, hother⟩ := ih h
      refine ⟨b :: scanned, congrArg (b :: ·) hrest, fun other => ?_⟩
      rw [List.cons_append, attempt_cons_garbage hb, hother]
      rfl

/-- Settles O46: EXTRACT is `attempt`, and that stops at the frame's STOP. -/
theorem resolvedFrameReportIsPrecise : Obligations.ResolvedFrameReportIsPrecise := by
  intro s t o hwf hexec hout hframe
  obtain rfl := Host.Outcome.next.inj ((exec_extract hwf).symm.trans hexec)
  have ho : (attempt s.cfg s.rxbuf).outcome = o := by simpa using hout
  obtain ⟨scanned, hbuf, hother⟩ := attempt_stops_at_stop (ho ▸ hframe)
  refine ⟨scanned ++ [s.cfg.stopTag], ?_, List.getLast?_concat, fun other => ?_⟩
  · rwa [← List.append_cons]
  · have hnext := exec_extract (s := { s with rxbuf := scanned ++ s.cfg.stopTag :: other }) hwf
    rw [← List.append_cons]
    simpa only [hother] using hnext

/-! ### The conditions of one attempt -/

/-- What an attempt raises last, by its outcome: Incomplete with the reason of a frame in progress,
Corrupt for a corrupt frame, and nothing otherwise (rules R181, R184). -/
inductive ClosedBy : RxOutcome → List Condition → Prop where
  | noStart : ClosedBy (.noFrame .noStart) []
  | unfinished {r : Reason} (hr : r ≠ .noStart) : ClosedBy (.noFrame r) [.incomplete r]
  | payload (p : Bytes) : ClosedBy (.payload p) []
  | corrupt (p : Bytes) : ClosedBy .corrupt [.corrupt p]

theorem ClosedBy.getLast?_incomplete {o : RxOutcome} {last : List Condition} {r : Reason}
    (h : ClosedBy o last) :
    last.getLast? = some (.incomplete r) ↔ o = .noFrame r ∧ r ≠ .noStart := by
  cases h with
  | noStart => simp [eq_comm]
  | payload | corrupt => simp
  | unfinished hr => simpa using fun heq => heq ▸ hr

theorem ClosedBy.getLast?_corrupt {o : RxOutcome} {last : List Condition} (h : ClosedBy o last) :
    (∃ p, last.getLast? = some (.corrupt p)) ↔ o = .corrupt := by
  cases h <;> simp

theorem closedBy_verdict (c : Cfg) (cand : Bytes) :
    ClosedBy (verdict c cand).1 (verdict c cand).2 := by
  obtain rfl | ⟨p, t, rfl⟩ := cand.eq_nil_or_concat'
  · exact .corrupt []
  · rw [verdict_append]
    split
    · exact .payload p
    · exact .corrupt p

/-- Step 2 of an attempt raises superseded frames, then what its outcome says. -/
theorem raised_accumulate (c : Cfg) (raw cand rest : Bytes) :
    ∃ (superseded : List Bytes) (last : List Condition),
      ClosedBy (accumulate c raw cand rest).outcome last ∧
      (accumulate c raw cand rest).raised = superseded.map Condition.superseded ++ last := by
  fun_induction accumulate c raw cand rest with
  | case1 | case2 => exact ⟨[], _, .unfinished (by decide), rfl⟩
  | case3 _ _ _ _ _ _ ih | case6 _ _ _ _ _ ih => exact ih
  | case4 raw cand b rest hb => exact ⟨[], _, closedBy_verdict c cand, rfl⟩
  | case5 raw cand b rest hb ih =>
    obtain ⟨superseded, last, hlast, hraised⟩ := ih
    exact ⟨raw :: superseded, last, hlast, congrArg (List.cons _) hraised⟩

/-- An attempt raises garbage, then superseded frames, then what its outcome says (rule R187). -/
theorem raised_attempt (c : Cfg) (buf : Memory) :
    ∃ (garbage : Bytes) (superseded : List Bytes) (last : List Condition),
      ClosedBy (attempt c buf).outcome last ∧
      (attempt c buf).raised = garbage.map Condition.garbage ++
        (superseded.map Condition.superseded ++ last) := by
  induction buf with
  | nil => exact ⟨[], [], [], .noStart, rfl⟩
  | cons b rest ih =>
    by_cases hb : b = c.startTag
    · rw [attempt_cons_start hb]
      exact ⟨[], raised_accumulate c [b] [] rest⟩
    · rw [attempt_cons_garbage hb]
      obtain ⟨garbage, superseded, last, hlast, hraised⟩ := ih
      exact ⟨b :: garbage, superseded, last, hlast, congrArg (List.cons _) hraised⟩

/-- Conditions that stand as `raised_attempt` says are in order. -/
theorem conditionsInOrder_of_closedBy {o : RxOutcome} {last : List Condition}
    (hlast : ClosedBy o last) (garbage : Bytes) (superseded : List Bytes) :
    conditionsInOrder (garbage.map Condition.garbage ++
      (superseded.map Condition.superseded ++ last)) = true := by
  induction garbage with
  | cons _ _ ih => exact ih
  | nil =>
    induction superseded with
    | nil => cases hlast <;> rfl
    | cons _ superseded ih =>
      cases superseded with
      | nil => cases hlast <;> rfl
      | cons _ _ => exact ih

/-- Behind conditions that have no outcome of their own, the last reported condition is the last of
what follows. -/
theorem getLast?_append_of_unreported {front last : List Condition} {k : Condition}
    (hfront : ∀ j ∈ front, j.outcome? = none) (hk : k.outcome? ≠ none) :
    (front ++ last).getLast? = some k ↔ last.getLast? = some k := by
  rw [List.getLast?_append, Option.or_eq_some_iff]
  refine or_iff_left ?_
  rintro ⟨-, hlast⟩
  exact hk (hfront k (List.mem_of_getLast? hlast))

/-- Settles O47: by the shape of the list an attempt raises. -/
theorem conditionsOfAnAttemptComeInOrder : Obligations.ConditionsOfAnAttemptComeInOrder := by
  intro c buf _
  obtain ⟨garbage, superseded, last, hlast, hraised⟩ := raised_attempt c buf
  have hfront : ∀ j ∈ garbage.map Condition.garbage ++ superseded.map Condition.superseded,
      j.outcome? = none := by
    simp [or_imp, forall_and, Condition.outcome?]
  have hreported {k : Condition} (hk : k.outcome? ≠ none) :
      (attempt c buf).raised.getLast? = some k ↔ last.getLast? = some k := by
    rw [hraised, ← List.append_assoc]
    exact getLast?_append_of_unreported hfront hk
  refine ⟨hraised ▸ conditionsInOrder_of_closedBy hlast garbage superseded, fun r => ?_, ?_⟩
  · exact (hreported (k := .incomplete r) nofun).trans hlast.getLast?_incomplete
  · exact (exists_congr fun p => hreported (k := .corrupt p) nofun).trans hlast.getLast?_corrupt

end Sys2Proof.Machine

/-! SUPPORT. A full buffer without a complete frame: nothing fits and nothing drains
(spec/70_reset_and_hazards.md rule R208, decision D14). -/

namespace Sys2Proof.Machine

/-- An operation that appends bytes is held when they do not fit (rule R27). -/
theorem whenFits_eq_bufferFull {bytes : Bytes} {s : State} {f : State → State}
    (hwf : s.cfg.wf = true) (hfull : Memory.fits s.cfg.bufCap s.rxbuf bytes = false) :
    whenFits bytes s f = .fault .bufferFull := by
  simp [whenFits, underWF, hwf, hfull]

/-- No byte fits a memory that is as long as its capacity. -/
theorem Memory.not_fits_of_full {m : Memory} {bytes : Bytes} (hne : bytes ≠ []) :
    Memory.fits (some m.length) m bytes = false := by
  have hpos := List.length_pos_iff.2 hne
  exact decide_eq_false (by omega)

/-- EXTRACT on a frame in progress changes nothing, and says whether an escape waits for its operand
(rules R125, R129). -/
theorem exec_extract_of_unfinished {s : State} {region cand escape : Bytes} (hwf : s.cfg.wf = true)
    (hbuf : s.rxbuf = s.cfg.startTag :: region ++ escape) (hu : unstuff s.cfg region = some cand)
    (hescape : escape = [] ∨ escape = [s.cfg.escapeTag]) :
    exec .extract s = .next { s with out := { rxOut := some (.outcome (.noFrame
      (if escape = [] then .incomplete else .danglingEscape))) } } := by
  obtain rfl | rfl := hescape
  · exact exec_extract_of_sound hwf (.acc region cand hu) (hbuf.trans (List.append_nil _))
  · exact exec_extract_of_sound hwf (.esc region cand hu) hbuf

/-- Settles O22: no byte fits, EXTRACT leaves the frame in progress, and RESET drops it. -/
theorem fullBufferWithoutFrameIsStuck : Obligations.FullBufferWithoutFrameIsStuck := by
  intro s region cand escape bytes hwf hcap hbuf hu hescape hne
  have hfull : Memory.fits s.cfg.bufCap s.rxbuf bytes = false :=
    hcap ▸ Memory.not_fits_of_full hne
  refine ⟨?append, ?feed, exec_extract_of_unfinished hwf hbuf hu hescape,
    resetOperationEmptiesTheBuffer s hwf⟩
  case append =>
    rw [exec]
    exact whenFits_eq_bufferFull hwf hfull
  case feed =>
    rw [exec]
    exact whenFits_eq_bufferFull hwf hfull

end Sys2Proof.Machine
